-- ==== Sys2Proof/Config.lean ====
section
/-! DEFINITION. What the spec makes a parameter of the model (00_scope.md R5), with the value the spec uses, and
the free values: what the spec leaves open and the machine goes on with. A free value is an `opaque` constant with
no body, so that nothing can be proved of the value it has. -/

namespace Sys2Proof

/-! ### The parameters of R5 -/

/-- `XLEN`, the width of a general register and of a memory cell, in bits (R5, R20, R40). -/
abbrev Config.xlen : Nat := 32

/-- `NREGS`, the number of register numbers a command can encode (R5, R20; decision D1, log 15). -/
abbrev Config.nregs : Nat := 16

/-- The width of a register field, in bits: `NREGS` numbers are encoded (R61, log 14). -/
abbrev Config.regBits : Nat := 4

/-- `NUSABLE`, the number of registers the spec gives a meaning to (R5, R23; decision D1, log 15). -/
abbrev Config.nusable : Nat := 15

/-- The number of registers a pair may start at: all but the last (R21, R23). -/
abbrev Config.npairs : Nat := 14

/-- `SP`, the number of the stack pointer (R5, R22). -/
abbrev Config.sp : Nat := 14

/-- `ILEN`, the number of cells a command occupies (R5, R25; decision D2, log 14). -/
abbrev Config.ilen : Nat := 1

/-- `IMM_RI_BITS`, the width of the immediate of format RI (R5, R62; decision D3, log 14). -/
abbrev Config.immRIBits : Nat := 20

/-- `IMM_RR_BITS`, the width of the immediate of format RR (R5, R63; decision D3, log 14). -/
abbrev Config.immRRBits : Nat := 16

/-- `ADDR_BITS`, the width of the address of formats RM and J (R5, R64, R65; decision D3, log 14). -/
abbrev Config.addrBits : Nat := 20

/-- `MEM_WORDS`, the number of cells (R5, R30; decision D9, log 13). -/
def Config.memWords : Nat := 1048576

/-- `IMM_SIGNED`: whether the immediates of RI and RR are sign-extended (R66; decision D4, log 11). -/
def Config.immSigned : Bool := false

/-- `INT_SIGNED`: whether `mul`, `div`, `cmp`, `itod`, `dtoi` and PUTCHAR read a word as signed (R5, R108; decision D6,
log 12). SCANINT and PRINTINT pass the word itself, whatever it denotes (R103, R105). -/
def Config.intSigned : Bool := false

/-- `ENTRY` for `State.reset`, which loads no program. UNSAFE, DESIGN CHOICE: the spec makes it a parameter of the
program (R271); log 5. The predicate `Launch` takes any image and any entry, and `HOST` is the state's `hostIn`. -/
def Config.entry : BitVec Config.xlen := 0

/-! ### Floating point: the parameter `FP` -/

/-- The outcome of comparing two values (45_compare_and_jumps.md R200). `unordered` comes from a NaN only. -/
inductive Cmp where
  | equal
  | greater
  | less
  | unordered
  deriving DecidableEq, Repr

/-- The result of a floating-point operation: one definite pattern, or a NaN, whose bits are a draw (R162). -/
inductive FpResult where
  | value (d : BitVec 64)
  | nan
  deriving DecidableEq, Repr

/-- The record `FP` of 43_floating_point.md R162: the rules of the floating-point commands depend on the arithmetic
only through these functions on 64-bit patterns. `floor` answers `none` for a NaN or an infinity. -/
structure FpArith where
  add : BitVec 64 → BitVec 64 → FpResult
  sub : BitVec 64 → BitVec 64 → FpResult
  mul : BitVec 64 → BitVec 64 → FpResult
  div : BitVec 64 → BitVec 64 → FpResult
  fromInt : Int → BitVec 64
  floor : BitVec 64 → Option Int
  compare : BitVec 64 → BitVec 64 → Cmp

/-! ### Free values -/

/-- FREE VALUE: the word that memory cell `a` holds at launch where the image defines none. R34: "an arbitrary
word"; R274: "unknown but fixed, each read returning the same word until something writes the location" (log 6). -/
opaque Config.launchCell : Nat → BitVec Config.xlen

/-- FREE VALUE: the sign bit of the `n`-th NaN drawn (R162: "the result is any NaN pattern (a draw)"; log 9). -/
opaque Config.nanSign : Nat → BitVec 1

/-- FREE VALUE: what the fraction of the `n`-th NaN drawn is made from (R162; log 9). -/
opaque Config.nanFraction : Nat → BitVec 52

end Sys2Proof
end

