-- ==== Sys2Proof/Word.lean ====
section
/-! DEFINITION. The words of the Karma processor, at the widths of `Config`, and the fields of its instruction word.
Bits are numbered from 0, the least significant (00_scope.md R6). -/

namespace Sys2Proof

/-- A word: the content of one general register or of one memory cell (R6, R20, R40). -/
abbrev Word := BitVec Config.xlen

/-- A double word, `hi ∥ lo` (R6): the content of a register pair or of two consecutive cells. -/
abbrev DWord := BitVec 64

/-- A register number as an instruction encodes it: 0 to 15 (R61). Number 15 can be written and has no
meaning (R23). -/
abbrev RegNo := BitVec Config.regBits

/-- The immediate field of format RR (R63). -/
abbrev Imm16 := BitVec Config.immRRBits

/-- The immediate field of format RI (R62). -/
abbrev Imm20 := BitVec Config.immRIBits

/-- The address field of formats RM and J (R64, R65). -/
abbrev Addr := BitVec Config.addrBits

/-- The registers that exist: r0 to r14 (R20, R23). -/
abbrev Reg := Fin Config.nusable

/-- The registers a pair may start at: r0 to r13 (R21). -/
abbrev PairReg := Fin Config.npairs

end Sys2Proof
end

