-- ==== Sys2Proof/Syntax.lean ====
section
/-! DEFINITION. The 52 commands of the Karma processor, one constructor per row of the opcode table
(30_encoding.md R68), with the operands their format gives them (R62 to R65), in the table's order. Bits 23:20 of a
J-format word are no operand (R65, R70) and are not kept. -/

namespace Sys2Proof

/-- A command with its operand fields as encoded. Register number 15 can be written here: `Instr.wellFormed` says
which commands use it, and their meanings refuse it (10_state.md R23). -/
inductive Instr where
  /-- `halt rd, imm`: code 0, format RI (40_system.md R100). -/
  | halt (rd : RegNo) (imm : Imm20)
  /-- `syscall rd, imm`: code 1, format RI (40_system.md R101). -/
  | syscall (rd : RegNo) (imm : Imm20)
  /-- `add rd, rs, imm`: code 2, format RR (41_integer_arithmetic.md R121). -/
  | add (rd rs : RegNo) (imm : Imm16)
  /-- `addi rd, imm`: code 3, format RI (41_integer_arithmetic.md R122). -/
  | addi (rd : RegNo) (imm : Imm20)
  /-- `sub rd, rs, imm`: code 4, format RR (41_integer_arithmetic.md R123). -/
  | sub (rd rs : RegNo) (imm : Imm16)
  /-- `subi rd, imm`: code 5, format RI (41_integer_arithmetic.md R124). -/
  | subi (rd : RegNo) (imm : Imm20)
  /-- `mul rd, rs, imm`: code 6, format RR (41_integer_arithmetic.md R125). -/
  | mul (rd rs : RegNo) (imm : Imm16)
  /-- `muli rd, imm`: code 7, format RI (41_integer_arithmetic.md R126). -/
  | muli (rd : RegNo) (imm : Imm20)
  /-- `div rd, rs, imm`: code 8, format RR (41_integer_arithmetic.md R127). -/
  | div (rd rs : RegNo) (imm : Imm16)
  /-- `divi rd, imm`: code 9, format RI (41_integer_arithmetic.md R128). -/
  | divi (rd : RegNo) (imm : Imm20)
  /-- `lc rd, imm`: code 12, format RI (42_constant_shift_logic_move.md R140). -/
  | lc (rd : RegNo) (imm : Imm20)
  /-- `shl rd, rs, imm`: code 13, format RR (42_constant_shift_logic_move.md R141). -/
  | shl (rd rs : RegNo) (imm : Imm16)
  /-- `shli rd, imm`: code 14, format RI (42_constant_shift_logic_move.md R142). -/
  | shli (rd : RegNo) (imm : Imm20)
  /-- `shr rd, rs, imm`: code 15, format RR (42_constant_shift_logic_move.md R143). -/
  | shr (rd rs : RegNo) (imm : Imm16)
  /-- `shri rd, imm`: code 16, format RI (42_constant_shift_logic_move.md R144). -/
  | shri (rd : RegNo) (imm : Imm20)
  /-- `and rd, rs, imm`: code 17, format RR (42_constant_shift_logic_move.md R145). -/
  | and (rd rs : RegNo) (imm : Imm16)
  /-- `andi rd, imm`: code 18, format RI (42_constant_shift_logic_move.md R146). -/
  | andi (rd : RegNo) (imm : Imm20)
  /-- `or rd, rs, imm`: code 19, format RR (42_constant_shift_logic_move.md R147). -/
  | or (rd rs : RegNo) (imm : Imm16)
  /-- `ori rd, imm`: code 20, format RI (42_constant_shift_logic_move.md R148). -/
  | ori (rd : RegNo) (imm : Imm20)
  /-- `xor rd, rs, imm`: code 21, format RR (42_constant_shift_logic_move.md R149). -/
  | xor (rd rs : RegNo) (imm : Imm16)
  /-- `xori rd, imm`: code 22, format RI (42_constant_shift_logic_move.md R150). -/
  | xori (rd : RegNo) (imm : Imm20)
  /-- `not rd, imm`: code 23, format RI (42_constant_shift_logic_move.md R151). -/
  | not (rd : RegNo) (imm : Imm20)
  /-- `mov rd, rs, imm`: code 24, format RR (42_constant_shift_logic_move.md R152). -/
  | mov (rd rs : RegNo) (imm : Imm16)
  /-- `addd rd, rs, imm`: code 32, format RR (43_floating_point.md R163). -/
  | addd (rd rs : RegNo) (imm : Imm16)
  /-- `subd rd, rs, imm`: code 33, format RR (43_floating_point.md R164). -/
  | subd (rd rs : RegNo) (imm : Imm16)
  /-- `muld rd, rs, imm`: code 34, format RR (43_floating_point.md R165). -/
  | muld (rd rs : RegNo) (imm : Imm16)
  /-- `divd rd, rs, imm`: code 35, format RR (43_floating_point.md R166). -/
  | divd (rd rs : RegNo) (imm : Imm16)
  /-- `itod rd, rs, imm`: code 36, format RR (43_floating_point.md R167). -/
  | itod (rd rs : RegNo) (imm : Imm16)
  /-- `dtoi rd, rs, imm`: code 37, format RR (43_floating_point.md R168). -/
  | dtoi (rd rs : RegNo) (imm : Imm16)
  /-- `push rd, imm`: code 38, format RI (44_stack_and_calls.md R180). -/
  | push (rd : RegNo) (imm : Imm20)
  /-- `pop rd, imm`: code 39, format RI (44_stack_and_calls.md R181). -/
  | pop (rd : RegNo) (imm : Imm20)
  /-- `call rd, rs, imm`: code 40, format RR (44_stack_and_calls.md R182). -/
  | call (rd rs : RegNo) (imm : Imm16)
  /-- `calli addr`: code 41, format J (44_stack_and_calls.md R183). -/
  | calli (addr : Addr)
  /-- `ret addr`: code 42, format J (44_stack_and_calls.md R184). -/
  | ret (addr : Addr)
  /-- `cmp rd, rs, imm`: code 43, format RR (45_compare_and_jumps.md R201). -/
  | cmp (rd rs : RegNo) (imm : Imm16)
  /-- `cmpi rd, imm`: code 44, format RI (45_compare_and_jumps.md R202). -/
  | cmpi (rd : RegNo) (imm : Imm20)
  /-- `cmpd rd, rs, imm`: code 45, format RR (45_compare_and_jumps.md R203). -/
  | cmpd (rd rs : RegNo) (imm : Imm16)
  /-- `jmp addr`: code 46, format J (45_compare_and_jumps.md R204). -/
  | jmp (addr : Addr)
  /-- `jne addr`: code 47, format J (45_compare_and_jumps.md R205). -/
  | jne (addr : Addr)
  /-- `jeq addr`: code 48, format J (45_compare_and_jumps.md R206). -/
  | jeq (addr : Addr)
  /-- `jle addr`: code 49, format J (45_compare_and_jumps.md R207). -/
  | jle (addr : Addr)
  /-- `jl addr`: code 50, format J (45_compare_and_jumps.md R208). -/
  | jl (addr : Addr)
  /-- `jge addr`: code 51, format J (45_compare_and_jumps.md R209). -/
  | jge (addr : Addr)
  /-- `jg addr`: code 52, format J (45_compare_and_jumps.md R210). -/
  | jg (addr : Addr)
  /-- `load rd, addr`: code 64, format RM (46_load_store.md R221). -/
  | load (rd : RegNo) (addr : Addr)
  /-- `store rd, addr`: code 65, format RM (46_load_store.md R222). -/
  | store (rd : RegNo) (addr : Addr)
  /-- `load2 rd, addr`: code 66, format RM (46_load_store.md R223). -/
  | load2 (rd : RegNo) (addr : Addr)
  /-- `store2 rd, addr`: code 67, format RM (46_load_store.md R224). -/
  | store2 (rd : RegNo) (addr : Addr)
  /-- `loadr rd, rs, imm`: code 68, format RR (46_load_store.md R225). -/
  | loadr (rd rs : RegNo) (imm : Imm16)
  /-- `storer rd, rs, imm`: code 69, format RR (46_load_store.md R226). -/
  | storer (rd rs : RegNo) (imm : Imm16)
  /-- `loadr2 rd, rs, imm`: code 70, format RR (46_load_store.md R227). -/
  | loadr2 (rd rs : RegNo) (imm : Imm16)
  /-- `storer2 rd, rs, imm`: code 71, format RR (46_load_store.md R228). -/
  | storer2 (rd rs : RegNo) (imm : Imm16)
  deriving DecidableEq, Repr

end Sys2Proof
end

