-- ==== Sys2Proof/WellFormed.lean ====
section
/-! DEFINITION. Which commands the spec gives a meaning to: 10_state.md R23 refuses a command whose `rd` field (or,
in format RR, `rs` field) is 15, or which uses the pair starting at r14; fields a command ignores are not looked at
(30_encoding.md R70). Every other field value is legal (R71). -/

namespace Sys2Proof

/-- The field names one of r0 to r14 (R23). -/
def RegNo.usable (i : RegNo) : Bool := decide (i.toNat < Config.nusable)

/-- The field starts a pair within r0 to r14 (R21, R23). -/
def RegNo.pairUsable (i : RegNo) : Bool := decide (i.toNat < Config.npairs)

/-- The check of R23 on the register field of `syscall`: EXIT ignores it (R70), SCANDOUBLE and PRINTDOUBLE use the
pair (R104, R106), every other code, known or not, uses the register (R101, R109). -/
def syscallRegOk (rd : RegNo) (imm : Imm20) : Bool :=
  match imm.toNat with
  | 0 => true
  | 101 => rd.pairUsable
  | 103 => rd.pairUsable
  | _ => rd.usable

/-- The command uses no register number 15 and no pair starting at r14 (R23). -/
def Instr.wellFormed : Instr → Bool
  | .halt _ _ => true
  | .syscall rd imm => syscallRegOk rd imm
  | .add rd rs _ => rd.usable && rs.usable
  | .addi rd _ => rd.usable
  | .sub rd rs _ => rd.usable && rs.usable
  | .subi rd _ => rd.usable
  | .mul rd rs _ => rd.pairUsable && rs.usable
  | .muli rd _ => rd.pairUsable
  | .div rd rs _ => rd.pairUsable && rs.usable
  | .divi rd _ => rd.pairUsable
  | .lc rd _ => rd.usable
  | .shl rd rs _ => rd.usable && rs.usable
  | .shli rd _ => rd.usable
  | .shr rd rs _ => rd.usable && rs.usable
  | .shri rd _ => rd.usable
  | .and rd rs _ => rd.usable && rs.usable
  | .andi rd _ => rd.usable
  | .or rd rs _ => rd.usable && rs.usable
  | .ori rd _ => rd.usable
  | .xor rd rs _ => rd.usable && rs.usable
  | .xori rd _ => rd.usable
  | .not rd _ => rd.usable
  | .mov rd rs _ => rd.usable && rs.usable
  | .addd rd rs _ => rd.pairUsable && rs.pairUsable
  | .subd rd rs _ => rd.pairUsable && rs.pairUsable
  | .muld rd rs _ => rd.pairUsable && rs.pairUsable
  | .divd rd rs _ => rd.pairUsable && rs.pairUsable
  | .itod rd rs _ => rd.pairUsable && rs.usable
  | .dtoi rd rs _ => rd.usable && rs.pairUsable
  | .push rd _ => rd.usable
  | .pop rd _ => rd.usable
  | .call rd rs _ => rd.usable && rs.usable
  | .calli _ => true
  | .ret _ => true
  | .cmp rd rs _ => rd.usable && rs.usable
  | .cmpi rd _ => rd.usable
  | .cmpd rd rs _ => rd.pairUsable && rs.pairUsable
  | .jmp _ => true
  | .jne _ => true
  | .jeq _ => true
  | .jle _ => true
  | .jl _ => true
  | .jge _ => true
  | .jg _ => true
  | .load rd _ => rd.usable
  | .store rd _ => rd.usable
  | .load2 rd _ => rd.pairUsable
  | .store2 rd _ => rd.pairUsable
  | .loadr rd rs _ => rd.usable && rs.usable
  | .storer rd rs _ => rd.usable && rs.usable
  | .loadr2 rd rs _ => rd.pairUsable && rs.usable
  | .storer2 rd rs _ => rd.pairUsable && rs.usable

end Sys2Proof
end

