-- ==== Sys2Proof/Decode.lean ====
section
/-! DEFINITION. Reading a command from an instruction word, and writing one (30_encoding.md R61 to R69, R83): bits
31:24 are the code, bits 23:20 the first register; RR has the second register in 19:16 and the immediate in 15:0; RI,
RM and J have a 20-bit field in 19:0. Only the code selects the command (R68, R72). -/

namespace Sys2Proof

/-- Why a word is no command. -/
inductive DecodeError where
  /-- Bits 31:24 hold a code that the opcode map does not assign (R69). Raised by `decode`; the step turns it into
  the runtime error IllegalInstruction (R247). -/
  | unassignedCode (code : BitVec 8)
  deriving DecidableEq, Repr

/-- Bits 31:24: the code (R61). -/
def codeField (w : Word) : BitVec 8 := w.extractLsb' 24 8

/-- Bits 23:20: the first register (R61). -/
def rdField (w : Word) : RegNo := w.extractLsb' 20 Config.regBits

/-- Bits 19:16: the second register of format RR (R63). -/
def rsField (w : Word) : RegNo := w.extractLsb' 16 Config.regBits

/-- Bits 15:0: the immediate of format RR (R63). -/
def imm16Field (w : Word) : Imm16 := w.extractLsb' 0 Config.immRRBits

/-- Bits 19:0: the immediate of format RI (R62). -/
def imm20Field (w : Word) : Imm20 := w.extractLsb' 0 Config.immRIBits

/-- Bits 19:0: the address of formats RM and J (R64, R65). -/
def addrField (w : Word) : Addr := w.extractLsb' 0 Config.addrBits

/-- The command in a word (R60, R68, R69). It rejects by name exactly the words whose code is unassigned. -/
def decode (w : Word) : Except DecodeError Instr :=
  match (codeField w).toNat with
  | 0 => .ok (.halt (rdField w) (imm20Field w))
  | 1 => .ok (.syscall (rdField w) (imm20Field w))
  | 2 => .ok (.add (rdField w) (rsField w) (imm16Field w))
  | 3 => .ok (.addi (rdField w) (imm20Field w))
  | 4 => .ok (.sub (rdField w) (rsField w) (imm16Field w))
  | 5 => .ok (.subi (rdField w) (imm20Field w))
  | 6 => .ok (.mul (rdField w) (rsField w) (imm16Field w))
  | 7 => .ok (.muli (rdField w) (imm20Field w))
  | 8 => .ok (.div (rdField w) (rsField w) (imm16Field w))
  | 9 => .ok (.divi (rdField w) (imm20Field w))
  | 12 => .ok (.lc (rdField w) (imm20Field w))
  | 13 => .ok (.shl (rdField w) (rsField w) (imm16Field w))
  | 14 => .ok (.shli (rdField w) (imm20Field w))
  | 15 => .ok (.shr (rdField w) (rsField w) (imm16Field w))
  | 16 => .ok (.shri (rdField w) (imm20Field w))
  | 17 => .ok (.and (rdField w) (rsField w) (imm16Field w))
  | 18 => .ok (.andi (rdField w) (imm20Field w))
  | 19 => .ok (.or (rdField w) (rsField w) (imm16Field w))
  | 20 => .ok (.ori (rdField w) (imm20Field w))
  | 21 => .ok (.xor (rdField w) (rsField w) (imm16Field w))
  | 22 => .ok (.xori (rdField w) (imm20Field w))
  | 23 => .ok (.not (rdField w) (imm20Field w))
  | 24 => .ok (.mov (rdField w) (rsField w) (imm16Field w))
  | 32 => .ok (.addd (rdField w) (rsField w) (imm16Field w))
  | 33 => .ok (.subd (rdField w) (rsField w) (imm16Field w))
  | 34 => .ok (.muld (rdField w) (rsField w) (imm16Field w))
  | 35 => .ok (.divd (rdField w) (rsField w) (imm16Field w))
  | 36 => .ok (.itod (rdField w) (rsField w) (imm16Field w))
  | 37 => .ok (.dtoi (rdField w) (rsField w) (imm16Field w))
  | 38 => .ok (.push (rdField w) (imm20Field w))
  | 39 => .ok (.pop (rdField w) (imm20Field w))
  | 40 => .ok (.call (rdField w) (rsField w) (imm16Field w))
  | 41 => .ok (.calli (addrField w))
  | 42 => .ok (.ret (addrField w))
  | 43 => .ok (.cmp (rdField w) (rsField w) (imm16Field w))
  | 44 => .ok (.cmpi (rdField w) (imm20Field w))
  | 45 => .ok (.cmpd (rdField w) (rsField w) (imm16Field w))
  | 46 => .ok (.jmp (addrField w))
  | 47 => .ok (.jne (addrField w))
  | 48 => .ok (.jeq (addrField w))
  | 49 => .ok (.jle (addrField w))
  | 50 => .ok (.jl (addrField w))
  | 51 => .ok (.jge (addrField w))
  | 52 => .ok (.jg (addrField w))
  | 64 => .ok (.load (rdField w) (addrField w))
  | 65 => .ok (.store (rdField w) (addrField w))
  | 66 => .ok (.load2 (rdField w) (addrField w))
  | 67 => .ok (.store2 (rdField w) (addrField w))
  | 68 => .ok (.loadr (rdField w) (rsField w) (imm16Field w))
  | 69 => .ok (.storer (rdField w) (rsField w) (imm16Field w))
  | 70 => .ok (.loadr2 (rdField w) (rsField w) (imm16Field w))
  | 71 => .ok (.storer2 (rdField w) (rsField w) (imm16Field w))
  | _ => .error (.unassignedCode (codeField w))

/-- The word of a command of format RI (R62, R83). -/
def encodeRI (code : BitVec 8) (rd : RegNo) (imm : Imm20) : Word := code ++ rd ++ imm

/-- The word of a command of format RM (R64, R83). -/
def encodeRM (code : BitVec 8) (rd : RegNo) (addr : Addr) : Word := code ++ rd ++ addr

/-- The word of a command of format RR (R63, R83). -/
def encodeRR (code : BitVec 8) (rd rs : RegNo) (imm : Imm16) : Word := code ++ rd ++ rs ++ imm

/-- The word of a command of format J: an assembler writes 0 in bits 23:20 (R65, R70, R83). -/
def encodeJ (code : BitVec 8) (addr : Addr) : Word := code ++ 0#4 ++ addr

/-- The word an assembler writes for a command (R83, codes of R68). -/
def encode : Instr → Word
  | .halt rd imm => encodeRI 0#8 rd imm
  | .syscall rd imm => encodeRI 1#8 rd imm
  | .add rd rs imm => encodeRR 2#8 rd rs imm
  | .addi rd imm => encodeRI 3#8 rd imm
  | .sub rd rs imm => encodeRR 4#8 rd rs imm
  | .subi rd imm => encodeRI 5#8 rd imm
  | .mul rd rs imm => encodeRR 6#8 rd rs imm
  | .muli rd imm => encodeRI 7#8 rd imm
  | .div rd rs imm => encodeRR 8#8 rd rs imm
  | .divi rd imm => encodeRI 9#8 rd imm
  | .lc rd imm => encodeRI 12#8 rd imm
  | .shl rd rs imm => encodeRR 13#8 rd rs imm
  | .shli rd imm => encodeRI 14#8 rd imm
  | .shr rd rs imm => encodeRR 15#8 rd rs imm
  | .shri rd imm => encodeRI 16#8 rd imm
  | .and rd rs imm => encodeRR 17#8 rd rs imm
  | .andi rd imm => encodeRI 18#8 rd imm
  | .or rd rs imm => encodeRR 19#8 rd rs imm
  | .ori rd imm => encodeRI 20#8 rd imm
  | .xor rd rs imm => encodeRR 21#8 rd rs imm
  | .xori rd imm => encodeRI 22#8 rd imm
  | .not rd imm => encodeRI 23#8 rd imm
  | .mov rd rs imm => encodeRR 24#8 rd rs imm
  | .addd rd rs imm => encodeRR 32#8 rd rs imm
  | .subd rd rs imm => encodeRR 33#8 rd rs imm
  | .muld rd rs imm => encodeRR 34#8 rd rs imm
  | .divd rd rs imm => encodeRR 35#8 rd rs imm
  | .itod rd rs imm => encodeRR 36#8 rd rs imm
  | .dtoi rd rs imm => encodeRR 37#8 rd rs imm
  | .push rd imm => encodeRI 38#8 rd imm
  | .pop rd imm => encodeRI 39#8 rd imm
  | .call rd rs imm => encodeRR 40#8 rd rs imm
  | .calli addr => encodeJ 41#8 addr
  | .ret addr => encodeJ 42#8 addr
  | .cmp rd rs imm => encodeRR 43#8 rd rs imm
  | .cmpi rd imm => encodeRI 44#8 rd imm
  | .cmpd rd rs imm => encodeRR 45#8 rd rs imm
  | .jmp addr => encodeJ 46#8 addr
  | .jne addr => encodeJ 47#8 addr
  | .jeq addr => encodeJ 48#8 addr
  | .jle addr => encodeJ 49#8 addr
  | .jl addr => encodeJ 50#8 addr
  | .jge addr => encodeJ 51#8 addr
  | .jg addr => encodeJ 52#8 addr
  | .load rd addr => encodeRM 64#8 rd addr
  | .store rd addr => encodeRM 65#8 rd addr
  | .load2 rd addr => encodeRM 66#8 rd addr
  | .store2 rd addr => encodeRM 67#8 rd addr
  | .loadr rd rs imm => encodeRR 68#8 rd rs imm
  | .storer rd rs imm => encodeRR 69#8 rd rs imm
  | .loadr2 rd rs imm => encodeRR 70#8 rd rs imm
  | .storer2 rd rs imm => encodeRR 71#8 rd rs imm

/-- The command that the decoder reads from the table's numbering of an instruction's bits: bit 0 is the least
significant bit of the one word a command has (R61), and bits from `nbits` up are 0. -/
def decodeTableWord (nbits w : Nat) : Option Instr :=
  match decode (BitVec.ofNat Config.xlen (w % 2 ^ nbits)) with
  | .ok i => some i
  | .error _ => none

end Sys2Proof
end

