-- ==== Sys2Proof/Machine/State.lean ====
section
/-! DEFINITION. The whole state of the machine, "and nothing else" (10_state.md, head): the general registers, `pc`,
`flags`, memory, `status`, the host's input and the output trace, and the one field of the model's own that indexes
the free NaN patterns. With it, why a step stops, and the state at launch (R34). -/

namespace Sys2Proof.Machine

/-- The seven runtime errors (60_exceptions.md R240). An error is no `Fault` of a step: its entry (R250) is a next
state whose status is `Status.error kind`. -/
inductive ErrorKind where
  /-- The quotient of `div` or `divi` does not fit the receiver register (R241). -/
  | quotientOverflow
  /-- The floor `dtoi` computes does not fit a register, or does not exist (R242). -/
  | conversionOverflow
  /-- PUTCHAR of a register above 255 (R243). -/
  | charOutOfRange
  /-- A cell address of a fetch, a data access or a stack access is `MEM_WORDS` or more (R244). -/
  | addressOutOfRange
  /-- A system-call code that Table 3 does not list (R245). -/
  | unknownSyscall
  /-- The divisor of `div` or `divi` is 0 (R246). -/
  | divisionByZero
  /-- The fetched word has an unassigned code (R247). -/
  | illegalInstruction
  deriving DecidableEq, Repr

/-- Why the spec gives a situation no meaning (R259). -/
inductive RefuseReason where
  /-- The command uses register number 15 or the pair starting at r14 (R23). -/
  | reg15
  /-- An input system call that the host cannot answer (R110). -/
  | hostInput
  /-- PUTCHAR of a word with bit 31 set under the alternative `INT_SIGNED` = true, which R108 says such a model refuses.
  DESIGN CHOICE: the name is the model's, R259 listing only the other two (log 28). Never answered with the configured
  `Config.intSigned` = false. -/
  | negativeChar
  deriving DecidableEq, Repr

/-- `status` (10_state.md R33). Only a `running` machine takes a step. -/
inductive Status where
  /-- The machine steps. -/
  | running
  /-- After `halt` (R100). -/
  | halted
  /-- After the EXIT system call (R102). -/
  | exited
  /-- After a runtime error (R250, R251). -/
  | error (kind : ErrorKind)
  /-- Where the spec gives no meaning (R259). A step that is refused has no next state; `settle` (Safety.lean) gives
  the state the run is left in, which has this status. -/
  | refused (reason : RefuseReason)
  deriving DecidableEq, Repr

/-- An event of `out_trace` (10_state.md R32). -/
inductive OutEvent where
  /-- PRINTINT (R105). -/
  | int (w : Word)
  /-- PRINTDOUBLE (R106). -/
  | double (d : DWord)
  /-- PUTCHAR, a value of 0 to 255 (R108). -/
  | char (c : BitVec 8)
  deriving DecidableEq, Repr

/-- One answer of the host to an input call: a value of some kind, or "none" (40_system.md R110). -/
inductive HostAnswer where
  /-- An integer for SCANINT: any word (R103). -/
  | int (w : Word)
  /-- A floating-point value for SCANDOUBLE: any 64-bit pattern (R104). -/
  | double (d : DWord)
  /-- A character for GETCHAR: 0 to 255 (R107). -/
  | char (c : BitVec 8)
  /-- No input available, or input that is not of the required kind (R110). -/
  | noValue
  deriving DecidableEq, Repr

/-- Memory (R30, R40): the cells that something has written or loaded, as pairs of cell address and word. An unlisted
cell holds its launch value (`Memory.unlisted`). `Memory.wf` is the canonical form. -/
abbrev Memory := List (Nat × Word)

/-- The machine's state (10_state.md R20 to R34). -/
@[ext]
structure State where
  /-- r0 to r14 (R20); r14 is the stack pointer (R22). -/
  regs : Vector Word Config.nusable
  /-- The address of the command being executed (R24). -/
  pc : Word
  /-- The six bits of `flags` (R27). -/
  flags : BitVec 6
  /-- The one address space (R30). -/
  mem : Memory
  /-- Whether the machine runs, and how it ended (R33). -/
  status : Status
  /-- `host_in`: the answers the host will give, the next one first (R31). -/
  hostIn : List HostAnswer
  /-- `out_trace`: the events so far, in program order (R32). -/
  outTrace : List OutEvent
  /-- The model's own: how many NaN patterns have been drawn (R162, log 9). -/
  nanDraws : Nat
  deriving DecidableEq, Repr

/-- Why a step answers no state. -/
inductive Fault where
  /-- Raised by the step, of a machine whose status is not `Running`: no further step is taken (R33, R251). SAFE: the
  run has ended, and nothing is proved past its end. -/
  | notRunning
  deriving DecidableEq, Repr

/-- Why a step has no meaning. -/
inductive Refusal where
  /-- Raised by `exec` for an instruction whose meaning is not written. SAFE. No arm of `exec` answers it. -/
  | notModelled (mnemonic : String)
  /-- Raised by the meanings where the spec itself says `refuse(reason)` (R10, R259): register number 15 (R23), an
  input call the host does not answer (R110) and, under `INT_SIGNED` = true only, PUTCHAR of a negative word (R108). SAFE: nothing can be proved past it. -/
  | refuse (reason : RefuseReason)
  deriving DecidableEq, Repr

/-- The outcome of a step or of a command. -/
abbrev Result := Host.Outcome State Fault Refusal

/-- The state at launch of a machine that nothing has been loaded into (R34, R272): r14 = `MEM_WORDS` - 1, status
Running and an empty trace are the spec's. DESIGN CHOICE, UNSAFE: r0 to r13 and `flags` are 0 where the spec gives no
value (logs 3 and 4), `pc` is the model's `ENTRY` (log 5), the host has no answer waiting (log 8). -/
def State.reset : State where
  regs := #v[0, 0, 0, 0, 0, 0, 0, 0, 0, 0, 0, 0, 0, 0, BitVec.ofNat Config.xlen (Config.memWords - 1)]
  pc := Config.entry
  flags := 0
  mem := []
  status := .running
  hostIn := []
  outTrace := []
  nanDraws := 0

end Sys2Proof.Machine
end

