-- ==== Sys2Proof/Machine/Ops.lean ====
section
/-! DEFINITION. The named operations over registers, memory, control and the host (00_scope.md R7 to R10), each of
them once: the meanings are written over them. Entering a runtime error is `State.raise` (60_exceptions.md R250);
there is no return from one (R252). -/

namespace Sys2Proof.Machine

/-! ### Field updates -/

def State.setRegs (s : State) (v : Vector Word Config.nusable) : State := { s with regs := v }
def State.setPc (s : State) (v : Word) : State := { s with pc := v }
def State.setFlags (s : State) (v : BitVec 6) : State := { s with flags := v }
def State.setMem (s : State) (v : Memory) : State := { s with mem := v }
def State.setStatus (s : State) (v : Status) : State := { s with status := v }
def State.setHostIn (s : State) (v : List HostAnswer) : State := { s with hostIn := v }
def State.setOutTrace (s : State) (v : List OutEvent) : State := { s with outTrace := v }
def State.setNanDraws (s : State) (v : Nat) : State := { s with nanDraws := v }

/-! ### Control (R10) -/

/-- The address of the command following the current one (R25; it wraps modulo 2^32, decision D5). -/
def State.nextPc (s : State) : Word := s.pc + BitVec.ofNat Config.xlen Config.ilen

/-- `pc <- pc + 1` (R25). -/
def State.advance (s : State) : State := s.setPc s.nextPc

/-- `raise Error(kind)` (R10, R250): the command has no effect at all; only the status changes. -/
def State.raise (s : State) (kind : ErrorKind) : Result := .next (s.setStatus (.error kind))

/-- `stop(status)` (R10): `halt` and EXIT leave everything else as it was (R100, R102). -/
def State.stop (s : State) (st : Status) : Result := .next (s.setStatus st)

/-- `refuse(reason)` (R10, R259): no meaning is given, so there is no next state. -/
def refuse (reason : RefuseReason) : Result := .refused (.refuse reason)

/-! ### Registers (R7) -/

/-- The stack pointer, r14 (R22). -/
def sp : Reg := ⟨Config.sp, by decide⟩

/-- The number an instruction encodes a register by. -/
def regNo (r : Reg) : RegNo := BitVec.ofNat Config.regBits r.val

/-- The number an instruction encodes a pair by: that of its first register (R21). -/
def pairNo (p : PairReg) : RegNo := BitVec.ofNat Config.regBits p.val

/-- The register of a pair that holds bits 31:0 (R21). -/
def pairLo (p : PairReg) : Reg := p.castSucc

/-- The next register, which holds bits 63:32 of a pair (R21). -/
def pairHi (p : PairReg) : Reg := p.succ

/-- The register of a field, none for number 15 (R7, R23). -/
def reg? (i : RegNo) : Option Reg := if h : i.toNat < Config.nusable then some ⟨i.toNat, h⟩ else none

/-- The pair starting at the register of a field, none for 14 and 15 (R7, R23). -/
def pair? (i : RegNo) : Option PairReg := if h : i.toNat < Config.npairs then some ⟨i.toNat, h⟩ else none

/-- Go on with the register of a field, or `refuse(Reg15)` (R23, R60). -/
def withReg (i : RegNo) (k : Reg → Result) : Result :=
  match reg? i with
  | some r => k r
  | none => refuse .reg15

/-- Go on with the pair at the register of a field, or `refuse(Reg15)` (R23, R60). -/
def withPair (i : RegNo) (k : PairReg → Result) : Result :=
  match pair? i with
  | some p => k p
  | none => refuse .reg15

/-- `x[r]` (R7). -/
def State.reg (s : State) (r : Reg) : Word := s.regs[r.val]

/-- `x[r] <- v` (R7). -/
def State.setReg (s : State) (r : Reg) (v : Word) : State := s.setRegs (s.regs.set r.val v r.isLt)

/-- Bits 31:0 of a double word. -/
def lowWord (d : DWord) : Word := d.extractLsb' 0 Config.xlen

/-- Bits 63:32 of a double word. -/
def highWord (d : DWord) : Word := d.extractLsb' Config.xlen Config.xlen

/-- `X2[p] = x[p+1] ∥ x[p]` (R7). -/
def State.pair (s : State) (p : PairReg) : DWord := s.reg (pairHi p) ++ s.reg (pairLo p)

/-- `X2[p] <- d` (R7): the low word to the named register, the high word to the next. -/
def State.setPair (s : State) (p : PairReg) (d : DWord) : State :=
  (s.setReg (pairLo p) (lowWord d)).setReg (pairHi p) (highWord d)

/-! ### Memory (R9, R30, R40 to R55) -/

/-- The listed word of a cell. -/
def Memory.lookup : Memory → Nat → Option Word
  | [], _ => none
  | (b, w) :: m, a => if a = b then some w else Memory.lookup m a

/-- List a word for a cell, in place of the one listed before. -/
def Memory.insert : Memory → Nat → Word → Memory
  | [], a, v => [(a, v)]
  | (b, w) :: m, a, v =>
    if a < b then (a, v) :: (b, w) :: m
    else if a = b then (a, v) :: m
    else (b, w) :: Memory.insert m a v

/-- What a cell that nothing has written reads as: its launch value, which no rule gives (R34, R274; log 6). -/
def Memory.unlisted (a : Nat) : Word := Config.launchCell a

/-- The word in a cell: the last one written, or the launch value (R45, R50). -/
def Memory.read (m : Memory) (a : Nat) : Word := (m.lookup a).getD (Memory.unlisted a)

/-- The canonical form: addresses strictly rising, every one inside the address space. No listed word is what an
unlisted cell is known to read as, since that is a free value: a list is determined by what has been written (log 6). -/
abbrev Memory.wf (m : Memory) : Prop :=
  m.Pairwise (fun c d => c.1 < d.1) ∧ ∀ c ∈ m, c.1 < Config.memWords

/-- `cell[a]` (R9). -/
def State.cell (s : State) (a : Nat) : Word := s.mem.read a

/-- Write one cell (R9), at an address that has been checked. -/
def State.setCell (s : State) (a : Nat) (v : Word) : State := s.setMem (s.mem.insert a v)

/-- The cells `a` to `a + n - 1` are inside the address space; `a + n - 1` is an integer, not wrapped (R9, R55). -/
def inRange (a : Word) (n : Nat) : Bool := decide (a.toNat + n ≤ Config.memWords)

/-- `MemRead(a, 1)` (R9, R55). -/
def State.withRead1 (s : State) (a : Word) (k : Word → Result) : Result :=
  if inRange a 1 then k (s.cell a.toNat) else s.raise .addressOutOfRange

/-- `MemRead(a, 2)` (R9, R42, R55): the lower address holds the low word. -/
def State.withRead2 (s : State) (a : Word) (k : DWord → Result) : Result :=
  if inRange a 2 then k (s.cell (a.toNat + 1) ++ s.cell a.toNat) else s.raise .addressOutOfRange

/-- `MemWrite(a, 1, v)` (R9, R55). -/
def State.withWrite1 (s : State) (a : Word) (v : Word) (k : State → Result) : Result :=
  if inRange a 1 then k (s.setCell a.toNat v) else s.raise .addressOutOfRange

/-- `MemWrite(a, 2, d)` (R9, R42, R45, R55): the low cell first, then the high cell; all or nothing. -/
def State.withWrite2 (s : State) (a : Word) (d : DWord) (k : State → Result) : Result :=
  if inRange a 2 then k ((s.setCell a.toNat (lowWord d)).setCell (a.toNat + 1) (highWord d))
  else s.raise .addressOutOfRange

/-! ### The stack (R22, 44_stack_and_calls.md) -/

/-- Store a word at the address in r14, then decrement r14 (R180, R182, R183). -/
def State.withPush (s : State) (v : Word) (k : State → Result) : Result :=
  s.withWrite1 (s.reg sp) v fun t => k (t.setReg sp (s.reg sp - 1))

/-- Eject `n` words and step onto the next one: r14 becomes r14 + n + 1, and the word there is popped (R181 with
`n` = 0, R184). -/
def State.withPop (s : State) (n : Word) (k : Word → State → Result) : Result :=
  s.withRead1 (s.reg sp + n + 1) fun v => k v (s.setReg sp (s.reg sp + n + 1))

/-! ### The host (40_system.md R110) -/

/-- `emit(e)` (R10, R32). -/
def State.emit (s : State) (e : OutEvent) : State := s.setOutTrace (s.outTrace ++ [e])

/-- Take the host's next answer, if it is a value of the kind that `pick` accepts; else `refuse(HostInput)`, with
nothing taken (R110, R259). -/
def State.withInput {α : Type} (s : State) (pick : HostAnswer → Option α) (k : α → State → Result) : Result :=
  match s.hostIn with
  | [] => refuse .hostInput
  | answer :: rest =>
    match pick answer with
    | some v => k v (s.setHostIn rest)
    | none => refuse .hostInput

/-- The answer as an integer (R103). -/
def HostAnswer.asInt : HostAnswer → Option Word
  | .int w => some w
  | .double _ => none
  | .char _ => none
  | .noValue => none

/-- The answer as a floating-point value (R104). -/
def HostAnswer.asDouble : HostAnswer → Option DWord
  | .int _ => none
  | .double d => some d
  | .char _ => none
  | .noValue => none

/-- The answer as a character (R107). -/
def HostAnswer.asChar : HostAnswer → Option (BitVec 8)
  | .int _ => none
  | .double _ => none
  | .char c => some c
  | .noValue => none

end Sys2Proof.Machine
end

