-- ==== Sys2Proof/Machine/Operands.lean ====
section
/-! DEFINITION. The operand forms of the four formats: the immediate and the address as words (30_encoding.md R66, R67),
the modified source value (00_scope.md R8), the floating-point source operand (43_floating_point.md R161), the reading
of a word as an integer (R5, R6), and the code of a system call (R101). -/

namespace Sys2Proof.Machine

/-- An immediate field as a word: `zext_32`, or `sext_32` where immediates are signed (R66). -/
def extendImm {n : Nat} (isSigned : Bool) (imm : BitVec n) : Word :=
  if isSigned then imm.signExtend Config.xlen else imm.setWidth Config.xlen

/-- `W(imm)`, with the configured reading of immediates (R66). -/
def immWord {n : Nat} (imm : BitVec n) : Word := extendImm Config.immSigned imm

/-- `W(addr)`: always unsigned (R67). -/
def addrWord (addr : Addr) : Word := addr.setWidth Config.xlen

/-- `srcval(rs, imm) = W(U(x[rs]) + imm)` (R8). -/
def State.srcval (s : State) (rs : Reg) (imm : Imm16) : Word := s.reg rs + immWord imm

/-- The floating-point source operand `x[rs+1] ∥ W(U(x[rs]) + imm)`: no carry into the high word (R161). -/
def State.fpSource (s : State) (p : PairReg) (imm : Imm16) : DWord :=
  s.reg (pairHi p) ++ s.srcval (pairLo p) imm

/-- A word as an integer: `S(w)` or `U(w)` (R6). -/
def intOfWord (isSigned : Bool) (w : Word) : Int := if isSigned then w.toInt else (w.toNat : Int)

/-- A double word as an integer: `S64(d)` or `U64(d)` (R6). -/
def intOfDWord (isSigned : Bool) (d : DWord) : Int := if isSigned then d.toInt else (d.toNat : Int)

/-- The integer fits a register under the reading (R127, R168). -/
def fitsWord (isSigned : Bool) (k : Int) : Bool :=
  if isSigned then decide (-2147483648 ≤ k ∧ k ≤ 2147483647) else decide (0 ≤ k ∧ k ≤ 4294967295)

/-- The services of `syscall` (R101). -/
inductive Service where
  | exit
  | scanInt
  | scanDouble
  | printInt
  | printDouble
  | getChar
  | putChar
  | unknown
  deriving DecidableEq, Repr

/-- The service a call code selects (R101; every code is below 2^19, so the reading of immediates does not matter). -/
def serviceOf (imm : Imm20) : Service :=
  match imm.toNat with
  | 0 => .exit
  | 100 => .scanInt
  | 101 => .scanDouble
  | 102 => .printInt
  | 103 => .printDouble
  | 104 => .getChar
  | 105 => .putChar
  | _ => .unknown

end Sys2Proof.Machine
end

