-- ==== Sys2Proof/Machine/Flags.lean ====
section
/-! DEFINITION. The `flags` register: what a comparison sets (10_state.md R27, 45_compare_and_jumps.md R200), and the
bit each conditional jump tests. No other command reads or writes it. -/

namespace Sys2Proof.Machine

/-- The six bits by the outcome of a comparison, bit 5 first (the table of R200). -/
def flagsOf : Cmp → BitVec 6
  | .equal => 0b110001#6
  | .greater => 0b010110#6
  | .less => 0b101010#6
  | .unordered => 0b000010#6

/-- The outcome of comparing two integers (R200): the first is the receiver's. -/
def compareInt (a b : Int) : Cmp :=
  if a = b then .equal else if b < a then .greater else .less

/-- The outcome of comparing two words under the configured reading of integers (R201). -/
def compareWord (isSigned : Bool) (a b : Word) : Cmp :=
  compareInt (intOfWord isSigned a) (intOfWord isSigned b)

/-- What a conditional jump tests (R27). -/
inductive Cond where
  | equal
  | notEqual
  | greater
  | less
  | greaterEqual
  | lessEqual
  deriving DecidableEq, Repr

/-- The bit of `flags` that holds a condition (R27). -/
def Cond.bit : Cond → Nat
  | .equal => 0
  | .notEqual => 1
  | .greater => 2
  | .less => 3
  | .greaterEqual => 4
  | .lessEqual => 5

/-- The flags register contains the condition (R205 to R210). -/
def State.holds (s : State) (c : Cond) : Bool := s.flags.getLsbD c.bit

end Sys2Proof.Machine
end

