-- ==== Sys2Proof/Machine/Ieee.lean ====
section
/-! DEFINITION. The spec's instance of the record `FP` (43_floating_point.md R162, R169): IEEE 754 binary64, rounding to
nearest with ties to even, no traps. Every operation computes the exact value and rounds it once. The format is the
source's (R160); the arithmetic is decision D15 of the spec, from general knowledge (log 10). -/

namespace Sys2Proof.Machine.Ieee

/-- What a pattern stands for (R160, R169). `finite neg m k` has the value `(-1)^neg * m * 2^k`, zeros included. -/
inductive Value where
  | nan
  | inf (neg : Bool)
  | finite (neg : Bool) (m : Nat) (k : Int)
  deriving DecidableEq, Repr

/-- Bit 63: the sign (R160). -/
def signField (d : DWord) : Bool := d.getLsbD 63

/-- Bits 62:52: the exponent incremented by 1023 (R160). -/
def exponentField (d : DWord) : Nat := (d.extractLsb' 52 11).toNat

/-- Bits 51:0: the fractional part of the mantissa (R160). -/
def fractionField (d : DWord) : Nat := (d.extractLsb' 0 52).toNat

/-- The value of a pattern: normal numbers by R160, zeros, subnormals, infinities and NaNs by R169. -/
def valueOf (d : DWord) : Value :=
  if exponentField d = 2047 then
    if fractionField d = 0 then .inf (signField d) else .nan
  else if exponentField d = 0 then .finite (signField d) (fractionField d) (-1074)
  else .finite (signField d) (4503599627370496 + fractionField d) ((exponentField d : Int) - 1075)

/-- The pattern with a sign and the 63 bits below it. -/
def pack (neg : Bool) (body : Nat) : DWord := BitVec.ofBool neg ++ BitVec.ofNat 63 body

/-- +0 or -0 (R169). -/
def zero (neg : Bool) : DWord := pack neg 0

/-- An infinity: exponent field 2047, fraction 0 (R169). -/
def infinity (neg : Bool) : DWord := pack neg (2047 <<< 52)

/-- `m / 2^n` rounded to the nearest integer, ties to even (R162). -/
def roundShift (m n : Nat) : Nat :=
  let q := m >>> n
  let rest := m - (q <<< n)
  if (1 <<< n) < 2 * rest then q + 1
  else if 2 * rest = (1 <<< n) ∧ q % 2 = 1 then q + 1
  else q

/-- The exponent of the last place that `m * 2^k` is rounded to: 53 significant bits, and never below -1074, where
the subnormals end (R160, R169). -/
def lastPlace (m : Nat) (k : Int) : Int := max (k + (m.log2 : Int) - 52) (-1074)

/-- `m * 2^k` in units of `2^q`, rounded to nearest even. -/
def mantissaAt (m : Nat) (k q : Int) : Nat :=
  if q ≤ k then m <<< (k - q).toNat else roundShift m (q - k).toNat

/-- The 63 bits below the sign for a mantissa of at most 2^53 in units of `2^q`. A mantissa of 2^52 or more is normal:
its hidden bit adds one to the exponent field. -/
def bodyOf (mant : Nat) (q : Int) : Nat := ((q + 1074).toNat <<< 52) + mant

/-- The pattern nearest to `(-1)^neg * m * 2^k`; too large a result becomes an infinity, too small a one a subnormal or
zero (R162, R169). -/
def round (neg : Bool) (m : Nat) (k : Int) : DWord :=
  if m = 0 then zero neg
  else
    let q := lastPlace m k
    let body := bodyOf (mantissaAt m k q) q
    if (2047 <<< 52) ≤ body then infinity neg else pack neg body

/-- A signed integer from a sign and a magnitude. -/
def signed (neg : Bool) (m : Nat) : Int := if neg then -(m : Int) else (m : Int)

/-- The exact sum of two finite values, rounded. An exact sum of 0 is -0 only if both operands are negative. -/
def addFinite (neg₁ : Bool) (m₁ : Nat) (k₁ : Int) (neg₂ : Bool) (m₂ : Nat) (k₂ : Int) : DWord :=
  let k := min k₁ k₂
  let x := signed neg₁ (m₁ <<< (k₁ - k).toNat) + signed neg₂ (m₂ <<< (k₂ - k).toNat)
  if x = 0 then zero (neg₁ && neg₂) else round (decide (x < 0)) x.natAbs k

/-- The sum of two values; ∞ - ∞ is invalid (R169). -/
def addValue : Value → Value → FpResult
  | .nan, _ => .nan
  | .inf _, .nan => .nan
  | .inf n₁, .inf n₂ => if n₁ = n₂ then .value (infinity n₁) else .nan
  | .inf n₁, .finite _ _ _ => .value (infinity n₁)
  | .finite _ _ _, .nan => .nan
  | .finite _ _ _, .inf n₂ => .value (infinity n₂)
  | .finite n₁ m₁ k₁, .finite n₂ m₂ k₂ => .value (addFinite n₁ m₁ k₁ n₂ m₂ k₂)

/-- The value with the other sign. -/
def Value.neg : Value → Value
  | .nan => .nan
  | .inf n => .inf (!n)
  | .finite n m k => .finite (!n) m k

/-- The product of two values; 0 × ∞ is invalid (R169). -/
def mulValue : Value → Value → FpResult
  | .nan, _ => .nan
  | .inf _, .nan => .nan
  | .inf n₁, .inf n₂ => .value (infinity (n₁ ^^ n₂))
  | .inf n₁, .finite n₂ m₂ _ => if m₂ = 0 then .nan else .value (infinity (n₁ ^^ n₂))
  | .finite _ _ _, .nan => .nan
  | .finite n₁ m₁ _, .inf n₂ => if m₁ = 0 then .nan else .value (infinity (n₁ ^^ n₂))
  | .finite n₁ m₁ k₁, .finite n₂ m₂ k₂ => .value (round (n₁ ^^ n₂) (m₁ * m₂) (k₁ + k₂))

/-- How many bits the dividend is shifted up by: the integer quotient then has more than 54 significant bits. -/
def quotientBits : Nat := 110

/-- The quotient of two finite values, the divisor not 0, rounded. The last bit of the magnitude that is rounded says
whether the division left a remainder, which is all that rounding needs to know of it. -/
def divFinite (neg : Bool) (m₁ : Nat) (k₁ : Int) (m₂ : Nat) (k₂ : Int) : DWord :=
  let n := m₁ <<< quotientBits
  let sticky := if n % m₂ = 0 then 0 else 1
  round neg (2 * (n / m₂) + sticky) (k₁ - k₂ - (quotientBits : Int) - 1)

/-- The quotient of two values; 0/0 and ∞/∞ are invalid, a nonzero value divided by zero is an infinity (R166, R169). -/
def divValue : Value → Value → FpResult
  | .nan, _ => .nan
  | .inf _, .nan => .nan
  | .inf _, .inf _ => .nan
  | .inf n₁, .finite n₂ _ _ => .value (infinity (n₁ ^^ n₂))
  | .finite _ _ _, .nan => .nan
  | .finite n₁ _ _, .inf n₂ => .value (zero (n₁ ^^ n₂))
  | .finite n₁ m₁ k₁, .finite n₂ m₂ k₂ =>
    if m₂ = 0 then (if m₁ = 0 then .nan else .value (infinity (n₁ ^^ n₂)))
    else .value (divFinite (n₁ ^^ n₂) m₁ k₁ m₂ k₂)

/-- The greatest integer that is not above a finite value (R168). -/
def floorFinite (neg : Bool) (m : Nat) (k : Int) : Int :=
  if 0 ≤ k then signed neg (m <<< k.toNat) else signed neg m / ((1 <<< (-k).toNat : Nat) : Int)

/-- The order of two finite values, by value and not by pattern (R203). -/
def compareFinite (neg₁ : Bool) (m₁ : Nat) (k₁ : Int) (neg₂ : Bool) (m₂ : Nat) (k₂ : Int) : Cmp :=
  let k := min k₁ k₂
  compareInt (signed neg₁ (m₁ <<< (k₁ - k).toNat)) (signed neg₂ (m₂ <<< (k₂ - k).toNat))

/-- The order of two values; a NaN is unordered with everything (R169, R203). -/
def compareValue : Value → Value → Cmp
  | .nan, _ => .unordered
  | .inf _, .nan => .unordered
  | .inf n₁, .inf n₂ => if n₁ = n₂ then .equal else if n₁ then .less else .greater
  | .inf n₁, .finite _ _ _ => if n₁ then .less else .greater
  | .finite _ _ _, .nan => .unordered
  | .finite _ _ _, .inf n₂ => if n₂ then .greater else .less
  | .finite n₁ m₁ k₁, .finite n₂ m₂ k₂ => compareFinite n₁ m₁ k₁ n₂ m₂ k₂

/-- `FP.add` (R163). -/
def add (a b : DWord) : FpResult := addValue (valueOf a) (valueOf b)

/-- `FP.sub` (R164). -/
def sub (a b : DWord) : FpResult := addValue (valueOf a) (valueOf b).neg

/-- `FP.mul` (R165). -/
def mul (a b : DWord) : FpResult := mulValue (valueOf a) (valueOf b)

/-- `FP.div` (R166). -/
def div (a b : DWord) : FpResult := divValue (valueOf a) (valueOf b)

/-- `FP.fromInt` (R167): 0 gives +0. -/
def fromInt (k : Int) : DWord := round (decide (k < 0)) k.natAbs 0

/-- `FP.floor` (R168): none for a NaN or an infinity. -/
def floor (d : DWord) : Option Int :=
  match valueOf d with
  | .nan => none
  | .inf _ => none
  | .finite neg m k => some (floorFinite neg m k)

/-- `FP.compare` (R203). -/
def compare (a b : DWord) : Cmp := compareValue (valueOf a) (valueOf b)

end Sys2Proof.Machine.Ieee

namespace Sys2Proof.Machine

/-- The arithmetic of the model (R162): IEEE 754 binary64. -/
def fp : FpArith where
  add := Ieee.add
  sub := Ieee.sub
  mul := Ieee.mul
  div := Ieee.div
  fromInt := Ieee.fromInt
  floor := Ieee.floor
  compare := Ieee.compare

/-- The `n`-th NaN drawn: exponent field 2047 and a fraction that is not 0, nothing else being known of it (R162,
R169; log 9). -/
def nanPattern (n : Nat) : DWord :=
  Config.nanSign n ++ 2047#11 ++ (if Config.nanFraction n = 0#52 then 1#52 else Config.nanFraction n)

end Sys2Proof.Machine
end

