-- ==== Sys2Proof/Machine/Integer.lean ====
section
/-! DEFINITION. The meanings of the integer arithmetic commands (41_integer_arithmetic.md R120 to R129). All reads are of
the state before the command (R11, R120); no flag changes. The signed readings of R125 to R129 are given beside the
unsigned ones, which `Config.intSigned` selects. -/

namespace Sys2Proof.Machine

/-- `x[d] <- v ; pc <- pc + 1`: how a command with one receiver register ends. -/
def State.finishReg (s : State) (d : Reg) (v : Word) : Result := .next (s.setReg d v).advance

/-- `X2[p] <- v ; pc <- pc + 1`: how a command with a receiver pair ends. -/
def State.finishPair (s : State) (p : PairReg) (v : DWord) : Result := .next (s.setPair p v).advance

/-- The exact product of two words as a 64-bit value (R125, R129). -/
def mulWords (isSigned : Bool) (a b : Word) : DWord :=
  BitVec.ofInt 64 (intOfWord isSigned a * intOfWord isSigned b)

/-- The quotient and the remainder of a 64-bit dividend by a word, or the error (R127, R129): division by zero is
checked first (R246). Signed division rounds toward zero and the remainder has the sign of the dividend; on the
unsigned reading both numbers are not negative and this is the floor division of R127. -/
def divide (isSigned : Bool) (n : DWord) (d : Word) : Except ErrorKind (Word × Word) :=
  let num := intOfDWord isSigned n
  let den := intOfWord isSigned d
  if den = 0 then .error .divisionByZero
  else if fitsWord isSigned (num.tdiv den) then
    .ok (BitVec.ofInt Config.xlen (num.tdiv den), BitVec.ofInt Config.xlen (num.tmod den))
  else .error .quotientOverflow

/-- The division of the pair at `p` by `d`: quotient in the named register, remainder in the next (R127, R128). On an
error no register is written. -/
def State.finishDivide (s : State) (p : PairReg) (d : Word) : Result :=
  match divide Config.intSigned (s.pair p) d with
  | .ok (q, r) => .next ((s.setReg (pairLo p) q).setReg (pairHi p) r).advance
  | .error kind => s.raise kind

/-- `add` (R121): the modified source is added to the receiver, modulo 2^32. -/
def execAdd (rd rs : RegNo) (imm : Imm16) (s : State) : Result :=
  withReg rd fun d => withReg rs fun r =>
    s.finishReg d (s.reg d + s.srcval r imm)

/-- `addi` (R122): the immediate is added to the receiver, modulo 2^32. -/
def execAddi (rd : RegNo) (imm : Imm20) (s : State) : Result :=
  withReg rd fun d => s.finishReg d (s.reg d + immWord imm)

/-- `sub` (R123): the modified source is subtracted from the receiver, modulo 2^32. -/
def execSub (rd rs : RegNo) (imm : Imm16) (s : State) : Result :=
  withReg rd fun d => withReg rs fun r =>
    s.finishReg d (s.reg d - s.srcval r imm)

/-- `subi` (R124): the immediate is subtracted from the receiver, modulo 2^32. -/
def execSubi (rd : RegNo) (imm : Imm20) (s : State) : Result :=
  withReg rd fun d => s.finishReg d (s.reg d - immWord imm)

/-- `mul` (R125): the 64-bit product goes to the pair at the receiver. -/
def execMul (rd rs : RegNo) (imm : Imm16) (s : State) : Result :=
  withPair rd fun d => withReg rs fun r =>
    s.finishPair d (mulWords Config.intSigned (s.reg (pairLo d)) (s.srcval r imm))

/-- `muli` (R126): as `mul`, by the immediate. -/
def execMuli (rd : RegNo) (imm : Imm20) (s : State) : Result :=
  withPair rd fun d => s.finishPair d (mulWords Config.intSigned (s.reg (pairLo d)) (immWord imm))

/-- `div` (R127): the pair at the receiver is divided by the modified source. -/
def execDiv (rd rs : RegNo) (imm : Imm16) (s : State) : Result :=
  withPair rd fun d => withReg rs fun r =>
    s.finishDivide d (s.srcval r imm)

/-- `divi` (R128): as `div`, by the immediate. -/
def execDivi (rd : RegNo) (imm : Imm20) (s : State) : Result :=
  withPair rd fun d => s.finishDivide d (immWord imm)

end Sys2Proof.Machine
end

