-- ==== Sys2Proof/Machine/Floating.lean ====
section
/-! DEFINITION. The meanings of the floating-point commands (43_floating_point.md R163 to R168). Both pairs are read
before anything is written (R161). No arithmetic command raises an error (R162); `dtoi` has one (R168). -/

namespace Sys2Proof.Machine

/-- `X2[p] <- result ; pc <- pc + 1`. A NaN result is the next NaN pattern drawn (R162: "the result is any NaN pattern
(a draw)"), and the draw is counted. -/
def State.finishFp (s : State) (p : PairReg) (r : FpResult) : Result :=
  match r with
  | .value d => s.finishPair p d
  | .nan => (s.setNanDraws (s.nanDraws + 1)).finishPair p (nanPattern s.nanDraws)

/-- The word that `dtoi` writes for a floor under the configured reading of integers, or ConversionOverflow where the
floor does not exist or does not fit a register (R168, R242). -/
def floorWord (isSigned : Bool) (k : Option Int) : Except ErrorKind Word :=
  match k with
  | some n => if fitsWord isSigned n then .ok (BitVec.ofInt Config.xlen n) else .error .conversionOverflow
  | none => .error .conversionOverflow

/-- `x[d] <- W(k) ; pc <- pc + 1`, or the error (R168). -/
def State.finishFloor (s : State) (d : Reg) (k : Option Int) : Result :=
  match floorWord Config.intSigned k with
  | .ok w => s.finishReg d w
  | .error kind => s.raise kind

/-- `addd` (R163): receiver pair plus source pair. -/
def execAddd (rd rs : RegNo) (imm : Imm16) (s : State) : Result :=
  withPair rd fun d => withPair rs fun r =>
    s.finishFp d (fp.add (s.pair d) (s.fpSource r imm))

/-- `subd` (R164): receiver pair minus source pair. -/
def execSubd (rd rs : RegNo) (imm : Imm16) (s : State) : Result :=
  withPair rd fun d => withPair rs fun r =>
    s.finishFp d (fp.sub (s.pair d) (s.fpSource r imm))

/-- `muld` (R165): receiver pair times source pair. -/
def execMuld (rd rs : RegNo) (imm : Imm16) (s : State) : Result :=
  withPair rd fun d => withPair rs fun r =>
    s.finishFp d (fp.mul (s.pair d) (s.fpSource r imm))

/-- `divd` (R166): receiver pair divided by source pair. -/
def execDivd (rd rs : RegNo) (imm : Imm16) (s : State) : Result :=
  withPair rd fun d => withPair rs fun r =>
    s.finishFp d (fp.div (s.pair d) (s.fpSource r imm))

/-- `itod` (R167): the modified source, an integer, as a floating-point value in the receiver pair. -/
def execItod (rd rs : RegNo) (imm : Imm16) (s : State) : Result :=
  withPair rd fun d => withReg rs fun r =>
    s.finishPair d (fp.fromInt (intOfWord Config.intSigned (s.srcval r imm)))

/-- `dtoi` (R168): the floor of the source pair in the receiver register. -/
def execDtoi (rd rs : RegNo) (imm : Imm16) (s : State) : Result :=
  withReg rd fun d => withPair rs fun r =>
    s.finishFloor d (fp.floor (s.fpSource r imm))

end Sys2Proof.Machine
end

