-- ==== Sys2Proof/Machine/Jumps.lean ====
section
/-! DEFINITION. The meanings of the comparisons and the jumps (45_compare_and_jumps.md R201 to R210). -/

namespace Sys2Proof.Machine

/-- `flags <- by rule R200 ; pc <- pc + 1`. -/
def State.finishCompare (s : State) (c : Cmp) : Result := .next (s.setFlags (flagsOf c)).advance

/-- `pc <- W(addr)` if the flags register contains the condition, else `pc <- pc + 1` (R205 to R210). -/
def State.jumpIf (s : State) (c : Cond) (addr : Addr) : Result :=
  .next (s.setPc (if s.holds c then addrWord addr else s.nextPc))

/-- `cmp` (R201): the receiver is compared with the modified source; no memory is read. -/
def execCmp (rd rs : RegNo) (imm : Imm16) (s : State) : Result :=
  withReg rd fun d => withReg rs fun r =>
    s.finishCompare (compareWord Config.intSigned (s.reg d) (s.srcval r imm))

/-- `cmpi` (R202): the register is compared with the immediate. -/
def execCmpi (rd : RegNo) (imm : Imm20) (s : State) : Result :=
  withReg rd fun d => s.finishCompare (compareWord Config.intSigned (s.reg d) (immWord imm))

/-- `cmpd` (R203): the values of the two pairs are compared. -/
def execCmpd (rd rs : RegNo) (imm : Imm16) (s : State) : Result :=
  withPair rd fun d => withPair rs fun r =>
    s.finishCompare (fp.compare (s.pair d) (s.fpSource r imm))

/-- `jmp` (R204): absolute, flags not read. -/
def execJmp (addr : Addr) (s : State) : Result := .next (s.setPc (addrWord addr))

/-- `jne` (R205): tests bit 1 of `flags`. -/
def execJne (addr : Addr) (s : State) : Result := s.jumpIf .notEqual addr

/-- `jeq` (R206): tests bit 0 of `flags`. -/
def execJeq (addr : Addr) (s : State) : Result := s.jumpIf .equal addr

/-- `jle` (R207): tests bit 5 of `flags`. -/
def execJle (addr : Addr) (s : State) : Result := s.jumpIf .lessEqual addr

/-- `jl` (R208): tests bit 3 of `flags`. -/
def execJl (addr : Addr) (s : State) : Result := s.jumpIf .less addr

/-- `jge` (R209): tests bit 4 of `flags`. -/
def execJge (addr : Addr) (s : State) : Result := s.jumpIf .greaterEqual addr

/-- `jg` (R210): tests bit 2 of `flags`. -/
def execJg (addr : Addr) (s : State) : Result := s.jumpIf .greater addr

end Sys2Proof.Machine
end

