-- ==== Sys2Proof/Machine/LoadStore.lean ====
section
/-! DEFINITION. The meanings of the loads and stores (46_load_store.md R220 to R228): absolute (format RM) and register
plus immediate (format RR). The data register is always `rd`. The effective address is computed from the registers
before the command. -/

namespace Sys2Proof.Machine

/-- Read one cell into a register (R221, R225). -/
def State.loadWord (s : State) (d : Reg) (ea : Word) : Result := s.withRead1 ea fun v => s.finishReg d v

/-- Read two cells into a pair (R223, R227). -/
def State.loadPair (s : State) (p : PairReg) (ea : Word) : Result := s.withRead2 ea fun v => s.finishPair p v

/-- Write a register to one cell (R222, R226). -/
def State.storeWord (s : State) (d : Reg) (ea : Word) : Result := s.withWrite1 ea (s.reg d) fun t => .next t.advance

/-- Write a pair to two cells (R224, R228). -/
def State.storePair (s : State) (p : PairReg) (ea : Word) : Result := s.withWrite2 ea (s.pair p) fun t => .next t.advance

/-- `load` (R221): one cell to a register. -/
def execLoad (rd : RegNo) (addr : Addr) (s : State) : Result :=
  withReg rd fun d => s.loadWord d (addrWord addr)

/-- `store` (R222): a register to one cell. -/
def execStore (rd : RegNo) (addr : Addr) (s : State) : Result :=
  withReg rd fun d => s.storeWord d (addrWord addr)

/-- `load2` (R223): two cells to a pair. -/
def execLoad2 (rd : RegNo) (addr : Addr) (s : State) : Result :=
  withPair rd fun d => s.loadPair d (addrWord addr)

/-- `store2` (R224): a pair to two cells. -/
def execStore2 (rd : RegNo) (addr : Addr) (s : State) : Result :=
  withPair rd fun d => s.storePair d (addrWord addr)

/-- `loadr` (R225): as `load`, at the modified source. -/
def execLoadr (rd rs : RegNo) (imm : Imm16) (s : State) : Result :=
  withReg rd fun d => withReg rs fun r =>
    s.loadWord d (s.srcval r imm)

/-- `storer` (R226): as `store`, at the modified source: the first register is the data. -/
def execStorer (rd rs : RegNo) (imm : Imm16) (s : State) : Result :=
  withReg rd fun d => withReg rs fun r =>
    s.storeWord d (s.srcval r imm)

/-- `loadr2` (R227): as `load2`, at the modified source. -/
def execLoadr2 (rd rs : RegNo) (imm : Imm16) (s : State) : Result :=
  withPair rd fun d => withReg rs fun r =>
    s.loadPair d (s.srcval r imm)

/-- `storer2` (R228): as `store2`, at the modified source. -/
def execStorer2 (rd rs : RegNo) (imm : Imm16) (s : State) : Result :=
  withPair rd fun d => withReg rs fun r =>
    s.storePair d (s.srcval r imm)

end Sys2Proof.Machine
end

