-- ==== Sys2Proof/Machine/Logic.lean ====
section
/-! DEFINITION. The meanings of the constant load, the shifts, the bitwise logic and the move
(42_constant_shift_logic_move.md R140 to R152). None reads or writes `flags` or memory, none raises an error. -/

namespace Sys2Proof.Machine

/-- A left shift by the whole count: 32 or more shifts every bit out (R141; decision D7, log 16). -/
def shiftLeftWord (x : Word) (n : Nat) : Word := if Config.xlen ≤ n then 0 else x <<< n

/-- A logical right shift by the whole count: zeros enter at bit 31 (R143; decision D7, log 16). -/
def shiftRightWord (x : Word) (n : Nat) : Word := if Config.xlen ≤ n then 0 else x >>> n

/-- `lc` (R140): the immediate is stored in the receiver. -/
def execLc (rd : RegNo) (imm : Imm20) (s : State) : Result :=
  withReg rd fun d => s.finishReg d (immWord imm)

/-- `shl` (R141): the receiver is shifted left by the modified source. -/
def execShl (rd rs : RegNo) (imm : Imm16) (s : State) : Result :=
  withReg rd fun d => withReg rs fun r =>
    s.finishReg d (shiftLeftWord (s.reg d) (s.srcval r imm).toNat)

/-- `shli` (R142): the receiver is shifted left by the immediate. -/
def execShli (rd : RegNo) (imm : Imm20) (s : State) : Result :=
  withReg rd fun d => s.finishReg d (shiftLeftWord (s.reg d) (immWord imm).toNat)

/-- `shr` (R143): the receiver is shifted right by the modified source. -/
def execShr (rd rs : RegNo) (imm : Imm16) (s : State) : Result :=
  withReg rd fun d => withReg rs fun r =>
    s.finishReg d (shiftRightWord (s.reg d) (s.srcval r imm).toNat)

/-- `shri` (R144): the receiver is shifted right by the immediate. -/
def execShri (rd : RegNo) (imm : Imm20) (s : State) : Result :=
  withReg rd fun d => s.finishReg d (shiftRightWord (s.reg d) (immWord imm).toNat)

/-- `and` (R145): bitwise and of the receiver and the modified source. -/
def execAnd (rd rs : RegNo) (imm : Imm16) (s : State) : Result :=
  withReg rd fun d => withReg rs fun r =>
    s.finishReg d (s.reg d &&& s.srcval r imm)

/-- `andi` (R146): bitwise and of the receiver and the immediate. -/
def execAndi (rd : RegNo) (imm : Imm20) (s : State) : Result :=
  withReg rd fun d => s.finishReg d (s.reg d &&& immWord imm)

/-- `or` (R147): bitwise or of the receiver and the modified source. -/
def execOr (rd rs : RegNo) (imm : Imm16) (s : State) : Result :=
  withReg rd fun d => withReg rs fun r =>
    s.finishReg d (s.reg d ||| s.srcval r imm)

/-- `ori` (R148): bitwise or of the receiver and the immediate. -/
def execOri (rd : RegNo) (imm : Imm20) (s : State) : Result :=
  withReg rd fun d => s.finishReg d (s.reg d ||| immWord imm)

/-- `xor` (R149): bitwise xor of the receiver and the modified source. -/
def execXor (rd rs : RegNo) (imm : Imm16) (s : State) : Result :=
  withReg rd fun d => withReg rs fun r =>
    s.finishReg d (s.reg d ^^^ s.srcval r imm)

/-- `xori` (R150): bitwise xor of the receiver and the immediate. -/
def execXori (rd : RegNo) (imm : Imm20) (s : State) : Result :=
  withReg rd fun d => s.finishReg d (s.reg d ^^^ immWord imm)

/-- `not` (R151): bitwise not of the receiver; the immediate is ignored. -/
def execNot (rd : RegNo) (_imm : Imm20) (s : State) : Result :=
  withReg rd fun d => s.finishReg d (~~~(s.reg d))

/-- `mov` (R152): the modified source is stored in the receiver. -/
def execMov (rd rs : RegNo) (imm : Imm16) (s : State) : Result :=
  withReg rd fun d => withReg rs fun r =>
    s.finishReg d (s.srcval r imm)

end Sys2Proof.Machine
end

