-- ==== Sys2Proof/Machine/Stack.lean ====
section
/-! DEFINITION. The meanings of the stack and subroutine commands (44_stack_and_calls.md R180 to R184). Each can raise
AddressOutOfRange, and then nothing has changed. -/

namespace Sys2Proof.Machine

/-- `push` (R180): the modified register is stored at the address in r14, and r14 is decremented. -/
def execPush (rd : RegNo) (imm : Imm20) (s : State) : Result :=
  withReg rd fun d => s.withPush (s.reg d + immWord imm) fun t => .next t.advance

/-- `pop` (R181): r14 is incremented, and the word there plus the immediate goes to the receiver, which is written last. -/
def execPop (rd : RegNo) (imm : Imm20) (s : State) : Result :=
  withReg rd fun d => s.withPop 0 fun v t => t.finishReg d (v + immWord imm)

/-- `call` (R182): the target is computed first; the return address is pushed and then written to the receiver. -/
def execCall (rd rs : RegNo) (imm : Imm16) (s : State) : Result :=
  withReg rd fun d => withReg rs fun r =>
    s.withPush s.nextPc fun t => .next ((t.setReg d s.nextPc).setPc (s.srcval r imm))

/-- `calli` (R183): the return address is pushed and control goes to the absolute address. -/
def execCalli (addr : Addr) (s : State) : Result :=
  s.withPush s.nextPc fun t => .next (t.setPc (addrWord addr))

/-- `ret` (R184): the operand counts words to eject before the return address is popped. -/
def execRet (addr : Addr) (s : State) : Result :=
  s.withPop (addrWord addr) fun v t => .next (t.setPc v)

end Sys2Proof.Machine
end

