-- ==== Sys2Proof/Machine/System.lean ====
section
/-! DEFINITION. The meanings of the system commands, `halt` and `syscall` (40_system.md R100 to R110). -/

namespace Sys2Proof.Machine

/-- `halt` (R100): both operands are ignored, register number 15 included (R70). -/
def execHalt (_rd : RegNo) (_imm : Imm20) (s : State) : Result := s.stop .halted

/-- SCANINT (R103). -/
def State.scanInt (s : State) (d : Reg) : Result :=
  s.withInput HostAnswer.asInt fun v t => .next ((t.setReg d v).advance)

/-- SCANDOUBLE (R104). -/
def State.scanDouble (s : State) (p : PairReg) : Result :=
  s.withInput HostAnswer.asDouble fun v t => .next ((t.setPair p v).advance)

/-- PRINTINT (R105). -/
def State.printInt (s : State) (d : Reg) : Result := .next (s.emit (.int (s.reg d))).advance

/-- PRINTDOUBLE (R106). -/
def State.printDouble (s : State) (p : PairReg) : Result := .next (s.emit (.double (s.pair p))).advance

/-- GETCHAR (R107). -/
def State.getChar (s : State) (d : Reg) : Result :=
  s.withInput HostAnswer.asChar fun c t => .next ((t.setReg d (c.setWidth Config.xlen)).advance)

/-- The character that PUTCHAR outputs for a word under a reading of integers, or what it ends in (R108). The whole
register counts: above 255 is CharOutOfRange, and a negative word, which only the signed reading has, is refused. -/
def charOfWord (isSigned : Bool) (w : Word) : Except (ErrorKind ⊕ RefuseReason) (BitVec 8) :=
  if 255 < intOfWord isSigned w then .error (.inl .charOutOfRange)
  else if intOfWord isSigned w < 0 then .error (.inr .negativeChar)
  else .ok (w.setWidth 8)

/-- PUTCHAR (R108), under the configured reading of integers (decision D6). -/
def State.putChar (s : State) (d : Reg) : Result :=
  match charOfWord Config.intSigned (s.reg d) with
  | .ok c => .next (s.emit (.char c)).advance
  | .error (.inl kind) => s.raise kind
  | .error (.inr reason) => refuse reason

/-- `syscall` (R101 to R109). EXIT ignores its register field (R70); for every other code, known or not, register
number 15 is refused first (R109, R249). -/
def execSyscall (rd : RegNo) (imm : Imm20) (s : State) : Result :=
  match serviceOf imm with
  | .exit => s.stop .exited
  | .scanInt => withReg rd s.scanInt
  | .scanDouble => withPair rd s.scanDouble
  | .printInt => withReg rd s.printInt
  | .printDouble => withPair rd s.printDouble
  | .getChar => withReg rd s.getChar
  | .putChar => withReg rd s.putChar
  | .unknown => withReg rd fun _ => s.raise .unknownSyscall

end Sys2Proof.Machine
end

