-- ==== Sys2Proof/Machine/Fetch.lean ====
section
/-! DEFINITION. Fetching and decoding the command at `pc` (30_encoding.md R60), and placing a word where the next fetch
reads it. -/

namespace Sys2Proof.Machine

/-- The command that the next step runs, or the error the fetch raises: first the range check on `pc`, then the
opcode map (R60, R249). The cell is read as it is at the time of the step (R53). -/
def fetch (s : State) : Except ErrorKind Instr :=
  if inRange s.pc 1 then
    match decode (s.cell s.pc.toNat) with
    | .ok i => .ok i
    | .error (.unassignedCode _) => .error .illegalInstruction
  else .error .addressOutOfRange

/-- The state with one word stored in the cell that the next step fetches. -/
def State.placeWord (s : State) (w : Word) : State := s.setCell s.pc.toNat w

end Sys2Proof.Machine
end

