-- ==== Sys2Proof/Machine/Step.lean ====
section
/-! DEFINITION. One step of the machine (30_encoding.md R60). -/

namespace Sys2Proof.Machine

/-- One step (R60). Only a Running machine takes one (R33); an error of the fetch or of the decoding is entered as any
other (R250). -/
def step (s : State) : Host.Outcome State Fault Refusal :=
  match s.status with
  | .running =>
    match fetch s with
    | .ok i => exec i s
    | .error kind => s.raise kind
  | .halted => .fault .notRunning
  | .exited => .fault .notRunning
  | .error _ => .fault .notRunning
  | .refused _ => .fault .notRunning

/-- The state with an instruction's word, its bits numbered as the opcode table numbers them, in the cell that the next
step fetches (R60, R61). It stands for loading a program of one command at `pc` (log 5). -/
def State.withFetchWord (s : State) (nbits w : Nat) : State := s.placeWord (BitVec.ofNat Config.xlen (w % 2 ^ nbits))

end Sys2Proof.Machine
end

