-- ==== Sys2Proof/Machine/Program.lean ====
section
/-! DEFINITION. From a program to the memory it starts with: which cell each command of the text is placed in, what a
label stands for (30_encoding.md R73, R77 to R81), the image (70_reset_and_hazards.md R273) and loading it (R272). The
text is taken after its lines have been read: how their characters are written is not modelled (log 27). -/

namespace Sys2Proof.Machine

/-- One line of the text before its last (R73): a label, a command and a comment, each of which may be absent. -/
structure Line where
  /-- The label that stands before the command, or alone on the line (R77). -/
  label : Option String
  /-- The command, its operands as numbers: a label among them has been replaced by its value (R77). -/
  command : Option Instr
  /-- What follows a semicolon (R80). -/
  comment : Option String
  deriving DecidableEq, Repr

/-- The operand of the `end` directive (R79): "the address of the first instruction (or a label)". -/
inductive EntryOperand where
  | address (a : Nat)
  | label (name : String)
  deriving DecidableEq, Repr

/-- A program: its lines, and the operand of the `end` directive in its last line (R73, R79). -/
structure Program where
  lines : List Line
  entry : EntryOperand
  deriving DecidableEq, Repr

/-- The commands of the text, in its order: labels, comments, blank lines and `end` are none (R81). -/
def Program.commands (p : Program) : List Instr := p.lines.filterMap Line.command

/-- Commands in consecutive cells from cell `a` on, `ILEN` cells each (R81, R83; decision D2). -/
def imageFrom (a : Nat) : List Instr → Memory
  | [] => []
  | i :: is => (a, encode i) :: imageFrom (a + Config.ilen) is

/-- `IMAGE` of a program: its first command is in cell 0, and each following one in the next cell (R81, R273). -/
def Program.image (p : Program) : Memory := imageFrom 0 p.commands

/-- The cell after a line, where the line begins at cell `a`: only a command takes a cell (R81). -/
def Line.next (l : Line) (a : Nat) : Nat := if l.command.isSome then a + Config.ilen else a

/-- What a label stands for in lines that begin at cell `a`: the address of the next command after it (R77, R81). DESIGN
CHOICE (log 27), where the spec says nothing: labels are compared as strings, so that their case counts (R78: "Whether
labels are case-sensitive is not stated"), and a label after the last command stands for the cell just past it. -/
def labelValueFrom (name : String) (a : Nat) : List Line → Option Nat
  | [] => none
  | l :: ls => if l.label = some name then some a else labelValueFrom name (l.next a) ls

/-- What a label stands for; none where the text does not define it, which R78 makes an error of the assembler. The
model's choices about labels are those of `labelValueFrom` (log 27). -/
def Program.labelValue (p : Program) (name : String) : Option Nat := labelValueFrom name 0 p.lines

/-- `W(ENTRY)` of a program, what `pc` is at launch (R79, R271, R272). DESIGN CHOICE (log 27): an operand of 2^32 or more
wraps, as R272 writes it, where R271 bounds no entry and says that one of `MEM_WORDS` or more fails at the first fetch. -/
def Program.entryWord (p : Program) : Option Word :=
  match p.entry with
  | .address a => some (BitVec.ofNat Config.xlen a)
  | .label name => (p.labelValue name).map (BitVec.ofNat Config.xlen)

/-- The commands fit the address space (R273: "The requirement `n <= MEM_WORDS` is implied by the address space"). -/
abbrev Program.fits (p : Program) : Prop := p.commands.length * Config.ilen ≤ Config.memWords

/-- Write an image into memory (R272 (1)). -/
def State.load (s : State) (image : Memory) : State := image.foldr (fun c t => t.setCell c.1 c.2) s

/-- One launch state of an image and an entry address (R272): what the procedure leaves arbitrary is as in
`State.reset` (log 5). The predicate `Launch` (Safety.lean) has all of them. -/
def launch (image : Memory) (entry : Word) : State := (State.reset.load image).setPc entry

end Sys2Proof.Machine
end

