-- ==== Sys2Proof/Safety.lean ====
section
/-! DEFINITION. The terms that claims about the machine use: integers and words (00_scope.md R6), the numbers that
floating-point patterns stand for (43_floating_point.md R160, R169), how a run ends (10_state.md R33,
70_reset_and_hazards.md R279), launch states (R272), what a command leaves unchanged, and the kinds of command that the
whole-machine rules name. -/

namespace Sys2Proof

/-! ### Kinds of command -/

/-- The three comparisons (R27). -/
def Instr.isCompare : Instr → Bool
  | .cmp _ _ _ => true
  | .cmpi _ _ => true
  | .cmpd _ _ _ => true
  | _ => false

/-- The six conditional jumps (R27). -/
def Instr.isConditionalJump : Instr → Bool
  | .jne _ => true
  | .jeq _ => true
  | .jle _ => true
  | .jl _ => true
  | .jge _ => true
  | .jg _ => true
  | _ => false

/-- The control transfers (R25). -/
def Instr.isControlTransfer : Instr → Bool
  | .jmp _ => true
  | .call _ _ _ => true
  | .calli _ => true
  | .ret _ => true
  | i => i.isConditionalJump

/-- The commands that write memory (R44). -/
def Instr.writesMemory : Instr → Bool
  | .store _ _ => true
  | .store2 _ _ => true
  | .storer _ _ _ => true
  | .storer2 _ _ _ => true
  | .push _ _ => true
  | .call _ _ _ => true
  | .calli _ => true
  | _ => false

/-- The commands that read or write memory beyond the fetch (R44). -/
def Instr.accessesMemory : Instr → Bool
  | .load _ _ => true
  | .load2 _ _ => true
  | .loadr _ _ _ => true
  | .loadr2 _ _ _ => true
  | .pop _ _ => true
  | .ret _ => true
  | i => i.writesMemory

/-- The input system calls SCANINT, SCANDOUBLE and GETCHAR (R110). -/
def Instr.isInputCall : Instr → Bool
  | .syscall _ imm => imm = 100#20 || imm = 101#20 || imm = 104#20
  | _ => false

/-- The output system calls PRINTINT, PRINTDOUBLE and PUTCHAR (R32). -/
def Instr.isOutputCall : Instr → Bool
  | .syscall _ imm => imm = 102#20 || imm = 103#20 || imm = 105#20
  | _ => false

end Sys2Proof

namespace Sys2Proof.Machine

/-- The commands that can raise an error of each kind (the "raised by" column of R240). The fetch and the decoding,
which raise AddressOutOfRange and IllegalInstruction too, are no commands. -/
def ErrorKind.raisedBy : ErrorKind → Instr → Bool
  | .quotientOverflow, .div _ _ _ => true
  | .quotientOverflow, .divi _ _ => true
  | .conversionOverflow, .dtoi _ _ _ => true
  | .charOutOfRange, .syscall _ imm => imm = 105#20
  | .addressOutOfRange, i => i.accessesMemory
  | .unknownSyscall, .syscall _ imm =>
    !(imm = 0#20 || imm = 100#20 || imm = 101#20 || imm = 102#20 || imm = 103#20 || imm = 104#20 || imm = 105#20)
  | .divisionByZero, .div _ _ _ => true
  | .divisionByZero, .divi _ _ => true
  | _, _ => false

/-! ### Numbers (R6, R8) -/

/-- `W(n)`: the word whose unsigned value is `n mod 2^32`, for any integer (R6). -/
def W (n : Int) : Word := BitVec.ofInt Config.xlen n

/-- `W64(n)` (R6). -/
def W64 (n : Int) : DWord := BitVec.ofInt 64 n

/-- `U(w)` (R6). -/
def U (w : Word) : Int := (w.toNat : Int)

/-- `srcval(rs, imm)` in the integers' terms (R8), immediates being zero-extended (R66, decision D4). -/
def modified (s : State) (r : Reg) (imm : Imm16) : Word := W (U (s.reg r) + (imm.toNat : Int))

/-- The floating-point source operand `x[rs+1] ∥ W(U(x[rs]) + imm)` (R161). -/
def modifiedPair (s : State) (p : PairReg) (imm : Imm16) : DWord := s.reg (pairHi p) ++ modified s (pairLo p) imm

/-! ### Floating-point numbers (R160, R169; log 10) -/

/-- A zero, a subnormal or a normal number (R169). -/
abbrev Ieee.IsFinite (d : DWord) : Prop := Ieee.exponentField d ≠ 2047

/-- A NaN (R169). -/
abbrev Ieee.IsNaN (d : DWord) : Prop := Ieee.exponentField d = 2047 ∧ Ieee.fractionField d ≠ 0

/-- The infinity with a sign (R169). -/
def infBits (neg : Bool) : DWord := if neg then 0xFFF0000000000000#64 else 0x7FF0000000000000#64

/-- The zero with a sign (R169). -/
def zeroBits (neg : Bool) : DWord := if neg then 0x8000000000000000#64 else 0x0000000000000000#64

/-- The number a finite pattern stands for: `(1 + fraction) * 2^(exponent - 1023)` for a normal number (R160), and
`fraction * 2^-1022` for a zero or a subnormal (R169), the fraction being the field divided by 2^52. -/
def Ieee.number (d : DWord) : ℚ :=
  (if Ieee.signField d then -1 else 1) *
    if Ieee.exponentField d = 0 then (Ieee.fractionField d : ℚ) / 2 ^ 52 * 2 ^ (-1022 : ℤ)
    else (1 + (Ieee.fractionField d : ℚ) / 2 ^ 52) * 2 ^ ((Ieee.exponentField d : ℤ) - 1023)

/-- `d` is `x` rounded to nearest, ties to even, with the sign `neg` (R162, R169). A magnitude from halfway between the
greatest finite number and 2^1024 on is an infinity. Below that, no finite number is nearer to `x` than that of `d`, and
the fraction field of `d` is even where another is as near. -/
def Ieee.RoundsTo (neg : Bool) (x : ℚ) (d : DWord) : Prop :=
  Ieee.signField d = neg ∧
    if |x| < 2 ^ 1024 - 2 ^ 970 then
      Ieee.IsFinite d ∧
        (∀ e, Ieee.IsFinite e → |x - Ieee.number d| ≤ |x - Ieee.number e|) ∧
        ∀ e, Ieee.IsFinite e → Ieee.number e ≠ Ieee.number d → |x - Ieee.number e| = |x - Ieee.number d| →
          Ieee.fractionField d % 2 = 0
    else d = infBits neg

/-! ### The end of a run (R33, R279) -/

/-- The machine takes steps (R33). -/
abbrev State.Running (s : State) : Prop := s.status = .running

/-- The two successful ends (R279). -/
abbrev State.EndedWell (s : State) : Prop := s.status = .halted ∨ s.status = .exited

/-- The state a run is left in by the outcome of a step from `s`: a refusal records its reason in the status and
changes nothing else (R259), and a machine that takes no step stays as it is (R33). -/
def settle (s : State) : Result → State
  | .next t => t
  | .refused (.refuse reason) => s.setStatus (.refused reason)
  | _ => s

/-- A run: some number of steps, each answering a next state. -/
inductive Reaches : State → State → Prop where
  | here (s : State) : Reaches s s
  | more {s t u : State} : step s = .next t → Reaches t u → Reaches s u

/-- The invariant of the model: memory has its canonical form, and no status is Refused, since a refused step has no
next state (log 2). -/
def State.Inv (s : State) : Prop := s.mem.wf ∧ ∀ reason, s.status ≠ .refused reason

/-! ### Launch (R272) -/

/-- `Launch(IMAGE, ENTRY, s)` (R272): the image defines cells of the address space (R273), and memory agrees with it
there; `pc`, r14, the status and the trace are as the spec says; r0 to r13, `flags`, the other cells and the host's
input are arbitrary. -/
def Launch (image : Memory) (entry : Word) (s : State) : Prop :=
  (∀ c ∈ image, c.1 < Config.memWords) ∧ (∀ a w, image.lookup a = some w → s.cell a = w) ∧ s.pc = entry ∧
    s.reg sp = W ((Config.memWords : Int) - 1) ∧ s.status = .running ∧ s.outTrace = []

/-! ### What a command leaves unchanged -/

/-- From `s` to `t` only the listed registers and cells, `pc` and `flags` may have changed. -/
structure KeepsBut (regs : List Reg) (cells : List Nat) (s t : State) : Prop where
  reg : ∀ r, r ∉ regs → t.reg r = s.reg r
  cell : ∀ a, a ∉ cells → t.cell a = s.cell a
  status : t.status = s.status
  hostIn : t.hostIn = s.hostIn
  outTrace : t.outTrace = s.outTrace
  nanDraws : t.nanDraws = s.nanDraws

/-- Whatever next state the outcome gives has the property. It holds of an outcome with no next state. -/
def Ensures (r : Result) (P : State → Prop) : Prop := ∀ t, r = .next t → P t

/-! ### Encodings (R62 to R65) -/

/-- The commands made by `mk` are the words of format RR with this code (R63). -/
def EncodedRR (mk : RegNo → RegNo → Imm16 → Instr) (code : BitVec 8) : Prop :=
  ∀ rd rs imm, encode (mk rd rs imm) = code ++ rd ++ rs ++ imm ∧ decode (code ++ rd ++ rs ++ imm) = .ok (mk rd rs imm)

/-- The commands made by `mk` are the words of format RI with this code (R62). -/
def EncodedRI (mk : RegNo → Imm20 → Instr) (code : BitVec 8) : Prop :=
  ∀ rd imm, encode (mk rd imm) = code ++ rd ++ imm ∧ decode (code ++ rd ++ imm) = .ok (mk rd imm)

/-- The commands made by `mk` are the words of format RM with this code (R64). -/
def EncodedRM (mk : RegNo → Addr → Instr) (code : BitVec 8) : Prop :=
  ∀ rd addr, encode (mk rd addr) = code ++ rd ++ addr ∧ decode (code ++ rd ++ addr) = .ok (mk rd addr)

/-- The commands made by `mk` are the words of format J with this code; bits 23:20 are ignored and written as 0 (R65,
R70). -/
def EncodedJ (mk : Addr → Instr) (code : BitVec 8) : Prop :=
  ∀ (addr : Addr) (ignored : BitVec 4),
    encode (mk addr) = code ++ 0#4 ++ addr ∧ decode (code ++ ignored ++ addr) = .ok (mk addr)

/-! ### Refusals (R23) -/

/-- Register number 15 in either field is refused. -/
def RefusesRR (mk : RegNo → RegNo → Imm16 → Instr) : Prop :=
  ∀ rd rs imm s, rd = 15 ∨ rs = 15 → exec (mk rd rs imm) s = refuse .reg15

/-- Register number 15 is refused. -/
def RefusesRI (mk : RegNo → Imm20 → Instr) : Prop := ∀ imm s, exec (mk 15 imm) s = refuse .reg15

/-- Numbers 14 and 15 in the receiver field, and 15 in the source field, are refused. -/
def RefusesPairRR (mk : RegNo → RegNo → Imm16 → Instr) : Prop :=
  ∀ rd rs imm s, rd = 14 ∨ rd = 15 ∨ rs = 15 → exec (mk rd rs imm) s = refuse .reg15

/-- Numbers 14 and 15 in both fields are refused. -/
def RefusesPairPair (mk : RegNo → RegNo → Imm16 → Instr) : Prop :=
  ∀ rd rs imm s, rd = 14 ∨ rd = 15 ∨ rs = 14 ∨ rs = 15 → exec (mk rd rs imm) s = refuse .reg15

/-- Numbers 14 and 15 are refused. -/
def RefusesPairRI (mk : RegNo → Imm20 → Instr) : Prop :=
  ∀ rd imm s, rd = 14 ∨ rd = 15 → exec (mk rd imm) s = refuse .reg15

/-! ### Results -/

/-- The command always completes, leaving `v` in register `d`, going on at the next command, and changing nothing else. -/
def GivesReg (i : Instr) (s : State) (d : Reg) (v : Word) : Prop :=
  ∃ t, exec i s = .next t ∧ t.reg d = v ∧ t.pc = W (U s.pc + 1) ∧ t.flags = s.flags ∧ KeepsBut [d] [] s t

/-- The command always completes, leaving `v` in the pair at `p`, going on at the next command, and changing nothing
else. -/
def GivesPair (i : Instr) (s : State) (p : PairReg) (v : DWord) : Prop :=
  ∃ t, exec i s = .next t ∧ t.reg (pairLo p) = lowWord v ∧ t.reg (pairHi p) = highWord v ∧ t.pc = W (U s.pc + 1) ∧
    t.flags = s.flags ∧ KeepsBut [pairLo p, pairHi p] [] s t

/-- The command always completes, leaving `f` in `flags`, going on at the next command, and changing nothing else. -/
def GivesFlags (i : Instr) (s : State) (f : BitVec 6) : Prop :=
  ∃ t, exec i s = .next t ∧ t.flags = f ∧ t.pc = W (U s.pc + 1) ∧ KeepsBut [] [] s t

/-- The command always completes by going on at `a`, and changes nothing else. -/
def GoesTo (i : Instr) (s : State) (a : Word) : Prop :=
  ∃ t, exec i s = .next t ∧ t.pc = a ∧ t.flags = s.flags ∧ KeepsBut [] [] s t

/-- The command always completes, leaving the result `r` of a floating-point operation in the pair at `p`: the pattern, or
for a NaN some pattern with exponent field 2047 and a fraction that is not 0, the draw being counted (R162, R169). It
goes on at the next command and changes nothing else. -/
def GivesFp (i : Instr) (s : State) (p : PairReg) (r : FpResult) : Prop :=
  ∃ t, exec i s = .next t ∧ t.pc = W (U s.pc + 1) ∧ t.flags = s.flags ∧
    (∀ v, r = .value v → t.pair p = v ∧ KeepsBut [pairLo p, pairHi p] [] s t) ∧
    (r = .nan → Ieee.exponentField (t.pair p) = 2047 ∧ Ieee.fractionField (t.pair p) ≠ 0 ∧
      KeepsBut [pairLo p, pairHi p] [] (s.setNanDraws (s.nanDraws + 1)) t)

/-- The command completes by writing `v` to cell `a`, going on at the next command, and changing nothing else. -/
def StoresCell (i : Instr) (s : State) (a : Nat) (v : Word) : Prop :=
  ∃ t, exec i s = .next t ∧ t.cell a = v ∧ t.pc = W (U s.pc + 1) ∧ t.flags = s.flags ∧ KeepsBut [] [a] s t

/-- The command completes by writing `v` to cell `a` and `w` to the next cell, going on at the next command, and changing
nothing else. -/
def StoresCells (i : Instr) (s : State) (a : Nat) (v w : Word) : Prop :=
  ∃ t, exec i s = .next t ∧ t.cell a = v ∧ t.cell (a + 1) = w ∧ t.pc = W (U s.pc + 1) ∧ t.flags = s.flags ∧
    KeepsBut [] [a, a + 1] s t

/-- The command raises the error: the next state differs in the status alone (R250). -/
def Raises (i : Instr) (s : State) (kind : ErrorKind) : Prop := exec i s = .next (s.setStatus (.error kind))

end Sys2Proof.Machine
end

