-- ==== Sys2Proof/Certificates/Slice0/Obligations.lean ====
section
/-! DEFINITION. The statements about the model, each `def Obligations.<Name> : Prop`. OBLIGATIONS.json gives each one's
basis in the spec. Number 15 stands for a register field, and `regNo d`, `pairNo p` for the fields of the registers and
pairs that exist, so that the statements cover every value of a field. -/

open Sys2Proof Sys2Proof.Machine

/-- Decoding the word an assembler writes for a command gives that command back. Rests on 30_encoding.md R61 to R68,
R83. -/
def Obligations.DecodeOfEncodeIsIdentity : Prop :=
    ∀ i : Instr, decode (encode i) = .ok i

/-- Encoding a decoded word gives the word back, but for bits 23:20 of a J-format word. Rests on 30_encoding.md R61 to
R65, R70, R83. -/
def Obligations.EncodeOfDecodeClearsOnlyIgnoredBits : Prop :=
    ∀ (w : Word) (i : Instr), decode w = .ok i →
    encode i = if (codeField w).toNat ∈ [41, 42, 46, 47, 48, 49, 50, 51, 52] then w &&& 0xFF0FFFFF#32 else w

/-- A fetched word raises IllegalInstruction exactly when its code is unassigned. Formalises R247. -/
def Obligations.UnassignedCodesRaiseIllegalInstruction : Prop :=
    ∀ s : State, s.Running → s.pc.toNat < Config.memWords →
    let c := (codeField (s.cell s.pc.toNat)).toNat
    (c = 10 ∨ c = 11 ∨ (25 ≤ c ∧ c ≤ 31) ∨ (53 ≤ c ∧ c ≤ 63) ∨ 72 ≤ c →
      step s = .next (s.setStatus (.error .illegalInstruction))) ∧
    (¬(c = 10 ∨ c = 11 ∨ (25 ≤ c ∧ c ≤ 31) ∨ (53 ≤ c ∧ c ≤ 63) ∨ 72 ≤ c) →
      ∃ i, decode (s.cell s.pc.toNat) = .ok i)

/-- Words written out from the encoding tables decode to their commands, one per family. Rests on 30_encoding.md R61
to R65, R68, R83; 95_test_vectors.md part 1. -/
def Obligations.WrittenWordsDecode : Prop :=
    decode 0x00100000#32 = .ok (.halt 1 0) ∧ decode 0x02120003#32 = .ok (.add 1 2 3) ∧
    decode 0x0C70007B#32 = .ok (.lc 7 123) ∧ decode 0x24250005#32 = .ok (.itod 2 5 5) ∧
    decode 0x2A000003#32 = .ok (.ret 3) ∧ decode 0x2F0008A4#32 = .ok (.jne 2212) ∧
    decode 0x41003038#32 = .ok (.store 0 12344) ∧ decode 0x450B0003#32 = .ok (.storer 0 11 3)

/-- Fields a command ignores may hold any value without changing what it does, and are never rejected. Formalises R70.
-/
def Obligations.IgnoredFieldsHaveNoEffect : Prop :=
    (∀ rd rd' imm imm' s, exec (.halt rd imm) s = exec (.halt rd' imm') s) ∧
    (∀ rd rd' s, exec (.syscall rd 0) s = exec (.syscall rd' 0) s) ∧
    (∀ rd imm imm' s, exec (.not rd imm) s = exec (.not rd imm') s) ∧
    (EncodedRI .halt 0 ∧ EncodedRI .syscall 1 ∧ EncodedRI .not 23) ∧
    EncodedJ .calli 41 ∧ EncodedJ .ret 42 ∧ EncodedJ .jmp 46 ∧ EncodedJ .jne 47 ∧ EncodedJ .jeq 48 ∧
    EncodedJ .jle 49 ∧ EncodedJ .jl 50 ∧ EncodedJ .jge 51 ∧ EncodedJ .jg 52

/-- One step of a running machine: fetch, decode, refuse register 15, execute. Formalises R60. -/
def Obligations.StepRunsTheDecodedCommand : Prop :=
    ∀ s : State, s.Running →
    (Config.memWords ≤ s.pc.toNat → step s = .next (s.setStatus (.error .addressOutOfRange))) ∧
    (s.pc.toNat < Config.memWords →
      (∀ e, decode (s.cell s.pc.toNat) = .error e → step s = .next (s.setStatus (.error .illegalInstruction))) ∧
      ∀ i, decode (s.cell s.pc.toNat) = .ok i →
        step s = exec i s ∧ (i.wellFormed = false → step s = refuse .reg15))

/-- A machine whose status is not Running takes no step. Rests on 10_state.md R33; 60_exceptions.md R251. The fault is
the model's way of saying that no step is taken (log 1). -/
def Obligations.StoppedMachineTakesNoStep : Prop :=
    ∀ s : State, ¬s.Running → step s = .fault .notRunning

/-- A command is refused for register 15 exactly when its fields use register 15 or the pair at r14. Formalises R23.
-/
def Obligations.Reg15RefusedExactlyWhenIllFormed : Prop :=
    ∀ (i : Instr) (s : State), exec i s = refuse .reg15 ↔ i.wellFormed = false

/-- Every well-formed command answers a next state, unless it is an input call the host cannot answer. Rests on
60_exceptions.md R240, R259; 40_system.md R110. An error counts as a next state: the model's choice (log 1). -/
def Obligations.WellFormedCommandsAnswerANextState : Prop :=
    ∀ (i : Instr) (s : State), i.wellFormed = true →
    (∃ t, exec i s = .next t) ∨ (i.isInputCall = true ∧ exec i s = refuse .hostInput)

/-- The launch state satisfies the invariant. Rests on 10_state.md R34. The invariant is the model's (logs 2 and 6).
-/
def Obligations.ResetSatisfiesTheInvariant : Prop :=
    State.reset.Inv

/-- Every step keeps memory in its canonical form and never records a refusal. Rests on 20_memory.md R45, R55;
10_state.md R33. The invariant is the model's (logs 2 and 6). -/
def Obligations.EveryStepKeepsTheInvariant : Prop :=
    ∀ s t : State, s.Inv → step s = .next t → t.Inv

/-- An error leaves everything as it was but the status, and nothing follows it. Rests on 60_exceptions.md R250, R251;
10_state.md R33. That an error is a next state, and a step not taken the fault `notRunning`, is the model's choice
(log 1). -/
def Obligations.ErrorsArePreciseAndTerminal : Prop :=
    ∀ (s t : State) (kind : ErrorKind), step s = .next t → t.status = .error kind →
    t = s.setStatus (.error kind) ∧ step t = .fault .notRunning

/-- Each error kind is raised only by the commands the table of errors names for it. Rests on 60_exceptions.md R240.
-/
def Obligations.ErrorsAreRaisedOnlyByTheirCommands : Prop :=
    ∀ (i : Instr) (s t : State) (kind : ErrorKind), s.Running → exec i s = .next t → t.status = .error kind →
    kind.raisedBy i = true

/-- No command but cmp, cmpi and cmpd changes flags. Rests on 10_state.md R27. -/
def Obligations.FlagsAreWrittenOnlyByComparisons : Prop :=
    ∀ (i : Instr) (s t : State), exec i s = .next t → i.isCompare = false → t.flags = s.flags

/-- No command but the six conditional jumps depends on flags. Rests on 10_state.md R27. -/
def Obligations.FlagsAreReadOnlyByConditionalJumps : Prop :=
    ∀ (i : Instr) (s : State) (f : BitVec 6), i.isConditionalJump = false →
    (∀ t, exec i s = .next t → exec i (s.setFlags f) = .next (if i.isCompare then t else t.setFlags f)) ∧
    (∀ reason, exec i s = refuse reason → exec i (s.setFlags f) = refuse reason)

/-- Only the commands of the access table write memory, and no other command depends on it. Rests on 20_memory.md R44.
-/
def Obligations.MemoryIsTouchedOnlyByItsCommands : Prop :=
    ∀ (i : Instr) (s t : State), exec i s = .next t →
    (i.writesMemory = false → t.mem = s.mem) ∧
    (i.accessesMemory = false → ∀ m, exec i (s.setMem m) = .next (t.setMem m))

/-- Along every run the output trace only grows, and only output calls add to it. Rests on 10_state.md R32. -/
def Obligations.OutputTraceOnlyGrows : Prop :=
    (∀ s t : State, Reaches s t → s.outTrace <+: t.outTrace) ∧
    (∀ (i : Instr) (s t : State), exec i s = .next t → i.isOutputCall = false → t.outTrace = s.outTrace)

/-- No command but the input calls takes from, or depends on, the host input. Rests on 40_system.md R110; 10_state.md
R31. -/
def Obligations.HostInputIsUsedOnlyByInputCalls : Prop :=
    ∀ (i : Instr) (s t : State), i.isInputCall = false → exec i s = .next t →
    t.hostIn = s.hostIn ∧ ∀ l, exec i (s.setHostIn l) = .next (t.setHostIn l)

/-- A running machine goes on, or ends by halt, by EXIT, in an error or in a refusal. Rests on 10_state.md R33;
70_reset_and_hazards.md R279; 60_exceptions.md R259. That a refusal has no next state, and that `settle` gives the
status it leaves, is the model's choice (log 2). -/
def Obligations.RunsEndInOneOfFourWays : Prop :=
    (∀ (i : Instr) (s : State), s.Running →
      (exec i s = .next (settle s (exec i s)) ∧
        ((settle s (exec i s)).Running ∨
          ((settle s (exec i s)).status = .halted ∧ ∃ rd imm, i = .halt rd imm) ∨
          ((settle s (exec i s)).status = .exited ∧ ∃ rd, i = .syscall rd 0) ∨
          ∃ kind, (settle s (exec i s)).status = .error kind)) ∨
      ∃ reason, exec i s = refuse reason ∧ settle s (exec i s) = s.setStatus (.refused reason)) ∧
    (∀ (i : Instr) (s : State) reason, exec i s = refuse reason →
      settle s (exec i s) = s.setStatus (.refused reason)) ∧
    (∀ s : State, ¬s.Running → settle s (step s) = s)

/-- A command that is no control transfer goes on at pc + 1, and a command that stops the machine leaves pc. Rests on
10_state.md R25. -/
def Obligations.PcAdvancesUnlessTransferOrStop : Prop :=
    ∀ (i : Instr) (s t : State), s.Running → exec i s = .next t →
    (t.Running → i.isControlTransfer = false → t.pc = W (U s.pc + 1)) ∧ (¬t.Running → t.pc = s.pc)

/-- State.reset is a launch state of the empty image, with the stack pointer at the last cell. Rests on
70_reset_and_hazards.md R272, R275; 10_state.md R34. The entry address of `State.reset` is the model's choice (log 5).
-/
def Obligations.ResetIsALaunchState : Prop :=
    Launch [] Config.entry State.reset ∧ State.reset.reg sp = 0x000FFFFF#32

/-- add and sub: receiver plus or minus the modified source, modulo 2^32. Formalises R121, R123. -/
def Obligations.AddAndSubRegisters : Prop :=
    EncodedRR .add 2 ∧
    EncodedRR .sub 4 ∧
    RefusesRR .add ∧
    RefusesRR .sub ∧
    (∀ d r imm s, GivesReg (.add (regNo d) (regNo r) imm) s d (W (U (s.reg d) + U (modified s r imm)))) ∧
    (∀ d r imm s, GivesReg (.sub (regNo d) (regNo r) imm) s d (W (U (s.reg d) - U (modified s r imm))))

/-- addi and subi: receiver plus or minus the immediate, modulo 2^32. Formalises R122, R124. -/
def Obligations.AddiAndSubi : Prop :=
    EncodedRI .addi 3 ∧
    EncodedRI .subi 5 ∧
    RefusesRI .addi ∧
    RefusesRI .subi ∧
    (∀ d imm s, GivesReg (.addi (regNo d) imm) s d (W (U (s.reg d) + (imm.toNat : Int)))) ∧
    (∀ d imm s, GivesReg (.subi (regNo d) imm) s d (W (U (s.reg d) - (imm.toNat : Int))))

/-- mul and muli: the exact 64-bit product in the pair at the receiver. Rests on 41_integer_arithmetic.md R125, R126
(unsigned reading). -/
def Obligations.MulAndMuliGiveTheFullProduct : Prop :=
    EncodedRR .mul 6 ∧
    EncodedRI .muli 7 ∧
    RefusesPairRR .mul ∧
    RefusesPairRI .muli ∧
    (∀ p r imm s, GivesPair (.mul (pairNo p) (regNo r) imm) s p (W64 (U (s.reg (pairLo p)) * U (modified s r imm)))) ∧
    (∀ p imm s, GivesPair (.muli (pairNo p) imm) s p (W64 (U (s.reg (pairLo p)) * (imm.toNat : Int))))

/-- div and divi: quotient and remainder of the 64-bit dividend when the quotient fits. Rests on
41_integer_arithmetic.md R127, R128 (unsigned reading). -/
def Obligations.DivAndDiviGiveQuotientAndRemainder : Prop :=
    EncodedRR .div 8 ∧ EncodedRI .divi 9 ∧ RefusesPairRR .div ∧ RefusesPairRI .divi ∧
    (∀ p r imm s, U (s.reg (pairHi p)) < U (modified s r imm) →
      ∃ t, exec (.div (pairNo p) (regNo r) imm) s = .next t ∧
        U (t.reg (pairLo p)) * U (modified s r imm) + U (t.reg (pairHi p)) =
          U (s.reg (pairHi p)) * 4294967296 + U (s.reg (pairLo p)) ∧
        U (t.reg (pairHi p)) < U (modified s r imm) ∧
        t.pc = W (U s.pc + 1) ∧ t.flags = s.flags ∧ KeepsBut [pairLo p, pairHi p] [] s t) ∧
    (∀ p imm s, U (s.reg (pairHi p)) < (imm.toNat : Int) →
      ∃ t, exec (.divi (pairNo p) imm) s = .next t ∧
        U (t.reg (pairLo p)) * (imm.toNat : Int) + U (t.reg (pairHi p)) =
          U (s.reg (pairHi p)) * 4294967296 + U (s.reg (pairLo p)) ∧
        U (t.reg (pairHi p)) < (imm.toNat : Int) ∧
        t.pc = W (U s.pc + 1) ∧ t.flags = s.flags ∧ KeepsBut [pairLo p, pairHi p] [] s t)

/-- div and divi: DivisionByZero exactly for divisor 0, QuotientOverflow exactly for a nonzero divisor not above the
high word. Rests on 60_exceptions.md R241, R246; 41_integer_arithmetic.md R127, R128 (unsigned reading). -/
def Obligations.DivisionErrors : Prop :=
    (∀ p r imm s, Raises (.div (pairNo p) (regNo r) imm) s .divisionByZero ↔ U (modified s r imm) = 0) ∧
    (∀ p r imm s, Raises (.div (pairNo p) (regNo r) imm) s .quotientOverflow ↔
      0 < U (modified s r imm) ∧ U (modified s r imm) ≤ U (s.reg (pairHi p))) ∧
    (∀ p (imm : Imm20) s, Raises (.divi (pairNo p) imm) s .divisionByZero ↔ imm.toNat = 0) ∧
    (∀ p (imm : Imm20) s, Raises (.divi (pairNo p) imm) s .quotientOverflow ↔
      0 < (imm.toNat : Int) ∧ (imm.toNat : Int) ≤ U (s.reg (pairHi p)))

/-- The signed and the unsigned reading agree where the spec says they do: mul, div, cmp, itod, dtoi, PUTCHAR. Rests
on 41_integer_arithmetic.md R125, R129; 45_compare_and_jumps.md R201; 43_floating_point.md R167, R168; 40_system.md
R108; 92_eei_decisions.md D6. The name of the refusal of PUTCHAR under the signed reading is the model's (log 28). -/
def Obligations.SignedReadingsAgreeOnTheCautiousSubset : Prop :=
    (∀ a b, lowWord (mulWords true a b) = lowWord (mulWords false a b)) ∧
    (∀ a b : Word, a.msb = false → b.msb = false → mulWords true a b = mulWords false a b) ∧
    (∀ (n : DWord) (d : Word), n.msb = false → d.msb = false → n.toNat / d.toNat < 2147483648 →
      divide true n d = divide false n d) ∧
    (∀ a b : Word, a.msb = b.msb → compareWord true a b = compareWord false a b) ∧
    (∀ w : Word, w.msb = false → fp.fromInt (intOfWord true w) = fp.fromInt (intOfWord false w)) ∧
    (∀ k : Int, 0 ≤ k → k ≤ 2147483647 → floorWord true (some k) = .ok (W k) ∧ floorWord false (some k) = .ok (W k)) ∧
    (∀ isSigned : Bool, floorWord isSigned none = .error .conversionOverflow) ∧
    (∀ w : Word, w.msb = false → charOfWord true w = charOfWord false w) ∧
    (∀ w : Word, w.msb = true → charOfWord true w = .error (.inr .negativeChar) ∧
      charOfWord false w = .error (.inl .charOutOfRange))

/-- lc, not and mov: the immediate, the complement, the modified source. Formalises R140, R151, R152. -/
def Obligations.ConstantNotAndMove : Prop :=
    EncodedRI .lc 12 ∧
    EncodedRI .not 23 ∧
    EncodedRR .mov 24 ∧
    RefusesRI .lc ∧
    RefusesRI .not ∧
    RefusesRR .mov ∧
    (∀ d imm s, GivesReg (.lc (regNo d) imm) s d (W (imm.toNat : Int))) ∧
    (∀ d imm s, GivesReg (.not (regNo d) imm) s d (~~~(s.reg d))) ∧
    (∀ d r imm s, GivesReg (.mov (regNo d) (regNo r) imm) s d (modified s r imm))

/-- shl, shli, shr, shri: multiply or divide by 2^n, and 0 for a count of 32 or more. Formalises R141, R142, R143,
R144. -/
def Obligations.Shifts : Prop :=
    EncodedRR .shl 13 ∧
    EncodedRI .shli 14 ∧
    EncodedRR .shr 15 ∧
    EncodedRI .shri 16 ∧
    RefusesRR .shl ∧
    RefusesRI .shli ∧
    RefusesRR .shr ∧
    RefusesRI .shri ∧
    (∀ d r imm s, GivesReg (.shl (regNo d) (regNo r) imm) s d (if 32 ≤ U (modified s r imm) then 0 else W (U (s.reg d) * 2 ^ (modified s r imm).toNat))) ∧
    (∀ d imm s, GivesReg (.shli (regNo d) imm) s d (if 32 ≤ imm.toNat then 0 else W (U (s.reg d) * 2 ^ imm.toNat))) ∧
    (∀ d r imm s, GivesReg (.shr (regNo d) (regNo r) imm) s d (if 32 ≤ U (modified s r imm) then 0 else W (U (s.reg d) / 2 ^ (modified s r imm).toNat))) ∧
    (∀ d imm s, GivesReg (.shri (regNo d) imm) s d (if 32 ≤ imm.toNat then 0 else W (U (s.reg d) / 2 ^ imm.toNat)))

/-- and, or, xor and their immediate forms: bitwise on the receiver and the second operand. Formalises R145, R146,
R147, R148, R149, R150. -/
def Obligations.BitwiseLogic : Prop :=
    EncodedRR .and 17 ∧
    EncodedRI .andi 18 ∧
    RefusesRR .and ∧
    RefusesRI .andi ∧
    (∀ d r imm s, GivesReg (.and (regNo d) (regNo r) imm) s d (s.reg d &&& modified s r imm)) ∧
    (∀ d imm s, GivesReg (.andi (regNo d) imm) s d (s.reg d &&& W (imm.toNat : Int))) ∧
    EncodedRR .or 19 ∧
    EncodedRI .ori 20 ∧
    RefusesRR .or ∧
    RefusesRI .ori ∧
    (∀ d r imm s, GivesReg (.or (regNo d) (regNo r) imm) s d (s.reg d ||| modified s r imm)) ∧
    (∀ d imm s, GivesReg (.ori (regNo d) imm) s d (s.reg d ||| W (imm.toNat : Int))) ∧
    EncodedRR .xor 21 ∧
    EncodedRI .xori 22 ∧
    RefusesRR .xor ∧
    RefusesRI .xori ∧
    (∀ d r imm s, GivesReg (.xor (regNo d) (regNo r) imm) s d (s.reg d ^^^ modified s r imm)) ∧
    (∀ d imm s, GivesReg (.xori (regNo d) imm) s d (s.reg d ^^^ W (imm.toNat : Int)))

/-- addd, subd, muld, divd: FP of the receiver pair and the modified source pair, in the receiver pair. Rests on
43_floating_point.md R161 to R166, R169. That a NaN has exponent field 2047 and a nonzero fraction is decision D15
(log 10), and that a NaN result counts one draw is the model's own (log 9). FloatingPointResultsAreCorrectlyRounded
and FloatingPointSpecialValues say what FP.op is. -/
def Obligations.FloatingPointArithmetic : Prop :=
    EncodedRR .addd 32 ∧
    RefusesPairPair .addd ∧
    (∀ p q imm s, GivesFp (.addd (pairNo p) (pairNo q) imm) s p (fp.add (s.pair p) (modifiedPair s q imm))) ∧
    EncodedRR .subd 33 ∧
    RefusesPairPair .subd ∧
    (∀ p q imm s, GivesFp (.subd (pairNo p) (pairNo q) imm) s p (fp.sub (s.pair p) (modifiedPair s q imm))) ∧
    EncodedRR .muld 34 ∧
    RefusesPairPair .muld ∧
    (∀ p q imm s, GivesFp (.muld (pairNo p) (pairNo q) imm) s p (fp.mul (s.pair p) (modifiedPair s q imm))) ∧
    EncodedRR .divd 35 ∧
    RefusesPairPair .divd ∧
    (∀ p q imm s, GivesFp (.divd (pairNo p) (pairNo q) imm) s p (fp.div (s.pair p) (modifiedPair s q imm)))

/-- NaN, infinities, zeros and division by zero in the floating-point operations. Rests on 43_floating_point.md R162,
R166, R169; 45_compare_and_jumps.md R203. The arithmetic is the spec's decision D15, supplied from general knowledge
(log 10). -/
def Obligations.FloatingPointSpecialValues : Prop :=
    (∀ a b : DWord, Ieee.IsNaN a ∨ Ieee.IsNaN b →
      fp.add a b = .nan ∧ fp.sub a b = .nan ∧ fp.mul a b = .nan ∧ fp.div a b = .nan ∧ fp.compare a b = .unordered) ∧
    (∀ m n : Bool,
      fp.add (infBits m) (infBits n) = (if m = n then .value (infBits m) else .nan) ∧
      fp.sub (infBits m) (infBits n) = (if m = n then .nan else .value (infBits m)) ∧
      fp.mul (infBits m) (infBits n) = .value (infBits (m ^^ n)) ∧
      fp.mul (zeroBits m) (infBits n) = .nan ∧ fp.mul (infBits m) (zeroBits n) = .nan ∧
      fp.div (infBits m) (infBits n) = .nan ∧ fp.div (zeroBits m) (zeroBits n) = .nan ∧
      fp.div (infBits m) (zeroBits n) = .value (infBits (m ^^ n)) ∧
      fp.compare (zeroBits m) (zeroBits n) = .equal) ∧
    (∀ (a : DWord) (n : Bool), Ieee.IsFinite a →
      fp.add a (infBits n) = .value (infBits n) ∧ fp.add (infBits n) a = .value (infBits n) ∧
      fp.sub a (infBits n) = .value (infBits (!n)) ∧ fp.sub (infBits n) a = .value (infBits n) ∧
      fp.div a (infBits n) = .value (zeroBits (Ieee.signField a ^^ n)) ∧
      fp.div (infBits n) a = .value (infBits (Ieee.signField a ^^ n)) ∧
      fp.sub a a = .value (zeroBits false)) ∧
    (∀ (a : DWord) (n : Bool), Ieee.IsFinite a → a ≠ zeroBits false → a ≠ zeroBits true →
      fp.div a (zeroBits n) = .value (infBits (Ieee.signField a ^^ n)) ∧
      fp.mul a (infBits n) = .value (infBits (Ieee.signField a ^^ n)) ∧
      fp.mul (infBits n) a = .value (infBits (Ieee.signField a ^^ n)))

/-- Rounding answers a nearest representable number, ties to even, and an infinity above the range. Rests on
43_floating_point.md R160, R162, R169. Rounding is the spec's decision D15 (log 10). -/
def Obligations.RoundingIsToNearestEven : Prop :=
    (∀ m n : Nat,
      2 * ((Ieee.roundShift m n : Int) * 2 ^ n - m).natAbs ≤ 2 ^ n ∧
      (2 * ((Ieee.roundShift m n : Int) * 2 ^ n - m).natAbs = 2 ^ n → Ieee.roundShift m n % 2 = 0)) ∧
    ∀ (neg : Bool) (m : Nat) (k : Int),
      Ieee.RoundsTo neg ((if neg then -1 else 1) * (m : ℚ) * 2 ^ k) (Ieee.round neg m k)

/-- Rounding the value of any finite pattern gives that pattern back. Rests on 43_floating_point.md R160, R162, R169.
The meaning of zeros and subnormals is the spec's decision D15 (log 10). -/
def Obligations.RepresentableValuesRoundToThemselves : Prop :=
    ∀ (d : DWord) (neg : Bool) (m : Nat) (k : Int), Ieee.valueOf d = .finite neg m k →
    Ieee.number d = (if neg then -1 else 1) * (m : ℚ) * 2 ^ k ∧ Ieee.round neg m k = d

/-- Addition and multiplication commute, and comparison the other way round gives the opposite outcome. Rests on
43_floating_point.md R162, R169; 45_compare_and_jumps.md R203. The arithmetic is the spec's decision D15 (log 10). -/
def Obligations.FloatingPointSymmetry : Prop :=
    ∀ a b : DWord, fp.add a b = fp.add b a ∧ fp.mul a b = fp.mul b a ∧
    (fp.compare a b = .less ↔ fp.compare b a = .greater) ∧ (fp.compare a b = .equal ↔ fp.compare b a = .equal) ∧
    (fp.compare a b = .unordered ↔ Ieee.valueOf a = .nan ∨ Ieee.valueOf b = .nan)

/-- itod: the modified source as a floating-point value in the receiver pair. Rests on 43_floating_point.md R167
(unsigned reading). -/
def Obligations.ItodResult : Prop :=
    EncodedRR .itod 36 ∧
    RefusesPairRR .itod ∧
    (∀ p r imm s, GivesPair (.itod (pairNo p) (regNo r) imm) s p (fp.fromInt (U (modified s r imm))))

/-- dtoi: the floor of the source pair if it fits a register, else ConversionOverflow. Rests on 43_floating_point.md
R160, R168, R169 (unsigned reading); 60_exceptions.md R242. The numbers that patterns stand for are the spec's
decision D15 beyond R160 (log 10). -/
def Obligations.DtoiResult : Prop :=
    (∀ (d : DWord) (k : Int), fp.floor d = some k ↔
      Ieee.IsFinite d ∧ (k : ℚ) ≤ Ieee.number d ∧ Ieee.number d < (k : ℚ) + 1) ∧
    (∀ d : DWord, fp.floor d = none ↔ Ieee.exponentField d = 2047) ∧
    EncodedRR .dtoi 37 ∧
    (∀ rd rs imm s, rd = 15 ∨ rs = 14 ∨ rs = 15 → exec (.dtoi rd rs imm) s = refuse .reg15) ∧
    (∀ d q imm s k, fp.floor (modifiedPair s q imm) = some k → 0 ≤ k → k < 4294967296 →
      GivesReg (.dtoi (regNo d) (pairNo q) imm) s d (W k)) ∧
    (∀ d q imm s k, fp.floor (modifiedPair s q imm) = some k → k < 0 ∨ 4294967296 ≤ k →
      Raises (.dtoi (regNo d) (pairNo q) imm) s .conversionOverflow) ∧
    (∀ d q imm s, fp.floor (modifiedPair s q imm) = none →
      Raises (.dtoi (regNo d) (pairNo q) imm) s .conversionOverflow)

/-- Converting any word to floating point and back gives the word. Rests on 43_floating_point.md R162, R167, R168.
That FP.fromInt of 0 is +0, and how it rounds, is the spec's decision D15 (log 10). -/
def Obligations.ItodThenDtoiIsExact : Prop :=
    ∀ p r d imm s, ∃ t u, exec (.itod (pairNo p) (regNo r) imm) s = .next t ∧
    exec (.dtoi (regNo d) (pairNo p) 0) t = .next u ∧ u.reg d = modified s r imm

/-- push: the modified register goes to the cell at r14, and r14 is decremented. Formalises R180. -/
def Obligations.PushResult : Prop :=
    EncodedRI .push 38 ∧ RefusesRI .push ∧
    (∀ d imm s, (s.reg sp).toNat < Config.memWords →
      ∃ t, exec (.push (regNo d) imm) s = .next t ∧
        t.cell (s.reg sp).toNat = W (U (s.reg d) + (imm.toNat : Int)) ∧ t.reg sp = W (U (s.reg sp) - 1) ∧
        t.pc = W (U s.pc + 1) ∧ t.flags = s.flags ∧ KeepsBut [sp] [(s.reg sp).toNat] s t) ∧
    (∀ d imm s, Config.memWords ≤ (s.reg sp).toNat → Raises (.push (regNo d) imm) s .addressOutOfRange)

/-- pop: r14 is incremented, and the word there plus the immediate goes to the receiver, written last. Formalises
R181. -/
def Obligations.PopResult : Prop :=
    EncodedRI .pop 39 ∧ RefusesRI .pop ∧
    (∀ d imm s, (W (U (s.reg sp) + 1)).toNat < Config.memWords →
      ∃ t, exec (.pop (regNo d) imm) s = .next t ∧
        t.reg d = W (U (s.cell (W (U (s.reg sp) + 1)).toNat) + (imm.toNat : Int)) ∧
        (d ≠ sp → t.reg sp = W (U (s.reg sp) + 1)) ∧
        t.pc = W (U s.pc + 1) ∧ t.flags = s.flags ∧ KeepsBut [sp, d] [] s t) ∧
    (∀ d imm s, Config.memWords ≤ (W (U (s.reg sp) + 1)).toNat → Raises (.pop (regNo d) imm) s .addressOutOfRange)

/-- call: the return address is pushed and written to the receiver, and control goes to the modified source.
Formalises R182. -/
def Obligations.CallResult : Prop :=
    EncodedRR .call 40 ∧ RefusesRR .call ∧
    (∀ d r imm s, (s.reg sp).toNat < Config.memWords →
      ∃ t, exec (.call (regNo d) (regNo r) imm) s = .next t ∧
        t.cell (s.reg sp).toNat = W (U s.pc + 1) ∧ t.reg d = W (U s.pc + 1) ∧
        (d ≠ sp → t.reg sp = W (U (s.reg sp) - 1)) ∧
        t.pc = modified s r imm ∧ t.flags = s.flags ∧ KeepsBut [sp, d] [(s.reg sp).toNat] s t) ∧
    (∀ d r imm s, Config.memWords ≤ (s.reg sp).toNat → Raises (.call (regNo d) (regNo r) imm) s .addressOutOfRange)

/-- calli: the return address is pushed, and control goes to the absolute address. Formalises R183. -/
def Obligations.CalliResult : Prop :=
    EncodedJ .calli 41 ∧
    (∀ addr s, (s.reg sp).toNat < Config.memWords →
      ∃ t, exec (.calli addr) s = .next t ∧
        t.cell (s.reg sp).toNat = W (U s.pc + 1) ∧ t.reg sp = W (U (s.reg sp) - 1) ∧
        t.pc = W (addr.toNat : Int) ∧ t.flags = s.flags ∧ KeepsBut [sp] [(s.reg sp).toNat] s t) ∧
    (∀ addr s, Config.memWords ≤ (s.reg sp).toNat → Raises (.calli addr) s .addressOutOfRange)

/-- ret: n words are ejected before the return address is popped. Formalises R184. -/
def Obligations.RetResult : Prop :=
    EncodedJ .ret 42 ∧
    (∀ (n : Addr) s, (W (U (s.reg sp) + (n.toNat : Int) + 1)).toNat < Config.memWords →
      ∃ t, exec (.ret n) s = .next t ∧ t.reg sp = W (U (s.reg sp) + (n.toNat : Int) + 1) ∧
        t.pc = s.cell (W (U (s.reg sp) + (n.toNat : Int) + 1)).toNat ∧ t.flags = s.flags ∧ KeepsBut [sp] [] s t) ∧
    (∀ (n : Addr) s, Config.memWords ≤ (W (U (s.reg sp) + (n.toNat : Int) + 1)).toNat →
      Raises (.ret n) s .addressOutOfRange)

/-- push rX, 0 followed by pop rY, 0 copies rX to rY and restores r14. Rests on 44_stack_and_calls.md R180, R181. -/
def Obligations.PushThenPopCopiesAndRestores : Prop :=
    ∀ d e s, (s.reg sp).toNat < Config.memWords → e ≠ sp →
    ∃ t u, exec (.push (regNo d) 0) s = .next t ∧ exec (.pop (regNo e) 0) t = .next u ∧
      u.reg e = s.reg d ∧ u.reg sp = s.reg sp

/-- calli, or call with a receiver other than r14, followed by ret 0 returns to the following command. Rests on
44_stack_and_calls.md R182 to R185. -/
def Obligations.CallThenRetZeroReturns : Prop :=
    (∀ addr s, (s.reg sp).toNat < Config.memWords →
      ∃ t u, exec (.calli addr) s = .next t ∧ exec (.ret 0) t = .next u ∧
        u.pc = W (U s.pc + 1) ∧ u.reg sp = s.reg sp) ∧
    (∀ d r imm s, (s.reg sp).toNat < Config.memWords → d ≠ sp →
      ∃ t u, exec (.call (regNo d) (regNo r) imm) s = .next t ∧ exec (.ret 0) t = .next u ∧
        u.pc = W (U s.pc + 1) ∧ u.reg sp = s.reg sp)

/-- cmp and cmpi: all six flags by the order of the receiver and the second operand. Rests on 45_compare_and_jumps.md
R200, R201, R202 (unsigned reading). -/
def Obligations.CmpAndCmpi : Prop :=
    EncodedRR .cmp 43 ∧
    EncodedRI .cmpi 44 ∧
    RefusesRR .cmp ∧
    RefusesRI .cmpi ∧
    (∀ d r imm s, U (s.reg d) = U (modified s r imm) → GivesFlags (.cmp (regNo d) (regNo r) imm) s 0b110001#6) ∧
    (∀ d r imm s, U (modified s r imm) < U (s.reg d) → GivesFlags (.cmp (regNo d) (regNo r) imm) s 0b010110#6) ∧
    (∀ d r imm s, U (s.reg d) < U (modified s r imm) → GivesFlags (.cmp (regNo d) (regNo r) imm) s 0b101010#6) ∧
    (∀ d (imm : Imm20) s, U (s.reg d) = (imm.toNat : Int) → GivesFlags (.cmpi (regNo d) imm) s 0b110001#6) ∧
    (∀ d (imm : Imm20) s, (imm.toNat : Int) < U (s.reg d) → GivesFlags (.cmpi (regNo d) imm) s 0b010110#6) ∧
    (∀ d (imm : Imm20) s, U (s.reg d) < (imm.toNat : Int) → GivesFlags (.cmpi (regNo d) imm) s 0b101010#6)

/-- cmpd: all six flags by the order of the two floating-point values. Rests on 43_floating_point.md R160, R169;
45_compare_and_jumps.md R200, R203. The order beyond normal numbers is the spec's decision D15 (log 10). -/
def Obligations.CmpdResult : Prop :=
    (∀ a b : DWord, Ieee.IsFinite a → Ieee.IsFinite b →
      (fp.compare a b = .equal ↔ Ieee.number a = Ieee.number b) ∧
      (fp.compare a b = .greater ↔ Ieee.number b < Ieee.number a) ∧
      (fp.compare a b = .less ↔ Ieee.number a < Ieee.number b)) ∧
    (∀ a : DWord, Ieee.IsFinite a →
      fp.compare (infBits false) a = .greater ∧ fp.compare a (infBits false) = .less ∧
      fp.compare (infBits true) a = .less ∧ fp.compare a (infBits true) = .greater) ∧
    (fp.compare (infBits false) (infBits false) = .equal ∧ fp.compare (infBits true) (infBits true) = .equal ∧
      fp.compare (infBits false) (infBits true) = .greater ∧ fp.compare (infBits true) (infBits false) = .less) ∧
    (∀ a b : DWord, fp.compare a b = .unordered ↔ Ieee.IsNaN a ∨ Ieee.IsNaN b) ∧
    EncodedRR .cmpd 45 ∧ RefusesPairPair .cmpd ∧
    (∀ p q imm s, GivesFlags (.cmpd (pairNo p) (pairNo q) imm) s
      (match fp.compare (s.pair p) (modifiedPair s q imm) with
        | .equal => 0b110001#6
        | .greater => 0b010110#6
        | .less => 0b101010#6
        | .unordered => 0b000010#6))

/-- Each bit a comparison sets is 1 exactly when its condition holds. Rests on 10_state.md R27;
45_compare_and_jumps.md R200. -/
def Obligations.FlagBitsAreTheConditions : Prop :=
    ∀ a b : Int,
    ((flagsOf (compareInt a b)).getLsbD 0 = true ↔ a = b) ∧ ((flagsOf (compareInt a b)).getLsbD 1 = true ↔ a ≠ b) ∧
    ((flagsOf (compareInt a b)).getLsbD 2 = true ↔ b < a) ∧ ((flagsOf (compareInt a b)).getLsbD 3 = true ↔ a < b) ∧
    ((flagsOf (compareInt a b)).getLsbD 4 = true ↔ b ≤ a) ∧ ((flagsOf (compareInt a b)).getLsbD 5 = true ↔ a ≤ b)

/-- jmp always jumps; each conditional jump jumps exactly when its own flags bit is 1. Formalises R204, R205, R206,
R207, R208, R209, R210. -/
def Obligations.JumpsGoWhereTheirFlagSays : Prop :=
    EncodedJ .jmp 46 ∧
    (∀ addr s, GoesTo (.jmp addr) s (W (addr.toNat : Int))) ∧
    EncodedJ .jne 47 ∧
    (∀ (addr : Addr) s, GoesTo (.jne addr) s (if s.flags.getLsbD 1 then W (addr.toNat : Int) else W (U s.pc + 1))) ∧
    EncodedJ .jeq 48 ∧
    (∀ (addr : Addr) s, GoesTo (.jeq addr) s (if s.flags.getLsbD 0 then W (addr.toNat : Int) else W (U s.pc + 1))) ∧
    EncodedJ .jle 49 ∧
    (∀ (addr : Addr) s, GoesTo (.jle addr) s (if s.flags.getLsbD 5 then W (addr.toNat : Int) else W (U s.pc + 1))) ∧
    EncodedJ .jl 50 ∧
    (∀ (addr : Addr) s, GoesTo (.jl addr) s (if s.flags.getLsbD 3 then W (addr.toNat : Int) else W (U s.pc + 1))) ∧
    EncodedJ .jge 51 ∧
    (∀ (addr : Addr) s, GoesTo (.jge addr) s (if s.flags.getLsbD 4 then W (addr.toNat : Int) else W (U s.pc + 1))) ∧
    EncodedJ .jg 52 ∧
    (∀ (addr : Addr) s, GoesTo (.jg addr) s (if s.flags.getLsbD 2 then W (addr.toNat : Int) else W (U s.pc + 1)))

/-- load and load2: one or two cells at the absolute address to a register or a pair. Formalises R221, R223. -/
def Obligations.AbsoluteLoads : Prop :=
    EncodedRM .load 64 ∧ EncodedRM .load2 66 ∧ RefusesRI .load ∧ RefusesPairRI .load2 ∧
    (∀ d (addr : Addr) s, GivesReg (.load (regNo d) addr) s d (s.cell addr.toNat)) ∧
    (∀ p (addr : Addr) s, addr.toNat + 1 < Config.memWords →
      GivesPair (.load2 (pairNo p) addr) s p (s.cell (addr.toNat + 1) ++ s.cell addr.toNat)) ∧
    (∀ p (addr : Addr) s, Config.memWords ≤ addr.toNat + 1 → Raises (.load2 (pairNo p) addr) s .addressOutOfRange)

/-- store and store2: a register or a pair to one or two cells at the absolute address. Formalises R222, R224. -/
def Obligations.AbsoluteStores : Prop :=
    EncodedRM .store 65 ∧ EncodedRM .store2 67 ∧ RefusesRI .store ∧ RefusesPairRI .store2 ∧
    (∀ d (addr : Addr) s, StoresCell (.store (regNo d) addr) s addr.toNat (s.reg d)) ∧
    (∀ p (addr : Addr) s, addr.toNat + 1 < Config.memWords →
      StoresCells (.store2 (pairNo p) addr) s addr.toNat (s.reg (pairLo p)) (s.reg (pairHi p))) ∧
    (∀ p (addr : Addr) s, Config.memWords ≤ addr.toNat + 1 → Raises (.store2 (pairNo p) addr) s .addressOutOfRange)

/-- loadr and loadr2: one or two cells at the modified source to a register or a pair. Formalises R225, R227. -/
def Obligations.RegisterLoads : Prop :=
    EncodedRR .loadr 68 ∧ EncodedRR .loadr2 70 ∧ RefusesRR .loadr ∧ RefusesPairRR .loadr2 ∧
    (∀ d r imm s, (modified s r imm).toNat < Config.memWords →
      GivesReg (.loadr (regNo d) (regNo r) imm) s d (s.cell (modified s r imm).toNat)) ∧
    (∀ d r imm s, Config.memWords ≤ (modified s r imm).toNat →
      Raises (.loadr (regNo d) (regNo r) imm) s .addressOutOfRange) ∧
    (∀ p r imm s, (modified s r imm).toNat + 1 < Config.memWords →
      GivesPair (.loadr2 (pairNo p) (regNo r) imm) s p
        (s.cell ((modified s r imm).toNat + 1) ++ s.cell (modified s r imm).toNat)) ∧
    (∀ p r imm s, Config.memWords ≤ (modified s r imm).toNat + 1 →
      Raises (.loadr2 (pairNo p) (regNo r) imm) s .addressOutOfRange)

/-- storer and storer2: the first register or pair to one or two cells at the modified second register. Formalises
R226, R228. -/
def Obligations.RegisterStores : Prop :=
    EncodedRR .storer 69 ∧ EncodedRR .storer2 71 ∧ RefusesRR .storer ∧ RefusesPairRR .storer2 ∧
    (∀ d r imm s, (modified s r imm).toNat < Config.memWords →
      StoresCell (.storer (regNo d) (regNo r) imm) s (modified s r imm).toNat (s.reg d)) ∧
    (∀ d r imm s, Config.memWords ≤ (modified s r imm).toNat →
      Raises (.storer (regNo d) (regNo r) imm) s .addressOutOfRange) ∧
    (∀ p r imm s, (modified s r imm).toNat + 1 < Config.memWords →
      StoresCells (.storer2 (pairNo p) (regNo r) imm) s (modified s r imm).toNat (s.reg (pairLo p)) (s.reg (pairHi p))) ∧
    (∀ p r imm s, Config.memWords ≤ (modified s r imm).toNat + 1 →
      Raises (.storer2 (pairNo p) (regNo r) imm) s .addressOutOfRange)

/-- halt and EXIT stop the machine, leaving everything else as it was. Formalises R100, R102. -/
def Obligations.HaltAndExitStopTheMachine : Prop :=
    EncodedRI .halt 0 ∧ EncodedRI .syscall 1 ∧
    (∀ rd imm s, exec (.halt rd imm) s = .next (s.setStatus .halted)) ∧
    (∀ rd s, exec (.syscall rd 0) s = .next (s.setStatus .exited))

/-- SCANINT, SCANDOUBLE and GETCHAR: the host answer goes to the receiver, or HostInput is refused. Rests on
40_system.md R103, R104, R107, R110. The list of answers is the model's form of the host's input (log 8). -/
def Obligations.InputCallsTakeTheHostsAnswer : Prop :=
    (∀ d s v rest, s.hostIn = .int v :: rest → ∃ t, exec (.syscall (regNo d) 100) s = .next t ∧ t.reg d = v ∧
      t.pc = W (U s.pc + 1) ∧ t.flags = s.flags ∧ KeepsBut [d] [] (s.setHostIn rest) t) ∧
    (∀ p s v rest, s.hostIn = .double v :: rest → ∃ t, exec (.syscall (pairNo p) 101) s = .next t ∧
      t.reg (pairLo p) = lowWord v ∧ t.reg (pairHi p) = highWord v ∧
      t.pc = W (U s.pc + 1) ∧ t.flags = s.flags ∧ KeepsBut [pairLo p, pairHi p] [] (s.setHostIn rest) t) ∧
    (∀ d s c rest, s.hostIn = .char c :: rest → ∃ t, exec (.syscall (regNo d) 104) s = .next t ∧
      t.reg d = W (c.toNat : Int) ∧
      t.pc = W (U s.pc + 1) ∧ t.flags = s.flags ∧ KeepsBut [d] [] (s.setHostIn rest) t) ∧
    (∀ d s, (∀ v rest, s.hostIn ≠ .int v :: rest) → exec (.syscall (regNo d) 100) s = refuse .hostInput) ∧
    (∀ p s, (∀ v rest, s.hostIn ≠ .double v :: rest) → exec (.syscall (pairNo p) 101) s = refuse .hostInput) ∧
    (∀ d s, (∀ c rest, s.hostIn ≠ .char c :: rest) → exec (.syscall (regNo d) 104) s = refuse .hostInput) ∧
    (∀ s, exec (.syscall 15 100) s = refuse .reg15 ∧ exec (.syscall 15 104) s = refuse .reg15 ∧
      exec (.syscall 14 101) s = refuse .reg15 ∧ exec (.syscall 15 101) s = refuse .reg15)

/-- PRINTINT, PRINTDOUBLE and PUTCHAR append their event; PUTCHAR above 255 raises CharOutOfRange. Rests on
40_system.md R105, R106, R108; 60_exceptions.md R243; 10_state.md R23, R32. -/
def Obligations.OutputCallsAppendOneEvent : Prop :=
    (∀ d s, ∃ t, exec (.syscall (regNo d) 102) s = .next t ∧ t.outTrace = s.outTrace ++ [.int (s.reg d)] ∧
      t.pc = W (U s.pc + 1) ∧ t.flags = s.flags ∧ KeepsBut [] [] (s.setOutTrace t.outTrace) t) ∧
    (∀ p s, ∃ t, exec (.syscall (pairNo p) 103) s = .next t ∧
      t.outTrace = s.outTrace ++ [.double (s.reg (pairHi p) ++ s.reg (pairLo p))] ∧
      t.pc = W (U s.pc + 1) ∧ t.flags = s.flags ∧ KeepsBut [] [] (s.setOutTrace t.outTrace) t) ∧
    (∀ d s, U (s.reg d) ≤ 255 → ∃ t, exec (.syscall (regNo d) 105) s = .next t ∧
      t.outTrace = s.outTrace ++ [.char (BitVec.ofNat 8 (s.reg d).toNat)] ∧
      t.pc = W (U s.pc + 1) ∧ t.flags = s.flags ∧ KeepsBut [] [] (s.setOutTrace t.outTrace) t) ∧
    (∀ d s, 255 < U (s.reg d) → Raises (.syscall (regNo d) 105) s .charOutOfRange) ∧
    (∀ s, exec (.syscall 15 102) s = refuse .reg15 ∧ exec (.syscall 15 105) s = refuse .reg15 ∧
      exec (.syscall 14 103) s = refuse .reg15 ∧ exec (.syscall 15 103) s = refuse .reg15)

/-- syscall with any other code raises UnknownSyscall, after register number 15 is refused. Formalises R109, R245. -/
def Obligations.UnknownCallCodesRaiseAnError : Prop :=
    ∀ imm : Imm20, imm.toNat ≠ 0 → imm.toNat < 100 ∨ 105 < imm.toNat →
    (∀ d s, Raises (.syscall (regNo d) imm) s .unknownSyscall) ∧ ∀ s, exec (.syscall 15 imm) s = refuse .reg15

/-- A store into the next cell determines the next command executed. Rests on 70_reset_and_hazards.md R281;
20_memory.md R53. -/
def Obligations.StoreIntoTheNextCellIsExecuted : Prop :=
    ∀ (s : State) d addr j, s.Running → s.pc.toNat + 1 < Config.memWords →
    decode (s.cell s.pc.toNat) = .ok (.store (regNo d) addr) → addr.toNat = s.pc.toNat + 1 →
    decode (s.reg d) = .ok j → ∃ t, step s = .next t ∧ step t = exec j t

/-- The k-th command of a program is in cell k, a label stands for the next command, and a step there runs it. Rests
on 30_encoding.md R77, R79, R81, R83; 70_reset_and_hazards.md R271, R272, R273. The form of a `Program`, what a
repeated label or one with no command after it stands for, that case counts (log 27), and which launch state `launch`
is (log 5), are the model's. -/
def Obligations.ProgramsArePlacedFromCellZero : Prop :=
    ∀ p : Program,
    (∀ (k : Nat) (i : Instr), p.commands[k]? = some i → p.image.lookup k = some (encode i)) ∧
    (∀ a, p.commands.length ≤ a → p.image.lookup a = none) ∧
    (∀ before l after name, p.lines = before ++ l :: after → l.label = some name →
      (∀ l' ∈ before, l'.label ≠ some name) →
      p.labelValue name = some (before.filter fun l' => l'.command.isSome).length) ∧
    (p.fits → p.image.wf ∧
      ∀ entry, Launch p.image entry (launch p.image entry) ∧ (launch p.image entry).mem.wf) ∧
    ∀ entry s i, Launch p.image entry s → p.commands[entry.toNat]? = some i → step s = exec i s

/-- FP.add, sub, mul, div of finite values and FP.fromInt are the exact result rounded to nearest even. Rests on
43_floating_point.md R162 to R167, R169. The arithmetic is the spec's decision D15, supplied from general knowledge
(log 10). -/
def Obligations.FloatingPointResultsAreCorrectlyRounded : Prop :=
    (∀ a b : DWord, Ieee.IsFinite a → Ieee.IsFinite b →
      (∃ d, fp.add a b = .value d ∧
        Ieee.RoundsTo (if Ieee.number a + Ieee.number b = 0 then Ieee.signField a && Ieee.signField b
          else decide (Ieee.number a + Ieee.number b < 0)) (Ieee.number a + Ieee.number b) d) ∧
      (∃ d, fp.sub a b = .value d ∧
        Ieee.RoundsTo (if Ieee.number a - Ieee.number b = 0 then Ieee.signField a && !Ieee.signField b
          else decide (Ieee.number a - Ieee.number b < 0)) (Ieee.number a - Ieee.number b) d) ∧
      (∃ d, fp.mul a b = .value d ∧
        Ieee.RoundsTo (Ieee.signField a ^^ Ieee.signField b) (Ieee.number a * Ieee.number b) d) ∧
      (Ieee.number b ≠ 0 → ∃ d, fp.div a b = .value d ∧
        Ieee.RoundsTo (Ieee.signField a ^^ Ieee.signField b) (Ieee.number a / Ieee.number b) d)) ∧
    ∀ k : Int, Ieee.RoundsTo (decide (k < 0)) (k : ℚ) (fp.fromInt k)
end

