-- ==== Sys2Proof/Laws/Encoding.lean ====
section
/-! SUPPORT. What the field readers answer on the words that the encoders write (30_encoding.md R61 to R65). -/

namespace Sys2Proof

theorem extract_append_high {a b : Nat} (x : BitVec a) (y : BitVec b) : (x ++ y).extractLsb' b a = x := by
  apply BitVec.eq_of_getLsbD_eq
  intro i hi
  have h : (x ++ y).getLsbD (b + i) = x.getLsbD i :=
    BitVec.getLsbD_append.trans (by rw [if_neg (by omega), Nat.add_sub_cancel_left])
  simpa [hi] using h

theorem extract_append_low {a b k n : Nat} (x : BitVec a) (y : BitVec b) (h : k + n ≤ b) :
    (x ++ y).extractLsb' k n = y.extractLsb' k n := by
  apply BitVec.eq_of_getLsbD_eq
  intro i hi
  have h' : (x ++ y).getLsbD (k + i) = y.getLsbD (k + i) := BitVec.getLsbD_append.trans (if_pos (by omega))
  simpa [hi] using h'

theorem extract_append_mid {a b k n : Nat} (x : BitVec a) (y : BitVec b) (h : b ≤ k) :
    (x ++ y).extractLsb' k n = x.extractLsb' (k - b) n := by
  apply BitVec.eq_of_getLsbD_eq
  intro i hi
  have h' : (x ++ y).getLsbD (k + i) = x.getLsbD (k - b + i) :=
    BitVec.getLsbD_append.trans (by rw [if_neg (by omega), show k + i - b = k - b + i by omega])
  simpa [hi] using h'

theorem extract_all {n : Nat} (x : BitVec n) : x.extractLsb' 0 n = x := by
  apply BitVec.eq_of_getLsbD_eq
  intro i hi
  simp [hi]

/-! ### Format RR (R63) -/

section
variable (c : BitVec 8) (rd rs x : RegNo) (imm : Imm16) (imm20 : Imm20) (addr : Addr)

@[simp] theorem codeField_rr : codeField (c ++ rd ++ rs ++ imm) = c := by
  refine (extract_append_mid (c ++ rd ++ rs) imm (by decide)).trans ?_
  refine (extract_append_mid (c ++ rd) rs (by decide)).trans ?_
  exact extract_append_high c rd

@[simp] theorem rdField_rr : rdField (c ++ rd ++ rs ++ imm) = rd := by
  refine (extract_append_mid (c ++ rd ++ rs) imm (by decide)).trans ?_
  refine (extract_append_mid (c ++ rd) rs (by decide)).trans ?_
  exact (extract_append_low c rd (by decide)).trans (extract_all rd)

@[simp] theorem rsField_rr : rsField (c ++ rd ++ rs ++ imm) = rs := by
  refine (extract_append_mid (c ++ rd ++ rs) imm (by decide)).trans ?_
  exact (extract_append_low (c ++ rd) rs (by decide)).trans (extract_all rs)

@[simp] theorem imm16Field_rr : imm16Field (c ++ rd ++ rs ++ imm) = imm :=
  (extract_append_low (c ++ rd ++ rs) imm (by decide)).trans (extract_all imm)

/-! ### Formats RI, RM and J (R62, R64, R65): eight bits, four bits, twenty bits -/

@[simp] theorem codeField_ri : codeField (c ++ x ++ imm20) = c := by
  refine (extract_append_mid (c ++ x) imm20 (by decide)).trans ?_
  exact extract_append_high c x

@[simp] theorem rdField_ri : rdField (c ++ x ++ imm20) = x := by
  refine (extract_append_mid (c ++ x) imm20 (by decide)).trans ?_
  exact (extract_append_low c x (by decide)).trans (extract_all x)

@[simp] theorem imm20Field_ri : imm20Field (c ++ x ++ imm20) = imm20 :=
  (extract_append_low (c ++ x) imm20 (by decide)).trans (extract_all imm20)

@[simp] theorem addrField_rm : addrField (c ++ x ++ addr) = addr :=
  (extract_append_low (c ++ x) addr (by decide)).trans (extract_all addr)

end

/-! ### A word is its fields -/

/-- Two fields of a word that lie side by side, put together, are one field. -/
theorem extract_append_extract {n k l : Nat} (w : BitVec n) (b : Nat) (hk : k = b + l) (a : Nat) :
    w.extractLsb' k a ++ w.extractLsb' b l = w.extractLsb' b (a + l) := by
  apply BitVec.eq_of_getLsbD_eq
  intro i hi
  refine BitVec.getLsbD_append.trans ?_
  simp only [BitVec.getLsbD_extractLsb']
  split
  · simp [show i < l by assumption, hi]
  · simp [hk, show i - l < a by omega, show b + l + (i - l) = b + i by omega, hi]

theorem eq_of_fields_rr (w : Word) : (codeField w ++ rdField w ++ rsField w ++ imm16Field w : Word) = w := by
  have h1 : codeField w ++ rdField w = w.extractLsb' 20 12 := extract_append_extract w 20 rfl 8
  have h2 : w.extractLsb' 20 12 ++ rsField w = w.extractLsb' 16 16 := extract_append_extract w 16 rfl 12
  have h3 : w.extractLsb' 16 16 ++ imm16Field w = w.extractLsb' 0 32 := extract_append_extract w 0 rfl 16
  exact (congrArg (fun x : BitVec 12 => x ++ rsField w ++ imm16Field w) h1).trans
    ((congrArg (fun x : BitVec 16 => x ++ imm16Field w) h2).trans (h3.trans (extract_all w)))

theorem eq_of_fields_ri (w : Word) : (codeField w ++ rdField w ++ imm20Field w : Word) = w := by
  have h1 : codeField w ++ rdField w = w.extractLsb' 20 12 := extract_append_extract w 20 rfl 8
  have h2 : w.extractLsb' 20 12 ++ imm20Field w = w.extractLsb' 0 32 := extract_append_extract w 0 rfl 12
  exact (congrArg (fun x : BitVec 12 => x ++ imm20Field w) h1).trans (h2.trans (extract_all w))

/-- The address field of formats RM and J is where the immediate of format RI is. -/
theorem eq_of_fields_rm (w : Word) : (codeField w ++ rdField w ++ addrField w : Word) = w := eq_of_fields_ri w

/-! ### The encoders' words -/

@[simp] theorem codeField_encodeRR (c : BitVec 8) (rd rs : RegNo) (imm : Imm16) : codeField (encodeRR c rd rs imm) = c :=
  codeField_rr ..

@[simp] theorem codeField_encodeRI (c : BitVec 8) (rd : RegNo) (imm : Imm20) : codeField (encodeRI c rd imm) = c :=
  codeField_ri ..

@[simp] theorem codeField_encodeRM (c : BitVec 8) (rd : RegNo) (addr : Addr) : codeField (encodeRM c rd addr) = c :=
  codeField_ri ..

@[simp] theorem codeField_encodeJ (c : BitVec 8) (addr : Addr) : codeField (encodeJ c addr) = c := codeField_ri ..

@[simp] theorem addrField_encodeJ (c : BitVec 8) (addr : Addr) : addrField (encodeJ c addr) = addr := addrField_rm ..

/-! ### When the commands of a constructor are the words of a format with one code -/

theorem encodedRR_of {mk : RegNo → RegNo → Imm16 → Instr} {c : BitVec 8}
    (he : ∀ rd rs imm, encode (mk rd rs imm) = c ++ rd ++ rs ++ imm)
    (hd : ∀ w, codeField w = c → decode w = .ok (mk (rdField w) (rsField w) (imm16Field w))) :
    Machine.EncodedRR mk c := by
  intro rd rs imm
  refine ⟨he _ _ _, ?_⟩
  rw [hd _ (codeField_rr ..), rdField_rr, rsField_rr, imm16Field_rr]

theorem encodedRI_of {mk : RegNo → Imm20 → Instr} {c : BitVec 8}
    (he : ∀ rd imm, encode (mk rd imm) = c ++ rd ++ imm)
    (hd : ∀ w, codeField w = c → decode w = .ok (mk (rdField w) (imm20Field w))) : Machine.EncodedRI mk c := by
  intro rd imm
  refine ⟨he _ _, ?_⟩
  rw [hd _ (codeField_ri ..), rdField_ri, imm20Field_ri]

theorem encodedRM_of {mk : RegNo → Addr → Instr} {c : BitVec 8}
    (he : ∀ rd addr, encode (mk rd addr) = c ++ rd ++ addr)
    (hd : ∀ w, codeField w = c → decode w = .ok (mk (rdField w) (addrField w))) : Machine.EncodedRM mk c := by
  intro rd addr
  refine ⟨he _ _, ?_⟩
  rw [hd _ (codeField_ri ..), rdField_ri, addrField_rm]

theorem encodedJ_of {mk : Addr → Instr} {c : BitVec 8} (he : ∀ addr, encode (mk addr) = c ++ 0#4 ++ addr)
    (hd : ∀ w, codeField w = c → decode w = .ok (mk (addrField w))) : Machine.EncodedJ mk c := by
  intro addr x
  refine ⟨he _, ?_⟩
  rw [hd _ (codeField_ri ..), addrField_rm]

end Sys2Proof
end

