-- ==== Sys2Proof/Laws/State.lean ====
section
/-! SUPPORT. What each update of the state does to each field, and to what is read through the accessors: true by
unfolding, so that no later proof unfolds a record update. -/

namespace Sys2Proof.Machine

/-! ### Fields -/

@[simp] theorem State.regs_setRegs (s : State) (v : Vector Word Config.nusable) : (s.setRegs v).regs = v := rfl
@[simp] theorem State.pc_setRegs (s : State) (v : Vector Word Config.nusable) : (s.setRegs v).pc = s.pc := rfl
@[simp] theorem State.flags_setRegs (s : State) (v : Vector Word Config.nusable) : (s.setRegs v).flags = s.flags := rfl
@[simp] theorem State.mem_setRegs (s : State) (v : Vector Word Config.nusable) : (s.setRegs v).mem = s.mem := rfl
@[simp] theorem State.status_setRegs (s : State) (v : Vector Word Config.nusable) :
    (s.setRegs v).status = s.status := rfl
@[simp] theorem State.hostIn_setRegs (s : State) (v : Vector Word Config.nusable) :
    (s.setRegs v).hostIn = s.hostIn := rfl
@[simp] theorem State.outTrace_setRegs (s : State) (v : Vector Word Config.nusable) :
    (s.setRegs v).outTrace = s.outTrace := rfl
@[simp] theorem State.nanDraws_setRegs (s : State) (v : Vector Word Config.nusable) :
    (s.setRegs v).nanDraws = s.nanDraws := rfl

@[simp] theorem State.regs_setPc (s : State) (v : Word) : (s.setPc v).regs = s.regs := rfl
@[simp] theorem State.pc_setPc (s : State) (v : Word) : (s.setPc v).pc = v := rfl
@[simp] theorem State.flags_setPc (s : State) (v : Word) : (s.setPc v).flags = s.flags := rfl
@[simp] theorem State.mem_setPc (s : State) (v : Word) : (s.setPc v).mem = s.mem := rfl
@[simp] theorem State.status_setPc (s : State) (v : Word) : (s.setPc v).status = s.status := rfl
@[simp] theorem State.hostIn_setPc (s : State) (v : Word) : (s.setPc v).hostIn = s.hostIn := rfl
@[simp] theorem State.outTrace_setPc (s : State) (v : Word) : (s.setPc v).outTrace = s.outTrace := rfl
@[simp] theorem State.nanDraws_setPc (s : State) (v : Word) : (s.setPc v).nanDraws = s.nanDraws := rfl

@[simp] theorem State.regs_setFlags (s : State) (v : BitVec 6) : (s.setFlags v).regs = s.regs := rfl
@[simp] theorem State.pc_setFlags (s : State) (v : BitVec 6) : (s.setFlags v).pc = s.pc := rfl
@[simp] theorem State.flags_setFlags (s : State) (v : BitVec 6) : (s.setFlags v).flags = v := rfl
@[simp] theorem State.mem_setFlags (s : State) (v : BitVec 6) : (s.setFlags v).mem = s.mem := rfl
@[simp] theorem State.status_setFlags (s : State) (v : BitVec 6) : (s.setFlags v).status = s.status := rfl
@[simp] theorem State.hostIn_setFlags (s : State) (v : BitVec 6) : (s.setFlags v).hostIn = s.hostIn := rfl
@[simp] theorem State.outTrace_setFlags (s : State) (v : BitVec 6) : (s.setFlags v).outTrace = s.outTrace := rfl
@[simp] theorem State.nanDraws_setFlags (s : State) (v : BitVec 6) : (s.setFlags v).nanDraws = s.nanDraws := rfl

@[simp] theorem State.regs_setMem (s : State) (v : Memory) : (s.setMem v).regs = s.regs := rfl
@[simp] theorem State.pc_setMem (s : State) (v : Memory) : (s.setMem v).pc = s.pc := rfl
@[simp] theorem State.flags_setMem (s : State) (v : Memory) : (s.setMem v).flags = s.flags := rfl
@[simp] theorem State.mem_setMem (s : State) (v : Memory) : (s.setMem v).mem = v := rfl
@[simp] theorem State.status_setMem (s : State) (v : Memory) : (s.setMem v).status = s.status := rfl
@[simp] theorem State.hostIn_setMem (s : State) (v : Memory) : (s.setMem v).hostIn = s.hostIn := rfl
@[simp] theorem State.outTrace_setMem (s : State) (v : Memory) : (s.setMem v).outTrace = s.outTrace := rfl
@[simp] theorem State.nanDraws_setMem (s : State) (v : Memory) : (s.setMem v).nanDraws = s.nanDraws := rfl

@[simp] theorem State.regs_setStatus (s : State) (v : Status) : (s.setStatus v).regs = s.regs := rfl
@[simp] theorem State.pc_setStatus (s : State) (v : Status) : (s.setStatus v).pc = s.pc := rfl
@[simp] theorem State.flags_setStatus (s : State) (v : Status) : (s.setStatus v).flags = s.flags := rfl
@[simp] theorem State.mem_setStatus (s : State) (v : Status) : (s.setStatus v).mem = s.mem := rfl
@[simp] theorem State.status_setStatus (s : State) (v : Status) : (s.setStatus v).status = v := rfl
@[simp] theorem State.hostIn_setStatus (s : State) (v : Status) : (s.setStatus v).hostIn = s.hostIn := rfl
@[simp] theorem State.outTrace_setStatus (s : State) (v : Status) : (s.setStatus v).outTrace = s.outTrace := rfl
@[simp] theorem State.nanDraws_setStatus (s : State) (v : Status) : (s.setStatus v).nanDraws = s.nanDraws := rfl

@[simp] theorem State.regs_setHostIn (s : State) (v : List HostAnswer) : (s.setHostIn v).regs = s.regs := rfl
@[simp] theorem State.pc_setHostIn (s : State) (v : List HostAnswer) : (s.setHostIn v).pc = s.pc := rfl
@[simp] theorem State.flags_setHostIn (s : State) (v : List HostAnswer) : (s.setHostIn v).flags = s.flags := rfl
@[simp] theorem State.mem_setHostIn (s : State) (v : List HostAnswer) : (s.setHostIn v).mem = s.mem := rfl
@[simp] theorem State.status_setHostIn (s : State) (v : List HostAnswer) : (s.setHostIn v).status = s.status := rfl
@[simp] theorem State.hostIn_setHostIn (s : State) (v : List HostAnswer) : (s.setHostIn v).hostIn = v := rfl
@[simp] theorem State.outTrace_setHostIn (s : State) (v : List HostAnswer) :
    (s.setHostIn v).outTrace = s.outTrace := rfl
@[simp] theorem State.nanDraws_setHostIn (s : State) (v : List HostAnswer) :
    (s.setHostIn v).nanDraws = s.nanDraws := rfl

@[simp] theorem State.regs_setOutTrace (s : State) (v : List OutEvent) : (s.setOutTrace v).regs = s.regs := rfl
@[simp] theorem State.pc_setOutTrace (s : State) (v : List OutEvent) : (s.setOutTrace v).pc = s.pc := rfl
@[simp] theorem State.flags_setOutTrace (s : State) (v : List OutEvent) : (s.setOutTrace v).flags = s.flags := rfl
@[simp] theorem State.mem_setOutTrace (s : State) (v : List OutEvent) : (s.setOutTrace v).mem = s.mem := rfl
@[simp] theorem State.status_setOutTrace (s : State) (v : List OutEvent) : (s.setOutTrace v).status = s.status := rfl
@[simp] theorem State.hostIn_setOutTrace (s : State) (v : List OutEvent) : (s.setOutTrace v).hostIn = s.hostIn := rfl
@[simp] theorem State.outTrace_setOutTrace (s : State) (v : List OutEvent) : (s.setOutTrace v).outTrace = v := rfl
@[simp] theorem State.nanDraws_setOutTrace (s : State) (v : List OutEvent) :
    (s.setOutTrace v).nanDraws = s.nanDraws := rfl

@[simp] theorem State.regs_setNanDraws (s : State) (v : Nat) : (s.setNanDraws v).regs = s.regs := rfl
@[simp] theorem State.pc_setNanDraws (s : State) (v : Nat) : (s.setNanDraws v).pc = s.pc := rfl
@[simp] theorem State.flags_setNanDraws (s : State) (v : Nat) : (s.setNanDraws v).flags = s.flags := rfl
@[simp] theorem State.mem_setNanDraws (s : State) (v : Nat) : (s.setNanDraws v).mem = s.mem := rfl
@[simp] theorem State.status_setNanDraws (s : State) (v : Nat) : (s.setNanDraws v).status = s.status := rfl
@[simp] theorem State.hostIn_setNanDraws (s : State) (v : Nat) : (s.setNanDraws v).hostIn = s.hostIn := rfl
@[simp] theorem State.outTrace_setNanDraws (s : State) (v : Nat) : (s.setNanDraws v).outTrace = s.outTrace := rfl
@[simp] theorem State.nanDraws_setNanDraws (s : State) (v : Nat) : (s.setNanDraws v).nanDraws = v := rfl

@[simp] theorem State.regs_advance (s : State) : s.advance.regs = s.regs := rfl
@[simp] theorem State.pc_advance (s : State) : s.advance.pc = s.pc + 1 := rfl
@[simp] theorem State.flags_advance (s : State) : s.advance.flags = s.flags := rfl
@[simp] theorem State.mem_advance (s : State) : s.advance.mem = s.mem := rfl
@[simp] theorem State.status_advance (s : State) : s.advance.status = s.status := rfl
@[simp] theorem State.hostIn_advance (s : State) : s.advance.hostIn = s.hostIn := rfl
@[simp] theorem State.outTrace_advance (s : State) : s.advance.outTrace = s.outTrace := rfl
@[simp] theorem State.nanDraws_advance (s : State) : s.advance.nanDraws = s.nanDraws := rfl

@[simp] theorem State.regs_setReg (s : State) (r : Reg) (v : Word) :
    (s.setReg r v).regs = s.regs.set r.val v r.isLt := rfl
@[simp] theorem State.pc_setReg (s : State) (r : Reg) (v : Word) : (s.setReg r v).pc = s.pc := rfl
@[simp] theorem State.flags_setReg (s : State) (r : Reg) (v : Word) : (s.setReg r v).flags = s.flags := rfl
@[simp] theorem State.mem_setReg (s : State) (r : Reg) (v : Word) : (s.setReg r v).mem = s.mem := rfl
@[simp] theorem State.status_setReg (s : State) (r : Reg) (v : Word) : (s.setReg r v).status = s.status := rfl
@[simp] theorem State.hostIn_setReg (s : State) (r : Reg) (v : Word) : (s.setReg r v).hostIn = s.hostIn := rfl
@[simp] theorem State.outTrace_setReg (s : State) (r : Reg) (v : Word) : (s.setReg r v).outTrace = s.outTrace := rfl
@[simp] theorem State.nanDraws_setReg (s : State) (r : Reg) (v : Word) : (s.setReg r v).nanDraws = s.nanDraws := rfl

@[simp] theorem State.regs_setCell (s : State) (a : Nat) (v : Word) : (s.setCell a v).regs = s.regs := rfl
@[simp] theorem State.pc_setCell (s : State) (a : Nat) (v : Word) : (s.setCell a v).pc = s.pc := rfl
@[simp] theorem State.flags_setCell (s : State) (a : Nat) (v : Word) : (s.setCell a v).flags = s.flags := rfl
@[simp] theorem State.mem_setCell (s : State) (a : Nat) (v : Word) : (s.setCell a v).mem = s.mem.insert a v := rfl
@[simp] theorem State.status_setCell (s : State) (a : Nat) (v : Word) : (s.setCell a v).status = s.status := rfl
@[simp] theorem State.hostIn_setCell (s : State) (a : Nat) (v : Word) : (s.setCell a v).hostIn = s.hostIn := rfl
@[simp] theorem State.outTrace_setCell (s : State) (a : Nat) (v : Word) : (s.setCell a v).outTrace = s.outTrace := rfl
@[simp] theorem State.nanDraws_setCell (s : State) (a : Nat) (v : Word) : (s.setCell a v).nanDraws = s.nanDraws := rfl

@[simp] theorem State.regs_emit (s : State) (e : OutEvent) : (s.emit e).regs = s.regs := rfl
@[simp] theorem State.pc_emit (s : State) (e : OutEvent) : (s.emit e).pc = s.pc := rfl
@[simp] theorem State.flags_emit (s : State) (e : OutEvent) : (s.emit e).flags = s.flags := rfl
@[simp] theorem State.mem_emit (s : State) (e : OutEvent) : (s.emit e).mem = s.mem := rfl
@[simp] theorem State.status_emit (s : State) (e : OutEvent) : (s.emit e).status = s.status := rfl
@[simp] theorem State.hostIn_emit (s : State) (e : OutEvent) : (s.emit e).hostIn = s.hostIn := rfl
@[simp] theorem State.outTrace_emit (s : State) (e : OutEvent) : (s.emit e).outTrace = s.outTrace ++ [e] := rfl
@[simp] theorem State.nanDraws_emit (s : State) (e : OutEvent) : (s.emit e).nanDraws = s.nanDraws := rfl

@[simp] theorem State.pc_setPair (s : State) (p : PairReg) (d : DWord) : (s.setPair p d).pc = s.pc := rfl
@[simp] theorem State.flags_setPair (s : State) (p : PairReg) (d : DWord) : (s.setPair p d).flags = s.flags := rfl
@[simp] theorem State.mem_setPair (s : State) (p : PairReg) (d : DWord) : (s.setPair p d).mem = s.mem := rfl
@[simp] theorem State.status_setPair (s : State) (p : PairReg) (d : DWord) : (s.setPair p d).status = s.status := rfl
@[simp] theorem State.hostIn_setPair (s : State) (p : PairReg) (d : DWord) : (s.setPair p d).hostIn = s.hostIn := rfl
@[simp] theorem State.outTrace_setPair (s : State) (p : PairReg) (d : DWord) :
    (s.setPair p d).outTrace = s.outTrace := rfl
@[simp] theorem State.nanDraws_setPair (s : State) (p : PairReg) (d : DWord) :
    (s.setPair p d).nanDraws = s.nanDraws := rfl

@[simp] theorem State.regs_placeWord (s : State) (w : Word) : (s.placeWord w).regs = s.regs := rfl
@[simp] theorem State.pc_placeWord (s : State) (w : Word) : (s.placeWord w).pc = s.pc := rfl
@[simp] theorem State.flags_placeWord (s : State) (w : Word) : (s.placeWord w).flags = s.flags := rfl
@[simp] theorem State.mem_placeWord (s : State) (w : Word) : (s.placeWord w).mem = s.mem.insert s.pc.toNat w := rfl
@[simp] theorem State.status_placeWord (s : State) (w : Word) : (s.placeWord w).status = s.status := rfl
@[simp] theorem State.hostIn_placeWord (s : State) (w : Word) : (s.placeWord w).hostIn = s.hostIn := rfl
@[simp] theorem State.outTrace_placeWord (s : State) (w : Word) : (s.placeWord w).outTrace = s.outTrace := rfl
@[simp] theorem State.nanDraws_placeWord (s : State) (w : Word) : (s.placeWord w).nanDraws = s.nanDraws := rfl

@[simp] theorem State.load_nil (s : State) : s.load [] = s := rfl
@[simp] theorem State.load_cons (s : State) (c : Nat × Word) (m : Memory) :
    s.load (c :: m) = (s.load m).setCell c.1 c.2 := rfl

@[simp] theorem State.regs_load (s : State) (m : Memory) : (s.load m).regs = s.regs := by
  induction m with | nil => rfl | cons c m ih => exact ih
@[simp] theorem State.pc_load (s : State) (m : Memory) : (s.load m).pc = s.pc := by
  induction m with | nil => rfl | cons c m ih => exact ih
@[simp] theorem State.flags_load (s : State) (m : Memory) : (s.load m).flags = s.flags := by
  induction m with | nil => rfl | cons c m ih => exact ih
@[simp] theorem State.status_load (s : State) (m : Memory) : (s.load m).status = s.status := by
  induction m with | nil => rfl | cons c m ih => exact ih
@[simp] theorem State.hostIn_load (s : State) (m : Memory) : (s.load m).hostIn = s.hostIn := by
  induction m with | nil => rfl | cons c m ih => exact ih
@[simp] theorem State.outTrace_load (s : State) (m : Memory) : (s.load m).outTrace = s.outTrace := by
  induction m with | nil => rfl | cons c m ih => exact ih
@[simp] theorem State.nanDraws_load (s : State) (m : Memory) : (s.load m).nanDraws = s.nanDraws := by
  induction m with | nil => rfl | cons c m ih => exact ih
@[simp] theorem State.reg_load (s : State) (m : Memory) (r : Reg) : (s.load m).reg r = s.reg r := by
  simp only [State.reg, State.regs_load]

/-! ### Registers and cells through the updates that do not touch them -/

@[simp] theorem State.cell_setRegs (s : State) (v : Vector Word Config.nusable) (a : Nat) :
    (s.setRegs v).cell a = s.cell a := rfl
@[simp] theorem State.reg_setPc (s : State) (v : Word) (r : Reg) : (s.setPc v).reg r = s.reg r := rfl
@[simp] theorem State.cell_setPc (s : State) (v : Word) (a : Nat) : (s.setPc v).cell a = s.cell a := rfl
@[simp] theorem State.reg_setFlags (s : State) (v : BitVec 6) (r : Reg) : (s.setFlags v).reg r = s.reg r := rfl
@[simp] theorem State.cell_setFlags (s : State) (v : BitVec 6) (a : Nat) : (s.setFlags v).cell a = s.cell a := rfl
@[simp] theorem State.reg_setMem (s : State) (v : Memory) (r : Reg) : (s.setMem v).reg r = s.reg r := rfl
@[simp] theorem State.reg_setStatus (s : State) (v : Status) (r : Reg) : (s.setStatus v).reg r = s.reg r := rfl
@[simp] theorem State.cell_setStatus (s : State) (v : Status) (a : Nat) : (s.setStatus v).cell a = s.cell a := rfl
@[simp] theorem State.reg_setHostIn (s : State) (v : List HostAnswer) (r : Reg) : (s.setHostIn v).reg r = s.reg r := rfl
@[simp] theorem State.cell_setHostIn (s : State) (v : List HostAnswer) (a : Nat) :
    (s.setHostIn v).cell a = s.cell a := rfl
@[simp] theorem State.reg_setOutTrace (s : State) (v : List OutEvent) (r : Reg) :
    (s.setOutTrace v).reg r = s.reg r := rfl
@[simp] theorem State.cell_setOutTrace (s : State) (v : List OutEvent) (a : Nat) :
    (s.setOutTrace v).cell a = s.cell a := rfl
@[simp] theorem State.reg_setNanDraws (s : State) (v : Nat) (r : Reg) : (s.setNanDraws v).reg r = s.reg r := rfl
@[simp] theorem State.cell_setNanDraws (s : State) (v : Nat) (a : Nat) : (s.setNanDraws v).cell a = s.cell a := rfl
@[simp] theorem State.reg_advance (s : State) (r : Reg) : s.advance.reg r = s.reg r := rfl
@[simp] theorem State.cell_advance (s : State) (a : Nat) : s.advance.cell a = s.cell a := rfl
@[simp] theorem State.reg_setCell (s : State) (a : Nat) (v : Word) (r : Reg) : (s.setCell a v).reg r = s.reg r := rfl
@[simp] theorem State.cell_setReg (s : State) (r : Reg) (v : Word) (a : Nat) : (s.setReg r v).cell a = s.cell a := rfl
@[simp] theorem State.cell_setPair (s : State) (p : PairReg) (d : DWord) (a : Nat) :
    (s.setPair p d).cell a = s.cell a := rfl
@[simp] theorem State.reg_emit (s : State) (e : OutEvent) (r : Reg) : (s.emit e).reg r = s.reg r := rfl
@[simp] theorem State.cell_emit (s : State) (e : OutEvent) (a : Nat) : (s.emit e).cell a = s.cell a := rfl
@[simp] theorem State.reg_placeWord (s : State) (w : Word) (r : Reg) : (s.placeWord w).reg r = s.reg r := rfl

/-! ### Registers through a register write (R7) -/

theorem State.reg_setReg (s : State) (d r : Reg) (v : Word) : (s.setReg d v).reg r = if r = d then v else s.reg r := by
  simp only [State.reg, State.setReg, State.setRegs, Vector.getElem_set, Fin.ext_iff, eq_comm]

@[simp] theorem State.reg_setReg_self (s : State) (d : Reg) (v : Word) : (s.setReg d v).reg d = v := by
  simp [State.reg_setReg]

theorem State.reg_setReg_ne (s : State) {d r : Reg} (v : Word) (h : r ≠ d) : (s.setReg d v).reg r = s.reg r := by
  simp [State.reg_setReg, h]

/-- The two registers of a pair are different. -/
@[simp] theorem pairHi_ne_pairLo (p : PairReg) : pairHi p ≠ pairLo p := by
  have h : p.val + 1 ≠ p.val := Nat.succ_ne_self _
  exact fun e => h (congrArg Fin.val e)

@[simp] theorem pairLo_ne_pairHi (p : PairReg) : pairLo p ≠ pairHi p := (pairHi_ne_pairLo p).symm

theorem State.reg_setPair (s : State) (p : PairReg) (d : DWord) (r : Reg) :
    (s.setPair p d).reg r = if r = pairHi p then highWord d else if r = pairLo p then lowWord d else s.reg r := by
  simp only [State.setPair, State.reg_setReg]

@[simp] theorem State.reg_setPair_lo (s : State) (p : PairReg) (d : DWord) :
    (s.setPair p d).reg (pairLo p) = lowWord d := by simp [State.reg_setPair]

@[simp] theorem State.reg_setPair_hi (s : State) (p : PairReg) (d : DWord) :
    (s.setPair p d).reg (pairHi p) = highWord d := by simp [State.reg_setPair]

theorem State.reg_setPair_ne (s : State) {p : PairReg} (d : DWord) {r : Reg} (hl : r ≠ pairLo p) (hh : r ≠ pairHi p) :
    (s.setPair p d).reg r = s.reg r := by simp [State.reg_setPair, hl, hh]

/-! ### Halves of a double word -/

@[simp] theorem lowWord_append (hi lo : Word) : lowWord (hi ++ lo) = lo :=
  (extract_append_low hi lo (by decide)).trans (extract_all lo)

@[simp] theorem highWord_append (hi lo : Word) : highWord (hi ++ lo) = hi := extract_append_high hi lo

theorem highWord_append_lowWord (d : DWord) : highWord d ++ lowWord d = d :=
  (extract_append_extract d 0 rfl Config.xlen).trans (extract_all d)

/-- Reading a pair after writing it. -/
@[simp] theorem State.pair_setPair (s : State) (p : PairReg) (d : DWord) : (s.setPair p d).pair p = d := by
  simp [State.pair, highWord_append_lowWord]

@[simp] theorem lowWord_pair (s : State) (p : PairReg) : lowWord (s.pair p) = s.reg (pairLo p) := by simp [State.pair]

@[simp] theorem highWord_pair (s : State) (p : PairReg) : highWord (s.pair p) = s.reg (pairHi p) := by simp [State.pair]

end Sys2Proof.Machine
end

