-- ==== Sys2Proof/Laws/Memory.lean ====
section
/-! SUPPORT. The laws of memory: reading after writing, that every operation keeps the canonical form, and that in the
canonical form memories that read the same, whatever the launch values, are the same list. -/

namespace Sys2Proof.Machine

theorem Memory.lookup_insert (m : Memory) (a b : Nat) (v : Word) :
    (m.insert a v).lookup b = if b = a then some v else m.lookup b := by
  induction m with
  | nil => simp [Memory.insert, Memory.lookup]
  | cons c m ih =>
    obtain ⟨x, w⟩ := c
    simp only [Memory.insert]
    split
    · simp [Memory.lookup]
    · split
      · subst_vars
        simp only [Memory.lookup]
        split <;> simp_all
      · simp only [Memory.lookup, ih]
        split <;> split <;> simp_all

/-- A read of the cell just written gives the word written; every other cell reads as before (R45, R50). -/
theorem Memory.read_insert (m : Memory) (a b : Nat) (v : Word) :
    (m.insert a v).read b = if b = a then v else m.read b := by
  simp only [Memory.read, Memory.lookup_insert]
  split <;> simp

@[simp] theorem Memory.read_insert_self (m : Memory) (a : Nat) (v : Word) : (m.insert a v).read a = v := by
  simp [Memory.read_insert]

theorem State.cell_setCell (s : State) (a b : Nat) (v : Word) :
    (s.setCell a v).cell b = if b = a then v else s.cell b := Memory.read_insert s.mem a b v

@[simp] theorem State.cell_setCell_self (s : State) (a : Nat) (v : Word) : (s.setCell a v).cell a = v := by
  simp [State.cell_setCell]

theorem State.cell_setCell_ne (s : State) {a b : Nat} (v : Word) (h : b ≠ a) : (s.setCell a v).cell b = s.cell b := by
  simp [State.cell_setCell, h]

@[simp] theorem State.cell_placeWord_self (s : State) (w : Word) : (s.placeWord w).cell s.pc.toNat = w := by
  simp [State.placeWord]

/-- The addresses listed after a write are the ones listed before and the one written. -/
theorem Memory.fst_mem_insert (m : Memory) (a : Nat) (v : Word) (c : Nat × Word) (h : c ∈ m.insert a v) :
    c.1 = a ∨ ∃ c' ∈ m, c'.1 = c.1 := by
  induction m with
  | nil => simp_all [Memory.insert]
  | cons d m ih =>
    simp only [Memory.insert] at h
    split at h
    · rcases List.mem_cons.1 h with rfl | h
      · exact .inl rfl
      · exact .inr ⟨c, h, rfl⟩
    · split at h
      · rcases List.mem_cons.1 h with rfl | h
        · exact .inl rfl
        · exact .inr ⟨c, List.mem_cons_of_mem _ h, rfl⟩
      · rcases List.mem_cons.1 h with rfl | h
        · exact .inr ⟨_, List.mem_cons_self, rfl⟩
        · rcases ih h with h | ⟨c', hc, e⟩
          · exact .inl h
          · exact .inr ⟨c', List.mem_cons_of_mem _ hc, e⟩

theorem Memory.sorted_insert (m : Memory) (a : Nat) (v : Word) (h : m.Pairwise (fun c d => c.1 < d.1)) :
    (m.insert a v).Pairwise (fun c d => c.1 < d.1) := by
  induction m with
  | nil => simp [Memory.insert]
  | cons d m ih =>
    obtain ⟨hd, hm⟩ := List.pairwise_cons.1 h
    simp only [Memory.insert]
    split
    · refine List.pairwise_cons.2 ⟨fun c hc => ?_, h⟩
      rcases List.mem_cons.1 hc with rfl | hc
      · assumption
      · exact Nat.lt_trans (by assumption) (hd c hc)
    · split
      · subst_vars
        exact List.pairwise_cons.2 ⟨hd, hm⟩
      · refine List.pairwise_cons.2 ⟨fun c hc => ?_, ih hm⟩
        rcases Memory.fst_mem_insert m a v c hc with e | ⟨c', hc', e⟩
        · simp only [e]; omega
        · rw [← e]; exact hd c' hc'

/-- A write inside the address space keeps the canonical form. -/
theorem Memory.wf_insert (m : Memory) (a : Nat) (v : Word) (h : m.wf) (ha : a < Config.memWords) : (m.insert a v).wf := by
  refine ⟨Memory.sorted_insert m a v h.1, fun c hc => ?_⟩
  rcases Memory.fst_mem_insert m a v c hc with e | ⟨c', hc', e⟩
  · rw [e]; exact ha
  · rw [← e]; exact h.2 c' hc'

/-- The memory of the launch state has the canonical form. -/
theorem Memory.wf_reset : State.reset.mem.wf := ⟨List.Pairwise.nil, by simp [State.reset]⟩

/-- Placing a word for the next fetch keeps the canonical form where `pc` is inside the address space. -/
theorem Memory.wf_placeWord (s : State) (w : Word) (h : s.mem.wf) (ha : s.pc.toNat < Config.memWords) :
    (s.placeWord w).mem.wf := Memory.wf_insert _ _ _ h ha

/-- After an image is loaded, a cell holds the word the image lists for it, or what it held before (R272 (1)). -/
theorem State.cell_load (s : State) (m : Memory) (a : Nat) : (s.load m).cell a = (m.lookup a).getD (s.cell a) := by
  induction m with
  | nil => rfl
  | cons c m ih =>
    simp only [State.load_cons, State.cell_setCell, ih, Memory.lookup]
    split <;> simp

/-- Loading an image whose addresses are inside the address space keeps the canonical form. -/
theorem Memory.wf_load (s : State) (m : Memory) (h : s.mem.wf) (hm : ∀ c ∈ m, c.1 < Config.memWords) :
    (s.load m).mem.wf := by
  induction m with
  | nil => exact h
  | cons c m ih =>
    exact Memory.wf_insert _ _ _ (ih fun d hd => hm d (List.mem_cons_of_mem _ hd)) (hm c List.mem_cons_self)

/-- What an image of commands lists: the `k`-th command's word at the `k`-th cell from the first (R81). -/
theorem mem_imageFrom (is : List Instr) (a : Nat) (c : Nat × Word) :
    c ∈ imageFrom a is ↔ ∃ k i, is[k]? = some i ∧ c = (a + k * Config.ilen, encode i) := by
  induction is generalizing a with
  | nil => simp [imageFrom]
  | cons i is ih =>
    simp only [imageFrom, List.mem_cons, ih]
    constructor
    · rintro (rfl | ⟨k, j, hk, rfl⟩)
      · exact ⟨0, i, rfl, by simp⟩
      · exact ⟨k + 1, j, hk, by rw [Nat.add_mul, Nat.one_mul]; congr 1; omega⟩
    · rintro ⟨_ | k, j, hk, rfl⟩
      · cases hk
        exact .inl (by simp)
      · exact .inr ⟨k, j, hk, by rw [Nat.add_mul, Nat.one_mul]; congr 1; omega⟩

theorem Memory.lookup_eq_none_of_lt (m : Memory) (a : Nat) (h : ∀ c ∈ m, a < c.1) : m.lookup a = none := by
  induction m with
  | nil => rfl
  | cons d m ih =>
    obtain ⟨b, w⟩ := d
    have : a < b := h _ List.mem_cons_self
    have hne : a ≠ b := by omega
    simp [Memory.lookup, hne, ih fun c hc => h c (List.mem_cons_of_mem _ hc)]

/-- In the canonical form, memories that list the same word, or none, for every cell are equal lists. -/
theorem Memory.ext_of_wf (m n : Memory) (hm : m.wf) (hn : n.wf) (h : ∀ a, m.lookup a = n.lookup a) : m = n := by
  induction m generalizing n with
  | nil =>
    cases n with
    | nil => rfl
    | cons d n => simpa [Memory.lookup] using h d.1
  | cons c m ih =>
    obtain ⟨a, v⟩ := c
    cases n with
    | nil => simpa [Memory.lookup] using h a
    | cons d n =>
      obtain ⟨b, w⟩ := d
      obtain ⟨hc, hm'⟩ := List.pairwise_cons.1 hm.1
      obtain ⟨hd, hn'⟩ := List.pairwise_cons.1 hn.1
      have hab : a = b := by
        by_contra hne
        rcases Nat.lt_or_gt_of_ne hne with hlt | hlt
        · have hx : Memory.lookup n a = none :=
            Memory.lookup_eq_none_of_lt n a fun e he => Nat.lt_trans hlt (hd e he)
          simpa [Memory.lookup, hne, hx] using h a
        · have hx : Memory.lookup m b = none :=
            Memory.lookup_eq_none_of_lt m b fun e he => Nat.lt_trans hlt (hc e he)
          have hne' : b ≠ a := fun e => hne e.symm
          simpa [Memory.lookup, hne', hx] using h b
      subst hab
      have hvw : v = w := by simpa [Memory.lookup] using h a
      subst hvw
      congr 1
      refine ih n ⟨hm', fun e he => hm.2 e (List.mem_cons_of_mem _ he)⟩
        ⟨hn', fun e he => hn.2 e (List.mem_cons_of_mem _ he)⟩ fun x => ?_
      by_cases hx : x = a
      · subst hx
        rw [Memory.lookup_eq_none_of_lt m x hc, Memory.lookup_eq_none_of_lt n x hd]
      · simpa [Memory.lookup, hx] using h x

end Sys2Proof.Machine
end

