-- ==== Sys2Proof/Laws/Numbers.lean ====
section
/-! SUPPORT. The words the meanings compute, in the integers' terms of 00_scope.md R6: one lemma for each operand form
and each arithmetic operation, for the configured (unsigned) readings. -/

namespace Sys2Proof.Machine

/-- The register field encodes exactly the register numbers (R5, R61). -/
theorem nregs_eq : Config.nregs = 2 ^ Config.regBits := rfl

/-- A pair starts at every usable register but the last (R21, R23). -/
theorem nusable_eq : Config.nusable = Config.npairs + 1 := rfl

/-- The 20-bit address reaches every cell, and no further (R67). -/
theorem memWords_eq : Config.memWords = 2 ^ Config.addrBits := rfl

/-! The numbers that `Config` gives, where they stand in arithmetic: the bounds are those of `BitVec.isLt`. -/

@[simp] theorem ilen_eq : Config.ilen = 1 := rfl
@[simp] theorem two_pow_xlen : 2 ^ Config.xlen = 4294967296 := rfl
@[simp] theorem two_pow_immRIBits : 2 ^ Config.immRIBits = 1048576 := rfl
@[simp] theorem two_pow_immRRBits : 2 ^ Config.immRRBits = 65536 := rfl
@[simp] theorem two_pow_addrBits : 2 ^ Config.addrBits = 1048576 := rfl
@[simp] theorem two_pow_regBits : 2 ^ Config.regBits = 16 := rfl

theorem word_toNat_lt (w : Word) : w.toNat < 4294967296 := w.isLt

theorem W_natCast (n : Nat) : W (n : Int) = BitVec.ofNat Config.xlen n := BitVec.ofInt_natCast Config.xlen n

@[simp] theorem W_U (w : Word) : W (U w) = w := by simp [W, U]

theorem U_W (n : Int) : U (W n) = n % 4294967296 := by
  simp only [U, W, BitVec.toNat_ofInt, Config.xlen]
  omega

theorem U_nonneg (w : Word) : 0 ≤ U w := Int.natCast_nonneg _

theorem U_lt (w : Word) : U w < 4294967296 := by
  have h : w.toNat < 4294967296 := w.isLt
  simp only [U]
  omega

theorem U_inj {a b : Word} (h : U a = U b) : a = b := by
  apply BitVec.eq_of_toNat_eq
  simpa [U] using h

theorem W_add (a b : Int) : W (a + b) = W a + W b := BitVec.ofInt_add a b

theorem W_sub (a b : Int) : W (a - b) = W a - W b := by
  rw [sub_eq_add_neg, W_add, BitVec.sub_eq_add_neg]
  congr 1
  exact BitVec.ofInt_neg

/-- `pc + 1` (R25). -/
theorem State.nextPc_eq (s : State) : s.nextPc = W (U s.pc + 1) := by
  rw [W_add, W_U]
  rfl

/-- The immediate as a word is its zero-extension (R66). -/
theorem immWord_toNat {n : Nat} (hn : n ≤ 32) (imm : BitVec n) : (immWord imm).toNat = imm.toNat := by
  have h := imm.isLt
  have h2 : (2 : Nat) ^ n ≤ 2 ^ 32 := Nat.pow_le_pow_right (by decide) hn
  simp only [immWord, extendImm, Config.immSigned, Bool.false_eq_true, if_false, BitVec.toNat_setWidth]
  exact Nat.mod_eq_of_lt (Nat.lt_of_lt_of_le h h2)

theorem immWord_eq {n : Nat} (hn : n ≤ 32) (imm : BitVec n) : immWord imm = W (imm.toNat : Int) := by
  rw [W_natCast, ← immWord_toNat hn imm]
  simp

/-- The immediate of format RI as a word (R66). -/
theorem immWord20_eq (imm : Imm20) : immWord imm = W (imm.toNat : Int) := immWord_eq (by decide) imm

/-- The immediate of format RR as a word (R66). -/
theorem immWord16_eq (imm : Imm16) : immWord imm = W (imm.toNat : Int) := immWord_eq (by decide) imm

@[simp] theorem immWord20_toNat (imm : Imm20) : (immWord imm).toNat = imm.toNat := immWord_toNat (by decide) imm

@[simp] theorem addrWord_toNat (addr : Addr) : (addrWord addr).toNat = addr.toNat := by
  simp only [addrWord, BitVec.toNat_setWidth]
  exact Nat.mod_eq_of_lt (Nat.lt_trans addr.isLt (by decide))

theorem addrWord_eq (addr : Addr) : addrWord addr = W (addr.toNat : Int) := by
  rw [W_natCast, ← addrWord_toNat addr, BitVec.ofNat_toNat, BitVec.setWidth_eq]

/-- Every 20-bit address is inside the address space (R67). -/
@[simp] theorem inRange_addrWord (addr : Addr) : inRange (addrWord addr) 1 = true := by
  have h : addr.toNat < 1048576 := addr.isLt
  simp only [inRange, addrWord_toNat, Config.memWords, decide_eq_true_eq]
  omega

/-- The modified source value (R8). -/
theorem State.srcval_eq (s : State) (r : Reg) (imm : Imm16) : s.srcval r imm = modified s r imm := by
  simp [State.srcval, modified, W_add, immWord16_eq]

/-- The floating-point source operand (R161). -/
theorem State.fpSource_eq (s : State) (p : PairReg) (imm : Imm16) : s.fpSource p imm = modifiedPair s p imm := by
  simp [State.fpSource, modifiedPair, State.srcval_eq]

@[simp] theorem intOfWord_unsigned (w : Word) : intOfWord false w = U w := rfl

@[simp] theorem intOfDWord_unsigned (d : DWord) : intOfDWord false d = (d.toNat : Int) := rfl

/-- A pair read as unsigned (R127). -/
theorem pair_toNat (s : State) (p : PairReg) :
    ((s.pair p).toNat : Int) = U (s.reg (pairHi p)) * 4294967296 + U (s.reg (pairLo p)) := by
  have h : (s.pair p).toNat = (s.reg (pairHi p)).toNat <<< 32 ||| (s.reg (pairLo p)).toNat := BitVec.toNat_append _ _
  rw [h, ← Nat.shiftLeft_add_eq_or_of_lt (s.reg (pairLo p)).isLt, Nat.shiftLeft_eq]
  simp only [U, Nat.cast_add, Nat.cast_mul]
  norm_num

/-- The unsigned product (R125). -/
theorem mulWords_unsigned (a b : Word) : mulWords false a b = W64 (U a * U b) := rfl

/-- The unsigned comparison (R201). -/
theorem compareWord_unsigned (a b : Word) : compareWord false a b = compareInt (U a) (U b) := rfl

theorem fitsWord_unsigned (k : Int) : fitsWord false k = true ↔ 0 ≤ k ∧ k < 4294967296 := by
  simp only [fitsWord, Bool.false_eq_true, if_false, decide_eq_true_eq]
  omega

/-- The unsigned division, and when it raises which error (R127). -/
theorem divide_unsigned (n : DWord) (d : Word) :
    divide false n d =
      if U d = 0 then .error .divisionByZero
      else if (n.toNat : Int) / U d < 4294967296 then .ok (W ((n.toNat : Int) / U d), W ((n.toNat : Int) % U d))
      else .error .quotientOverflow := by
  have hn : (0 : Int) ≤ (n.toNat : Int) := Int.natCast_nonneg _
  simp only [divide, intOfDWord_unsigned, intOfWord_unsigned, Int.tdiv_eq_ediv_of_nonneg hn,
    Int.tmod_eq_emod_of_nonneg hn]
  split
  · rfl
  · have hq : 0 ≤ (n.toNat : Int) / U d := Int.ediv_nonneg hn (U_nonneg d)
    simp only [fitsWord_unsigned, hq, true_and]
    rfl

theorem compareInt_equal {a b : Int} : compareInt a b = .equal ↔ a = b := by
  simp only [compareInt]; split <;> (try split) <;> simp_all

theorem compareInt_greater {a b : Int} : compareInt a b = .greater ↔ b < a := by
  simp only [compareInt]; split
  · simp; omega
  · split <;> simp <;> omega

theorem compareInt_less {a b : Int} : compareInt a b = .less ↔ a < b := by
  simp only [compareInt]; split
  · simp; omega
  · split <;> simp <;> omega

end Sys2Proof.Machine
end

