-- ==== Sys2Proof/Laws/Ops.lean ====
section
/-! SUPPORT. For each shared operation, once, everything it can do. Proofs about a command cite these and do not unfold
the operation. `Ensures` is the way in for claims about every next state: each operation that goes on with the rest of a
meaning has a lemma that says when the whole ensures a property. -/

namespace Sys2Proof.Machine

/-! ### Register fields -/

theorem regNo_toNat (r : Reg) : (regNo r).toNat = r.val := Nat.mod_eq_of_lt (Nat.lt_trans r.isLt (by decide))

theorem pairNo_toNat (p : PairReg) : (pairNo p).toNat = p.val :=
  Nat.mod_eq_of_lt (Nat.lt_trans p.isLt (by decide))

@[simp] theorem reg?_regNo (r : Reg) : reg? (regNo r) = some r := by
  simp [reg?, regNo_toNat]

@[simp] theorem pair?_pairNo (p : PairReg) : pair? (pairNo p) = some p := by
  simp [pair?, pairNo_toNat]

@[simp] theorem reg?_pairNo (p : PairReg) : reg? (pairNo p) = some (pairLo p) := by
  simp only [reg?, pairNo_toNat]
  rw [dif_pos (Nat.lt_trans p.isLt (by decide))]
  rfl

/-- A field with no register is number 15 (R23). -/
theorem reg?_eq_none (i : RegNo) : reg? i = none ↔ i = 15 := by
  revert i
  decide

/-- A field with no pair is number 14 or 15 (R23). -/
theorem pair?_eq_none (i : RegNo) : pair? i = none ↔ i = 14 ∨ i = 15 := by
  revert i
  decide

theorem reg?_eq_some {i : RegNo} {r : Reg} (h : reg? i = some r) : i = regNo r := by
  simp only [reg?] at h
  split at h
  · cases h
    exact BitVec.eq_of_toNat_eq (by simp [regNo])
  · cases h

theorem pair?_eq_some {i : RegNo} {p : PairReg} (h : pair? i = some p) : i = pairNo p := by
  simp only [pair?] at h
  split at h
  · cases h
    exact BitVec.eq_of_toNat_eq (by simp [pairNo])
  · cases h

/-- Every field is the number of a register or is 15. -/
theorem regNo_cases (i : RegNo) : i = 15 ∨ ∃ r, i = regNo r := by
  cases h : reg? i with
  | none => exact .inl ((reg?_eq_none i).1 h)
  | some r => exact .inr ⟨r, reg?_eq_some h⟩

/-- Every field is the number of a pair or is 14 or 15. -/
theorem pairNo_cases (i : RegNo) : (i = 14 ∨ i = 15) ∨ ∃ p, i = pairNo p := by
  cases h : pair? i with
  | none => exact .inl ((pair?_eq_none i).1 h)
  | some p => exact .inr ⟨p, pair?_eq_some h⟩

theorem usable_iff (i : RegNo) : i.usable = true ↔ ∃ r, reg? i = some r := by
  revert i
  decide

theorem pairUsable_iff (i : RegNo) : i.pairUsable = true ↔ ∃ p, pair? i = some p := by
  revert i
  decide

@[simp] theorem usable_regNo (r : Reg) : (regNo r).usable = true := (usable_iff _).2 ⟨r, reg?_regNo r⟩

@[simp] theorem pairUsable_pairNo (p : PairReg) : (pairNo p).pairUsable = true := (pairUsable_iff _).2 ⟨p, pair?_pairNo p⟩

@[simp] theorem usable_15 : RegNo.usable 15#4 = false := rfl

@[simp] theorem pairUsable_14 : RegNo.pairUsable 14#4 = false := rfl

@[simp] theorem pairUsable_15 : RegNo.pairUsable 15#4 = false := rfl

@[simp] theorem withReg_regNo (r : Reg) (k : Reg → Result) : withReg (regNo r) k = k r := by
  simp [withReg]

@[simp] theorem withPair_pairNo (p : PairReg) (k : PairReg → Result) : withPair (pairNo p) k = k p := by
  simp [withPair]

@[simp] theorem withReg_15 (k : Reg → Result) : withReg 15 k = refuse .reg15 := rfl

@[simp] theorem withPair_14 (k : PairReg → Result) : withPair 14 k = refuse .reg15 := rfl

@[simp] theorem withPair_15 (k : PairReg → Result) : withPair 15 k = refuse .reg15 := rfl

/-- What `withReg` can do: refuse number 15, or go on with the register the field names. -/
theorem withReg_eq (i : RegNo) (k : Reg → Result) :
    (i = 15 ∧ withReg i k = refuse .reg15) ∨ ∃ r, i = regNo r ∧ withReg i k = k r := by
  rcases regNo_cases i with rfl | ⟨r, rfl⟩
  · exact .inl ⟨rfl, rfl⟩
  · exact .inr ⟨r, rfl, withReg_regNo r k⟩

/-- What `withPair` can do: refuse numbers 14 and 15, or go on with the pair the field names. -/
theorem withPair_eq (i : RegNo) (k : PairReg → Result) :
    ((i = 14 ∨ i = 15) ∧ withPair i k = refuse .reg15) ∨ ∃ p, i = pairNo p ∧ withPair i k = k p := by
  rcases pairNo_cases i with (rfl | rfl) | ⟨p, rfl⟩
  · exact .inl ⟨.inl rfl, rfl⟩
  · exact .inl ⟨.inr rfl, rfl⟩
  · exact .inr ⟨p, rfl, withPair_pairNo p k⟩

/-! ### The call code (R101) -/

/-- Table 3: a service for each of seven codes, and none for every other. -/
theorem serviceOf_cases (imm : Imm20) :
    imm = 0 ∧ serviceOf imm = .exit ∨ imm = 100 ∧ serviceOf imm = .scanInt ∨ imm = 101 ∧ serviceOf imm = .scanDouble ∨
    imm = 102 ∧ serviceOf imm = .printInt ∨ imm = 103 ∧ serviceOf imm = .printDouble ∨
    imm = 104 ∧ serviceOf imm = .getChar ∨ imm = 105 ∧ serviceOf imm = .putChar ∨
    (imm.toNat ∉ [0, 100, 101, 102, 103, 104, 105] ∧ serviceOf imm = .unknown) := by
  have e : ∀ n : Nat, imm.toNat = n → imm = BitVec.ofNat 20 n := fun n h => by rw [← h]; simp
  unfold serviceOf
  split <;> rename_i h
  · simp [e 0 h]
  · simp [e 100 h]
  · simp [e 101 h]
  · simp [e 102 h]
  · simp [e 103 h]
  · simp [e 104 h]
  · simp [e 105 h]
  · simp_all

/-! ### Outcomes -/

@[simp] theorem refuse_ne_next (reason : RefuseReason) (t : State) : refuse reason ≠ .next t := nofun

@[simp] theorem refuse_inj (a b : RefuseReason) : refuse a = refuse b ↔ a = b :=
  ⟨fun h => by cases h; rfl, fun h => by rw [h]⟩

@[simp] theorem raise_eq_next (s t : State) (kind : ErrorKind) :
    s.raise kind = .next t ↔ t = s.setStatus (.error kind) :=
  ⟨fun h => by cases h; rfl, fun h => by rw [h]; rfl⟩

@[simp] theorem raise_ne_refuse (s : State) (kind : ErrorKind) (reason : RefuseReason) : s.raise kind ≠ refuse reason :=
  nofun

@[simp] theorem next_ne_refuse (s : State) (reason : RefuseReason) : (.next s : Result) ≠ refuse reason := nofun

/-! ### The state a run is left in (R33, R259) -/

@[simp] theorem settle_next (s t : State) : settle s (.next t) = t := rfl

@[simp] theorem settle_refuse (s : State) (reason : RefuseReason) :
    settle s (refuse reason) = s.setStatus (.refused reason) := rfl

@[simp] theorem settle_raise (s : State) (kind : ErrorKind) : settle s (s.raise kind) = s.setStatus (.error kind) := rfl

/-! ### Memory accesses (R9, R55) -/

@[simp] theorem inRange_iff (a : Word) (n : Nat) : inRange a n = true ↔ a.toNat + n ≤ Config.memWords := by
  simp [inRange]

theorem withRead1_inRange {s : State} {a : Word} (h : inRange a 1) (k : Word → Result) :
    s.withRead1 a k = k (s.cell a.toNat) := if_pos h

theorem withRead1_outside {s : State} {a : Word} (h : ¬inRange a 1) (k : Word → Result) :
    s.withRead1 a k = s.raise .addressOutOfRange := if_neg h

theorem withRead2_inRange {s : State} {a : Word} (h : inRange a 2) (k : DWord → Result) :
    s.withRead2 a k = k (s.cell (a.toNat + 1) ++ s.cell a.toNat) := if_pos h

theorem withRead2_outside {s : State} {a : Word} (h : ¬inRange a 2) (k : DWord → Result) :
    s.withRead2 a k = s.raise .addressOutOfRange := if_neg h

theorem withWrite1_inRange {s : State} {a : Word} (h : inRange a 1) (v : Word) (k : State → Result) :
    s.withWrite1 a v k = k (s.setCell a.toNat v) := if_pos h

theorem withWrite1_outside {s : State} {a : Word} (h : ¬inRange a 1) (v : Word) (k : State → Result) :
    s.withWrite1 a v k = s.raise .addressOutOfRange := if_neg h

theorem withWrite2_inRange {s : State} {a : Word} (h : inRange a 2) (d : DWord) (k : State → Result) :
    s.withWrite2 a d k = k ((s.setCell a.toNat (lowWord d)).setCell (a.toNat + 1) (highWord d)) := if_pos h

theorem withWrite2_outside {s : State} {a : Word} (h : ¬inRange a 2) (d : DWord) (k : State → Result) :
    s.withWrite2 a d k = s.raise .addressOutOfRange := if_neg h

/-- A push inside the address space (R180). -/
theorem withPush_inRange {s : State} (h : inRange (s.reg sp) 1) (v : Word) (k : State → Result) :
    s.withPush v k = k ((s.setCell (s.reg sp).toNat v).setReg sp (s.reg sp - 1)) := withWrite1_inRange h _ _

theorem withPush_outside {s : State} (h : ¬inRange (s.reg sp) 1) (v : Word) (k : State → Result) :
    s.withPush v k = s.raise .addressOutOfRange := withWrite1_outside h _ _

/-- A pop inside the address space (R181, R184). -/
theorem withPop_inRange {s : State} {n : Word} (h : inRange (s.reg sp + n + 1) 1) (k : Word → State → Result) :
    s.withPop n k = k (s.cell (s.reg sp + n + 1).toNat) (s.setReg sp (s.reg sp + n + 1)) := withRead1_inRange h _

theorem withPop_outside {s : State} {n : Word} (h : ¬inRange (s.reg sp + n + 1) 1) (k : Word → State → Result) :
    s.withPop n k = s.raise .addressOutOfRange := withRead1_outside h _

/-! ### The host (R110) -/

theorem withInput_answer {α : Type} {s : State} {pick : HostAnswer → Option α} {answer : HostAnswer}
    {rest : List HostAnswer} {v : α} (h : s.hostIn = answer :: rest) (hv : pick answer = some v)
    (k : α → State → Result) : s.withInput pick k = k v (s.setHostIn rest) := by
  simp [State.withInput, h, hv]

/-- What an input call can do: refuse, the host having no value of the kind, or take the next answer. -/
theorem withInput_eq {α : Type} (s : State) (pick : HostAnswer → Option α) (k : α → State → Result) :
    ((∀ answer rest, s.hostIn = answer :: rest → pick answer = none) ∧ s.withInput pick k = refuse .hostInput) ∨
      ∃ answer rest v, s.hostIn = answer :: rest ∧ pick answer = some v ∧
        s.withInput pick k = k v (s.setHostIn rest) := by
  rcases h : s.hostIn with _ | ⟨answer, rest⟩
  · exact .inl ⟨by simp, by simp [State.withInput, h]⟩
  · rcases hv : pick answer with _ | v
    · refine .inl ⟨fun a r e => ?_, by simp [State.withInput, h, hv]⟩
      cases e
      exact hv
    · exact .inr ⟨answer, rest, v, rfl, hv, withInput_answer h hv k⟩

/-! ### `Ensures` -/

@[simp] theorem ensures_next (t : State) (P : State → Prop) : Ensures (.next t) P ↔ P t :=
  ⟨fun h => h t rfl, fun h u e => by cases e; exact h⟩

@[simp] theorem ensures_refuse (reason : RefuseReason) (P : State → Prop) : Ensures (refuse reason) P :=
  fun _ e => nomatch e

@[simp] theorem ensures_raise (s : State) (kind : ErrorKind) (P : State → Prop) :
    Ensures (s.raise kind) P ↔ P (s.setStatus (.error kind)) := ensures_next _ P

@[simp] theorem ensures_stop (s : State) (st : Status) (P : State → Prop) :
    Ensures (s.stop st) P ↔ P (s.setStatus st) := ensures_next _ P

theorem ensures_ite {c : Prop} [Decidable c] {x y : Result} {P : State → Prop} (hx : c → Ensures x P)
    (hy : ¬c → Ensures y P) : Ensures (if c then x else y) P := by
  split
  · exact hx ‹_›
  · exact hy ‹_›

theorem ensures_withReg {i : RegNo} {k : Reg → Result} {P : State → Prop}
    (h : ∀ r, i = regNo r → Ensures (k r) P) : Ensures (withReg i k) P := by
  rcases withReg_eq i k with ⟨_, e⟩ | ⟨r, hi, e⟩
  · rw [e]; simp
  · rw [e]; exact h r hi

theorem ensures_withPair {i : RegNo} {k : PairReg → Result} {P : State → Prop}
    (h : ∀ p, i = pairNo p → Ensures (k p) P) : Ensures (withPair i k) P := by
  rcases withPair_eq i k with ⟨_, e⟩ | ⟨p, hi, e⟩
  · rw [e]; simp
  · rw [e]; exact h p hi

theorem ensures_withRead1 {s : State} {a : Word} {k : Word → Result} {P : State → Prop}
    (hk : inRange a 1 → Ensures (k (s.cell a.toNat)) P) (he : P (s.setStatus (.error .addressOutOfRange))) :
    Ensures (s.withRead1 a k) P := ensures_ite hk fun _ => (ensures_raise ..).2 he

theorem ensures_withRead2 {s : State} {a : Word} {k : DWord → Result} {P : State → Prop}
    (hk : inRange a 2 → Ensures (k (s.cell (a.toNat + 1) ++ s.cell a.toNat)) P)
    (he : P (s.setStatus (.error .addressOutOfRange))) :
    Ensures (s.withRead2 a k) P := ensures_ite hk fun _ => (ensures_raise ..).2 he

theorem ensures_withWrite1 {s : State} {a v : Word} {k : State → Result} {P : State → Prop}
    (hk : inRange a 1 → Ensures (k (s.setCell a.toNat v)) P) (he : P (s.setStatus (.error .addressOutOfRange))) :
    Ensures (s.withWrite1 a v k) P := ensures_ite hk fun _ => (ensures_raise ..).2 he

theorem ensures_withWrite2 {s : State} {a : Word} {d : DWord} {k : State → Result} {P : State → Prop}
    (hk : inRange a 2 → Ensures (k ((s.setCell a.toNat (lowWord d)).setCell (a.toNat + 1) (highWord d))) P)
    (he : P (s.setStatus (.error .addressOutOfRange))) :
    Ensures (s.withWrite2 a d k) P := ensures_ite hk fun _ => (ensures_raise ..).2 he

theorem ensures_withPush {s : State} {v : Word} {k : State → Result} {P : State → Prop}
    (hk : inRange (s.reg sp) 1 → Ensures (k ((s.setCell (s.reg sp).toNat v).setReg sp (s.reg sp - 1))) P)
    (he : P (s.setStatus (.error .addressOutOfRange))) : Ensures (s.withPush v k) P := ensures_withWrite1 hk he

theorem ensures_withPop {s : State} {n : Word} {k : Word → State → Result} {P : State → Prop}
    (hk : inRange (s.reg sp + n + 1) 1 →
      Ensures (k (s.cell (s.reg sp + n + 1).toNat) (s.setReg sp (s.reg sp + n + 1))) P)
    (he : P (s.setStatus (.error .addressOutOfRange))) : Ensures (s.withPop n k) P := ensures_withRead1 hk he

theorem ensures_withInput {α : Type} {s : State} {pick : HostAnswer → Option α} {k : α → State → Result}
    {P : State → Prop}
    (hk : ∀ answer rest v, s.hostIn = answer :: rest → pick answer = some v → Ensures (k v (s.setHostIn rest)) P) :
    Ensures (s.withInput pick k) P := by
  rcases withInput_eq s pick k with ⟨_, e⟩ | ⟨answer, rest, v, hi, hv, e⟩
  · rw [e]; simp
  · rw [e]; exact hk answer rest v hi hv

/-! ### How commands end -/

@[simp] theorem finishReg_eq (s : State) (d : Reg) (v : Word) : s.finishReg d v = .next (s.setReg d v).advance := rfl

@[simp] theorem finishPair_eq (s : State) (p : PairReg) (v : DWord) : s.finishPair p v = .next (s.setPair p v).advance := rfl

@[simp] theorem finishCompare_eq (s : State) (c : Cmp) : s.finishCompare c = .next (s.setFlags (flagsOf c)).advance := rfl

@[simp] theorem jumpIf_eq (s : State) (c : Cond) (addr : Addr) :
    s.jumpIf c addr = .next (s.setPc (if s.holds c then addrWord addr else s.nextPc)) := rfl

@[simp] theorem finishFp_value (s : State) (p : PairReg) (d : DWord) :
    s.finishFp p (.value d) = .next (s.setPair p d).advance := rfl

@[simp] theorem finishFp_nan (s : State) (p : PairReg) :
    s.finishFp p .nan = .next ((s.setNanDraws (s.nanDraws + 1)).setPair p (nanPattern s.nanDraws)).advance := rfl

theorem ensures_finishFp {s : State} {p : PairReg} {r : FpResult} {P : State → Prop}
    (hv : ∀ d, r = .value d → P (s.setPair p d).advance)
    (hn : r = .nan → P ((s.setNanDraws (s.nanDraws + 1)).setPair p (nanPattern s.nanDraws)).advance) :
    Ensures (s.finishFp p r) P := by
  cases r with
  | value d => simpa using hv d rfl
  | nan => simpa using hn rfl

/-- The word of a floor, for the configured (unsigned) reading (R168, R242). -/
theorem floorWord_some (n : Int) :
    floorWord false (some n) = if 0 ≤ n ∧ n < 4294967296 then .ok (W n) else .error .conversionOverflow :=
  ite_congr (propext (fitsWord_unsigned n)) (fun _ => rfl) fun _ => rfl

/-- The floor either goes to the register or raises the one error of `dtoi` (R168, R242). -/
theorem finishFloor_some (s : State) (d : Reg) (n : Int) :
    s.finishFloor d (some n) =
      if 0 ≤ n ∧ n < 4294967296 then .next (s.setReg d (W n)).advance else s.raise .conversionOverflow := by
  by_cases h : 0 ≤ n ∧ n < 4294967296
  · simp only [State.finishFloor, Config.intSigned, floorWord_some, if_pos h, finishReg_eq]
  · simp only [State.finishFloor, Config.intSigned, floorWord_some, if_neg h]

@[simp] theorem finishFloor_none (s : State) (d : Reg) : s.finishFloor d none = s.raise .conversionOverflow := rfl

theorem ensures_finishFloor {s : State} {d : Reg} {k : Option Int} {P : State → Prop}
    (hv : ∀ n, k = some n → P (s.setReg d (W n)).advance) (he : P (s.setStatus (.error .conversionOverflow))) :
    Ensures (s.finishFloor d k) P := by
  cases k with
  | none => simpa using he
  | some n =>
    rw [finishFloor_some]
    exact ensures_ite (fun _ => (ensures_next ..).2 (hv n rfl)) fun _ => (ensures_raise ..).2 he

/-- The division either raises one of its two errors or writes both registers (R127). -/
theorem finishDivide_eq (s : State) (p : PairReg) (d : Word) :
    s.finishDivide p d =
      if U d = 0 then s.raise .divisionByZero
      else if ((s.pair p).toNat : Int) / U d < 4294967296 then
        .next ((s.setReg (pairLo p) (W (((s.pair p).toNat : Int) / U d))).setReg (pairHi p)
          (W (((s.pair p).toNat : Int) % U d))).advance
      else s.raise .quotientOverflow := by
  simp only [State.finishDivide, Config.intSigned, divide_unsigned]
  by_cases hd : U d = 0
  · simp only [if_pos hd]
  · by_cases hq : ((s.pair p).toNat : Int) / U d < 4294967296
    · simp only [if_neg hd, if_pos hq]
    · simp only [if_neg hd, if_neg hq]

theorem ensures_finishDivide {s : State} {p : PairReg} {d : Word} {P : State → Prop}
    (hv : ∀ q r, P ((s.setReg (pairLo p) q).setReg (pairHi p) r).advance)
    (hz : U d = 0 → P (s.setStatus (.error .divisionByZero)))
    (ho : P (s.setStatus (.error .quotientOverflow))) : Ensures (s.finishDivide p d) P := by
  rw [finishDivide_eq]
  refine ensures_ite (fun h => (ensures_raise ..).2 (hz h)) fun _ => ensures_ite (fun _ => (ensures_next ..).2 (hv _ _)) fun _ => ?_
  exact (ensures_raise ..).2 ho

/-! ### PUTCHAR (R108) -/

/-- What PUTCHAR outputs or raises, for the configured (unsigned) reading: nothing is refused. -/
theorem charOfWord_unsigned (w : Word) :
    charOfWord false w = if 255 < U w then .error (.inl .charOutOfRange) else .ok (w.setWidth 8) := by
  have h : ¬intOfWord false w < 0 := not_lt.2 (U_nonneg w)
  rw [charOfWord, if_neg h]
  rfl

/-- PUTCHAR either raises its one error or outputs the character (R108, R243). -/
theorem putChar_eq (s : State) (d : Reg) :
    s.putChar d =
      if 255 < U (s.reg d) then s.raise .charOutOfRange else .next (s.emit (.char ((s.reg d).setWidth 8))).advance := by
  simp only [State.putChar, Config.intSigned, charOfWord_unsigned]
  by_cases h : 255 < U (s.reg d)
  · simp only [if_pos h]
  · simp only [if_neg h]

theorem ensures_putChar {s : State} {d : Reg} {P : State → Prop}
    (hv : P (s.emit (.char ((s.reg d).setWidth 8))).advance) (he : P (s.setStatus (.error .charOutOfRange))) :
    Ensures (s.putChar d) P := by
  rw [putChar_eq]
  exact ensures_ite (fun _ => (ensures_raise ..).2 he) fun _ => (ensures_next ..).2 hv

/-! ### A NaN that is drawn (R162, R169) -/

/-- Its exponent field is 2047. -/
@[simp] theorem exponentField_nanPattern (n : Nat) : Ieee.exponentField (nanPattern n) = 2047 := by
  refine congrArg BitVec.toNat (a₂ := 2047#11) ?_
  refine (extract_append_mid _ _ (by decide)).trans ?_
  exact (extract_append_low (Config.nanSign n) 2047#11 (by decide)).trans (extract_all _)

/-- Its fraction is not 0. -/
theorem fractionField_nanPattern (n : Nat) : Ieee.fractionField (nanPattern n) ≠ 0 := by
  have h : (nanPattern n).extractLsb' 0 52 = if Config.nanFraction n = 0#52 then 1#52 else Config.nanFraction n :=
    (extract_append_low _ _ (by decide)).trans (extract_all _)
  rw [Ieee.fractionField, h]
  split
  · decide
  · rename_i hf
    exact fun e => hf (BitVec.eq_of_toNat_eq e)

/-! ### Frames -/

theorem KeepsBut.refl (regs : List Reg) (cells : List Nat) (s : State) : KeepsBut regs cells s s :=
  ⟨fun _ _ => rfl, fun _ _ => rfl, rfl, rfl, rfl, rfl⟩

theorem keepsBut_setReg (s : State) (d : Reg) (v : Word) : KeepsBut [d] [] s (s.setReg d v).advance :=
  ⟨fun r h => State.reg_setReg_ne s v (by simpa using h), fun _ _ => rfl, rfl, rfl, rfl, rfl⟩

theorem keepsBut_setPair (s : State) (p : PairReg) (v : DWord) :
    KeepsBut [pairLo p, pairHi p] [] s (s.setPair p v).advance := by
  refine ⟨fun r h => ?_, fun _ _ => rfl, rfl, rfl, rfl, rfl⟩
  simp only [List.mem_cons, List.not_mem_nil, or_false, not_or] at h
  exact State.reg_setPair_ne s v h.1 h.2

theorem keepsBut_setPc (s : State) (a : Word) : KeepsBut [] [] s (s.setPc a) :=
  ⟨fun _ _ => rfl, fun _ _ => rfl, rfl, rfl, rfl, rfl⟩

theorem keepsBut_setFlags (s : State) (f : BitVec 6) : KeepsBut [] [] s (s.setFlags f).advance :=
  ⟨fun _ _ => rfl, fun _ _ => rfl, rfl, rfl, rfl, rfl⟩

theorem keepsBut_setCell (s : State) (a : Nat) (v : Word) : KeepsBut [] [a] s (s.setCell a v).advance :=
  ⟨fun _ _ => rfl, fun b h => State.cell_setCell_ne s v (by simpa using h), rfl, rfl, rfl, rfl⟩

theorem keepsBut_setCell2 (s : State) (a b : Nat) (v w : Word) :
    KeepsBut [] [a, b] s ((s.setCell a v).setCell b w).advance := by
  refine ⟨fun _ _ => rfl, fun c h => ?_, rfl, rfl, rfl, rfl⟩
  simp only [List.mem_cons, List.not_mem_nil, or_false, not_or] at h
  simp [State.cell_setCell, h.1, h.2]

/-- A command that ends in `finishReg` gives its register (R25). -/
theorem givesReg_of_finishReg {i : Instr} {s : State} {d : Reg} {v : Word} (h : exec i s = s.finishReg d v) :
    GivesReg i s d v :=
  ⟨_, h, by simp, State.nextPc_eq s, rfl, keepsBut_setReg s d v⟩

/-- A command that ends in `finishPair` gives its pair (R25). -/
theorem givesPair_of_finishPair {i : Instr} {s : State} {p : PairReg} {v : DWord} (h : exec i s = s.finishPair p v) :
    GivesPair i s p v :=
  ⟨_, h, by simp, by simp, State.nextPc_eq s, rfl, keepsBut_setPair s p v⟩

/-- A command that ends in `finishCompare` gives its flags (R25). -/
theorem givesFlags_of_finishCompare {i : Instr} {s : State} {c : Cmp} (h : exec i s = s.finishCompare c) :
    GivesFlags i s (flagsOf c) :=
  ⟨_, h, rfl, State.nextPc_eq s, keepsBut_setFlags s _⟩

/-- A command that ends in `finishFp` gives the floating-point result (R162). -/
theorem givesFp_of_finishFp {i : Instr} {s : State} {p : PairReg} {r : FpResult} (h : exec i s = s.finishFp p r) :
    GivesFp i s p r := by
  have hp : ∀ (t : State) (d : DWord), (t.setPair p d).advance.pair p = d := fun t d => State.pair_setPair t p d
  cases r with
  | value d => exact ⟨_, h, State.nextPc_eq s, rfl, fun v e => by cases e; exact ⟨hp s d, keepsBut_setPair s p d⟩, nofun⟩
  | nan =>
    refine ⟨_, h, State.nextPc_eq s, rfl, nofun, fun _ => ?_⟩
    rw [hp]
    exact ⟨exponentField_nanPattern _, fractionField_nanPattern _, keepsBut_setPair (s.setNanDraws (s.nanDraws + 1)) p _⟩

end Sys2Proof.Machine
end

