-- ==== Sys2Proof/Laws/Ieee.lean ====
section
/-! SUPPORT. The fields of a floating-point pattern, and what kinds of pattern there are (43_floating_point.md R160,
R169; log 10). -/

namespace Sys2Proof.Machine

theorem Ieee.exponentField_lt (d : DWord) : Ieee.exponentField d < 2048 := BitVec.isLt _

theorem Ieee.fractionField_lt (d : DWord) : Ieee.fractionField d < 2 ^ 52 := BitVec.isLt _

/-! ### Packing a pattern -/

@[simp] theorem Ieee.signField_pack (neg : Bool) (body : Nat) : Ieee.signField (Ieee.pack neg body) = neg := by
  rw [Ieee.signField, Ieee.pack, BitVec.getLsbD_append]
  simp

theorem Ieee.exponentField_pack (neg : Bool) (body : Nat) (h : body < 2 ^ 63) :
    Ieee.exponentField (Ieee.pack neg body) = body / 2 ^ 52 := by
  have e : (Ieee.pack neg body).extractLsb' 52 11 = (BitVec.ofNat 63 body).extractLsb' 52 11 :=
    extract_append_low _ _ (by decide)
  rw [Ieee.exponentField, e]
  simp only [BitVec.extractLsb'_toNat, BitVec.toNat_ofNat, Nat.shiftRight_eq_div_pow]
  omega

theorem Ieee.fractionField_pack (neg : Bool) (body : Nat) :
    Ieee.fractionField (Ieee.pack neg body) = body % 2 ^ 52 := by
  have e : (Ieee.pack neg body).extractLsb' 0 52 = (BitVec.ofNat 63 body).extractLsb' 0 52 :=
    extract_append_low _ _ (by decide)
  rw [Ieee.fractionField, e]
  simp only [BitVec.extractLsb'_toNat, BitVec.toNat_ofNat, Nat.shiftRight_zero]
  omega

theorem Ieee.infinity_eq (neg : Bool) : Ieee.infinity neg = infBits neg := by cases neg <;> decide

theorem Ieee.zero_eq (neg : Bool) : Ieee.zero neg = zeroBits neg := by cases neg <;> decide

/-! ### The kinds of pattern (R169) -/

theorem Ieee.valueOf_eq_nan (d : DWord) : Ieee.valueOf d = .nan ↔ Ieee.IsNaN d := by
  unfold Ieee.valueOf Ieee.IsNaN
  split
  · split <;> simp_all
  · split <;> simp_all

@[simp] theorem Ieee.valueOf_infBits (neg : Bool) : Ieee.valueOf (infBits neg) = .inf neg := by cases neg <;> decide

@[simp] theorem Ieee.valueOf_zeroBits (neg : Bool) : Ieee.valueOf (zeroBits neg) = .finite neg 0 (-1074) := by
  cases neg <;> decide

/-- A finite pattern has a value with its sign. -/
theorem Ieee.valueOf_of_isFinite (d : DWord) (h : Ieee.IsFinite d) :
    ∃ m k, Ieee.valueOf d = .finite (Ieee.signField d) m k := by
  rw [Ieee.valueOf, if_neg h]
  split <;> exact ⟨_, _, rfl⟩

/-- Only a finite pattern has a finite value: its sign, at most 53 significant bits, and an exponent in range, the least
one where the leading bit is absent. -/
theorem Ieee.isFinite_of_valueOf (d : DWord) (neg : Bool) (m : Nat) (k : Int) (h : Ieee.valueOf d = .finite neg m k) :
    Ieee.IsFinite d ∧ Ieee.signField d = neg ∧ m < 2 ^ 53 ∧ -1074 ≤ k ∧ k ≤ 971 ∧ (k = -1074 ∨ 2 ^ 52 ≤ m) := by
  have hf := Ieee.fractionField_lt d
  have he := Ieee.exponentField_lt d
  unfold Ieee.valueOf at h
  split at h
  · split at h <;> cases h
  · rename_i hne
    split at h <;> cases h
    · exact ⟨hne, rfl, by omega, by omega, by omega, .inl rfl⟩
    · exact ⟨hne, rfl, by omega, by omega, by omega, .inr (by omega)⟩

end Sys2Proof.Machine
end

