-- ==== Sys2Proof/Laws/PerInstr.lean ====
section
/-! SUPPORT. The family of lemmas about each command as syntax: the word an assembler writes for it has, in bits 31:24, the
code the opcode map gives its mnemonic (30_encoding.md R61, R68, R83). -/

namespace Sys2Proof.Laws

/-- The opcode map (R68): the code of a command. -/
def codeOf : Instr → BitVec 8
  | .halt _ _ => 0
  | .syscall _ _ => 1
  | .add _ _ _ => 2
  | .addi _ _ => 3
  | .sub _ _ _ => 4
  | .subi _ _ => 5
  | .mul _ _ _ => 6
  | .muli _ _ => 7
  | .div _ _ _ => 8
  | .divi _ _ => 9
  | .lc _ _ => 12
  | .shl _ _ _ => 13
  | .shli _ _ => 14
  | .shr _ _ _ => 15
  | .shri _ _ => 16
  | .and _ _ _ => 17
  | .andi _ _ => 18
  | .or _ _ _ => 19
  | .ori _ _ => 20
  | .xor _ _ _ => 21
  | .xori _ _ => 22
  | .not _ _ => 23
  | .mov _ _ _ => 24
  | .addd _ _ _ => 32
  | .subd _ _ _ => 33
  | .muld _ _ _ => 34
  | .divd _ _ _ => 35
  | .itod _ _ _ => 36
  | .dtoi _ _ _ => 37
  | .push _ _ => 38
  | .pop _ _ => 39
  | .call _ _ _ => 40
  | .calli _ => 41
  | .ret _ => 42
  | .cmp _ _ _ => 43
  | .cmpi _ _ => 44
  | .cmpd _ _ _ => 45
  | .jmp _ => 46
  | .jne _ => 47
  | .jeq _ => 48
  | .jle _ => 49
  | .jl _ => 50
  | .jge _ => 51
  | .jg _ => 52
  | .load _ _ => 64
  | .store _ _ => 65
  | .load2 _ _ => 66
  | .store2 _ _ => 67
  | .loadr _ _ _ => 68
  | .storer _ _ _ => 69
  | .loadr2 _ _ _ => 70
  | .storer2 _ _ _ => 71

/-- The code field of a command's word is its code. -/
def CodeField.Statement (i : Instr) : Prop := codeField (encode i) = codeOf i

end Sys2Proof.Laws

open Sys2Proof Sys2Proof.Laws

theorem Sys2Proof.Laws.CodeField.halt (rd : RegNo) (imm : Imm20) : CodeField.Statement (.halt rd imm) :=
  codeField_encodeRI ..
theorem Sys2Proof.Laws.CodeField.syscall (rd : RegNo) (imm : Imm20) : CodeField.Statement (.syscall rd imm) :=
  codeField_encodeRI ..
theorem Sys2Proof.Laws.CodeField.add (rd rs : RegNo) (imm : Imm16) : CodeField.Statement (.add rd rs imm) :=
  codeField_encodeRR ..
theorem Sys2Proof.Laws.CodeField.addi (rd : RegNo) (imm : Imm20) : CodeField.Statement (.addi rd imm) :=
  codeField_encodeRI ..
theorem Sys2Proof.Laws.CodeField.sub (rd rs : RegNo) (imm : Imm16) : CodeField.Statement (.sub rd rs imm) :=
  codeField_encodeRR ..
theorem Sys2Proof.Laws.CodeField.subi (rd : RegNo) (imm : Imm20) : CodeField.Statement (.subi rd imm) :=
  codeField_encodeRI ..
theorem Sys2Proof.Laws.CodeField.mul (rd rs : RegNo) (imm : Imm16) : CodeField.Statement (.mul rd rs imm) :=
  codeField_encodeRR ..
theorem Sys2Proof.Laws.CodeField.muli (rd : RegNo) (imm : Imm20) : CodeField.Statement (.muli rd imm) :=
  codeField_encodeRI ..
theorem Sys2Proof.Laws.CodeField.div (rd rs : RegNo) (imm : Imm16) : CodeField.Statement (.div rd rs imm) :=
  codeField_encodeRR ..
theorem Sys2Proof.Laws.CodeField.divi (rd : RegNo) (imm : Imm20) : CodeField.Statement (.divi rd imm) :=
  codeField_encodeRI ..
theorem Sys2Proof.Laws.CodeField.lc (rd : RegNo) (imm : Imm20) : CodeField.Statement (.lc rd imm) :=
  codeField_encodeRI ..
theorem Sys2Proof.Laws.CodeField.shl (rd rs : RegNo) (imm : Imm16) : CodeField.Statement (.shl rd rs imm) :=
  codeField_encodeRR ..
theorem Sys2Proof.Laws.CodeField.shli (rd : RegNo) (imm : Imm20) : CodeField.Statement (.shli rd imm) :=
  codeField_encodeRI ..
theorem Sys2Proof.Laws.CodeField.shr (rd rs : RegNo) (imm : Imm16) : CodeField.Statement (.shr rd rs imm) :=
  codeField_encodeRR ..
theorem Sys2Proof.Laws.CodeField.shri (rd : RegNo) (imm : Imm20) : CodeField.Statement (.shri rd imm) :=
  codeField_encodeRI ..
theorem Sys2Proof.Laws.CodeField.and (rd rs : RegNo) (imm : Imm16) : CodeField.Statement (.and rd rs imm) :=
  codeField_encodeRR ..
theorem Sys2Proof.Laws.CodeField.andi (rd : RegNo) (imm : Imm20) : CodeField.Statement (.andi rd imm) :=
  codeField_encodeRI ..
theorem Sys2Proof.Laws.CodeField.or (rd rs : RegNo) (imm : Imm16) : CodeField.Statement (.or rd rs imm) :=
  codeField_encodeRR ..
theorem Sys2Proof.Laws.CodeField.ori (rd : RegNo) (imm : Imm20) : CodeField.Statement (.ori rd imm) :=
  codeField_encodeRI ..
theorem Sys2Proof.Laws.CodeField.xor (rd rs : RegNo) (imm : Imm16) : CodeField.Statement (.xor rd rs imm) :=
  codeField_encodeRR ..
theorem Sys2Proof.Laws.CodeField.xori (rd : RegNo) (imm : Imm20) : CodeField.Statement (.xori rd imm) :=
  codeField_encodeRI ..
theorem Sys2Proof.Laws.CodeField.not (rd : RegNo) (imm : Imm20) : CodeField.Statement (.not rd imm) :=
  codeField_encodeRI ..
theorem Sys2Proof.Laws.CodeField.mov (rd rs : RegNo) (imm : Imm16) : CodeField.Statement (.mov rd rs imm) :=
  codeField_encodeRR ..
theorem Sys2Proof.Laws.CodeField.addd (rd rs : RegNo) (imm : Imm16) : CodeField.Statement (.addd rd rs imm) :=
  codeField_encodeRR ..
theorem Sys2Proof.Laws.CodeField.subd (rd rs : RegNo) (imm : Imm16) : CodeField.Statement (.subd rd rs imm) :=
  codeField_encodeRR ..
theorem Sys2Proof.Laws.CodeField.muld (rd rs : RegNo) (imm : Imm16) : CodeField.Statement (.muld rd rs imm) :=
  codeField_encodeRR ..
theorem Sys2Proof.Laws.CodeField.divd (rd rs : RegNo) (imm : Imm16) : CodeField.Statement (.divd rd rs imm) :=
  codeField_encodeRR ..
theorem Sys2Proof.Laws.CodeField.itod (rd rs : RegNo) (imm : Imm16) : CodeField.Statement (.itod rd rs imm) :=
  codeField_encodeRR ..
theorem Sys2Proof.Laws.CodeField.dtoi (rd rs : RegNo) (imm : Imm16) : CodeField.Statement (.dtoi rd rs imm) :=
  codeField_encodeRR ..
theorem Sys2Proof.Laws.CodeField.push (rd : RegNo) (imm : Imm20) : CodeField.Statement (.push rd imm) :=
  codeField_encodeRI ..
theorem Sys2Proof.Laws.CodeField.pop (rd : RegNo) (imm : Imm20) : CodeField.Statement (.pop rd imm) :=
  codeField_encodeRI ..
theorem Sys2Proof.Laws.CodeField.call (rd rs : RegNo) (imm : Imm16) : CodeField.Statement (.call rd rs imm) :=
  codeField_encodeRR ..
theorem Sys2Proof.Laws.CodeField.calli (addr : Addr) : CodeField.Statement (.calli addr) :=
  codeField_encodeJ ..
theorem Sys2Proof.Laws.CodeField.ret (addr : Addr) : CodeField.Statement (.ret addr) :=
  codeField_encodeJ ..
theorem Sys2Proof.Laws.CodeField.cmp (rd rs : RegNo) (imm : Imm16) : CodeField.Statement (.cmp rd rs imm) :=
  codeField_encodeRR ..
theorem Sys2Proof.Laws.CodeField.cmpi (rd : RegNo) (imm : Imm20) : CodeField.Statement (.cmpi rd imm) :=
  codeField_encodeRI ..
theorem Sys2Proof.Laws.CodeField.cmpd (rd rs : RegNo) (imm : Imm16) : CodeField.Statement (.cmpd rd rs imm) :=
  codeField_encodeRR ..
theorem Sys2Proof.Laws.CodeField.jmp (addr : Addr) : CodeField.Statement (.jmp addr) :=
  codeField_encodeJ ..
theorem Sys2Proof.Laws.CodeField.jne (addr : Addr) : CodeField.Statement (.jne addr) :=
  codeField_encodeJ ..
theorem Sys2Proof.Laws.CodeField.jeq (addr : Addr) : CodeField.Statement (.jeq addr) :=
  codeField_encodeJ ..
theorem Sys2Proof.Laws.CodeField.jle (addr : Addr) : CodeField.Statement (.jle addr) :=
  codeField_encodeJ ..
theorem Sys2Proof.Laws.CodeField.jl (addr : Addr) : CodeField.Statement (.jl addr) :=
  codeField_encodeJ ..
theorem Sys2Proof.Laws.CodeField.jge (addr : Addr) : CodeField.Statement (.jge addr) :=
  codeField_encodeJ ..
theorem Sys2Proof.Laws.CodeField.jg (addr : Addr) : CodeField.Statement (.jg addr) :=
  codeField_encodeJ ..
theorem Sys2Proof.Laws.CodeField.load (rd : RegNo) (addr : Addr) : CodeField.Statement (.load rd addr) :=
  codeField_encodeRM ..
theorem Sys2Proof.Laws.CodeField.store (rd : RegNo) (addr : Addr) : CodeField.Statement (.store rd addr) :=
  codeField_encodeRM ..
theorem Sys2Proof.Laws.CodeField.load2 (rd : RegNo) (addr : Addr) : CodeField.Statement (.load2 rd addr) :=
  codeField_encodeRM ..
theorem Sys2Proof.Laws.CodeField.store2 (rd : RegNo) (addr : Addr) : CodeField.Statement (.store2 rd addr) :=
  codeField_encodeRM ..
theorem Sys2Proof.Laws.CodeField.loadr (rd rs : RegNo) (imm : Imm16) : CodeField.Statement (.loadr rd rs imm) :=
  codeField_encodeRR ..
theorem Sys2Proof.Laws.CodeField.storer (rd rs : RegNo) (imm : Imm16) : CodeField.Statement (.storer rd rs imm) :=
  codeField_encodeRR ..
theorem Sys2Proof.Laws.CodeField.loadr2 (rd rs : RegNo) (imm : Imm16) : CodeField.Statement (.loadr2 rd rs imm) :=
  codeField_encodeRR ..
theorem Sys2Proof.Laws.CodeField.storer2 (rd rs : RegNo) (imm : Imm16) : CodeField.Statement (.storer2 rd rs imm) :=
  codeField_encodeRR ..
end

