-- ==== Sys2Proof/Tests/Slice0.lean ====
section
/-! SUPPORT. The model's own tests. Words and expected results are the spec's (95_test_vectors.md), never the model's own
answers; a test's name ends in the vector's name there. The `test_witness_` theorems show, for each statement with
hypotheses, concrete states and operands that meet them. -/

namespace Sys2Proof.Tests

open Sys2Proof.Machine

/-! ### Well-formedness (10_state.md R23): one ill-formed command for each check -/

theorem test_wellFormed_refuses_rd : (Instr.add 15 0 0).wellFormed = false := by decide
theorem test_wellFormed_refuses_rs : (Instr.add 0 15 0).wellFormed = false := by decide
theorem test_wellFormed_refuses_rd_ri : (Instr.lc 15 1).wellFormed = false := by decide
theorem test_wellFormed_refuses_pair_at_14 : (Instr.mul 14 0 0).wellFormed = false := by decide
theorem test_wellFormed_refuses_pair_at_15 : (Instr.load2 15 0).wellFormed = false := by decide
theorem test_wellFormed_refuses_source_pair_at_14 : (Instr.dtoi 2 14 0).wellFormed = false := by decide
theorem test_wellFormed_refuses_source_pair_at_15 : (Instr.cmpd 0 15 0).wellFormed = false := by decide
theorem test_wellFormed_refuses_syscall_register : (Instr.syscall 15 100).wellFormed = false := by decide
theorem test_wellFormed_refuses_syscall_pair : (Instr.syscall 14 101).wellFormed = false := by decide
theorem test_wellFormed_refuses_unknown_syscall : (Instr.syscall 15 1).wellFormed = false := by decide
theorem test_wellFormed_accepts_ignored_fields :
    (Instr.halt 15 0xFFFFF).wellFormed = true ∧ (Instr.syscall 15 0).wellFormed = true := by decide
theorem test_wellFormed_accepts_last_registers :
    (Instr.add 14 14 0).wellFormed = true ∧ (Instr.addd 13 13 0).wellFormed = true := by decide

/-! ### Decoding and encoding: every command's example in the source, with the word of 95_test_vectors.md part 1 -/

/-- The word decodes to the command and is the word of the command. -/
def codes (w : Word) (i : Instr) : Bool :=
  match decode w with
  | .ok j => j = i && encode i = w
  | .error _ => false

theorem test_codes_system :
    ([
      (0x00100000, .halt 1 0), (0x01000064, .syscall 0 100)] : List (Word × Instr)).all (fun c => codes c.1 c.2) = true := by decide

theorem test_codes_integer_arithmetic :
    ([
      (0x02120003, .add 1 2 3), (0x0340000A, .addi 4 10), (0x04350005, .sub 3 5 5), (0x05400001, .subi 4 1),
      (0x063A0002, .mul 3 10 2), (0x07500064, .muli 5 100), (0x083A0005, .div 3 10 5), (0x0930000A, .divi 3 10)] : List (Word × Instr)).all (fun c => codes c.1 c.2) = true := by decide

theorem test_codes_constant_shift_logic_move :
    ([
      (0x0C70007B, .lc 7 123), (0x0D120001, .shl 1 2 1), (0x0E100002, .shli 1 2), (0x0F120001, .shr 1 2 1),
      (0x10100002, .shri 1 2), (0x11460005, .and 4 6 5), (0x12500002, .andi 5 2), (0x13320002, .or 3 2 2),
      (0x14600064, .ori 6 100), (0x15150000, .xor 1 5 0), (0x1610007F, .xori 1 127), (0x17100000, .not 1 0),
      (0x1803000A, .mov 0 3 10)] : List (Word × Instr)).all (fun c => codes c.1 c.2) = true := by decide

theorem test_codes_floating_point :
    ([
      (0x20250000, .addd 2 5 0), (0x21160000, .subd 1 6 0), (0x22020000, .muld 0 2 0), (0x23130000, .divd 1 3 0),
      (0x24250005, .itod 2 5 5), (0x25250000, .dtoi 2 5 0)] : List (Word × Instr)).all (fun c => codes c.1 c.2) = true := by decide

theorem test_codes_stack_and_calls :
    ([
      (0x260000FF, .push 0 255), (0x27300003, .pop 3 3), (0x28050002, .call 0 5 2), (0x2900340B, .calli 13323),
      (0x2A000003, .ret 3)] : List (Word × Instr)).all (fun c => codes c.1 c.2) = true := by decide

theorem test_codes_compare_and_jumps :
    ([
      (0x2B010002, .cmp 0 1 2), (0x2C000000, .cmpi 0 0), (0x2D140000, .cmpd 1 4 0), (0x2E0008A4, .jmp 2212),
      (0x2F0008A4, .jne 2212), (0x300008A4, .jeq 2212), (0x310008A4, .jle 2212), (0x320008A4, .jl 2212),
      (0x330008A4, .jge 2212), (0x340008A4, .jg 2212)] : List (Word × Instr)).all (fun c => codes c.1 c.2) = true := by decide

theorem test_codes_load_store :
    ([
      (0x40003039, .load 0 12345), (0x41003038, .store 0 12344), (0x42003039, .load2 0 12345),
      (0x43003038, .store2 0 12344), (0x4401000F, .loadr 0 1 15), (0x450B0003, .storer 0 11 3),
      (0x460A000C, .loadr2 0 10 12), (0x4703000A, .storer2 0 3 10)] : List (Word × Instr)).all (fun c => codes c.1 c.2) = true := by decide

/-- One word of each format, its fields written out bit by bit (R62 to R65): `add r1, r2, 3`, `lc r7, 123`,
`store r0, 12344`, `jne 2212`. -/
theorem test_decode_by_fields :
    decode (0b00000010#8 ++ 0b0001#4 ++ 0b0010#4 ++ 0b0000000000000011#16) = .ok (.add 1 2 3) ∧
    decode (0b00001100#8 ++ 0b0111#4 ++ 0b00000000000001111011#20) = .ok (.lc 7 123) ∧
    decode (0b01000001#8 ++ 0b0000#4 ++ 0b00000011000000111000#20) = .ok (.store 0 12344) ∧
    decode (0b00101111#8 ++ 0b0000#4 ++ 0b00000000100010100100#20) = .ok (.jne 2212) := ⟨rfl, rfl, rfl, rfl⟩

/-- Unassigned codes are rejected by name (R69). -/
theorem test_decode_rejects :
    ([10, 11, 25, 31, 53, 63, 72, 255] : List (BitVec 8)).all (fun c =>
      match decode (c ++ 0#24) with
      | .ok _ => false
      | .error e => e = .unassignedCode c) = true := by decide

theorem test_decodeTableWord : decodeTableWord 32 0x02120003 = some (.add 1 2 3) := by decide

/-! ### One step of each command (95_test_vectors.md part 2) -/

/-- The vectors' state before: the command's word at `pc`, r14 at the launch value, the listed registers and cells; every
other register holds a value of its own, so that a stray write shows. -/
def start (pc word : Word) (regs : List (Fin 15 × Word)) (cells : List (Nat × Word)) : State :=
  let s : State := { State.reset with
    regs := #v[0xA0000000, 0xA0000001, 0xA0000002, 0xA0000003, 0xA0000004, 0xA0000005, 0xA0000006, 0xA0000007,
      0xA0000008, 0xA0000009, 0xA000000A, 0xA000000B, 0xA000000C, 0xA000000D, 0x000FFFFF],
    pc := pc, flags := 0b100100#6 }
  let s := regs.foldl (fun s r => s.setReg r.1 r.2) s
  (cells.foldl (fun s c => s.setCell c.1 c.2) s).placeWord word

/-- One step answers exactly the state before with these updates. -/
def gives (s : State) (after : State → State) : Bool :=
  match step s with
  | .next u => u = after s
  | .fault _ => false
  | .refused _ => false

/-- One step is refused for this reason. -/
def refuses (s : State) (reason : RefuseReason) : Bool :=
  match step s with
  | .next _ => false
  | .fault _ => false
  | .refused r => r = .refuse reason

theorem test_x_Y2 : gives (start 100 0x00FFFFFF [] []) (fun s => s |>.setStatus .halted) = true := by decide
theorem test_syscall_Y8 :
    gives (start 100 0x01200067 [(2, 0x0), (3, 0x40040000)] [])
      (fun s => s |>.setOutTrace [.double 0x4004000000000000] |>.setPc 101) = true := by decide
theorem test_syscall_Y12 :
    gives (start 100 0x01000069 [(0, 0x100)] [])
      (fun s => s |>.setStatus (.error .charOutOfRange)) = true := by decide
theorem test_add_A1 :
    gives (start 100 0x02120003 [(1, 0x5), (2, 0x7)] []) (fun s => s |>.setReg 1 0xF |>.setPc 101) = true := by decide
theorem test_add_A2 :
    gives (start 100 0x02120001 [(1, 0xFFFFFFFF), (2, 0x0)] [])
      (fun s => s |>.setReg 1 0x0 |>.setPc 101) = true := by decide
theorem test_addi_A6 :
    gives (start 100 0x034FFFFF [(4, 0x1)] []) (fun s => s |>.setReg 4 0x100000 |>.setPc 101) = true := by decide
theorem test_sub_A9 :
    gives (start 100 0x04350000 [(3, 0x0), (5, 0x1)] [])
      (fun s => s |>.setReg 3 0xFFFFFFFF |>.setPc 101) = true := by decide
theorem test_subi_A11 :
    gives (start 100 0x05400001 [(4, 0x0)] []) (fun s => s |>.setReg 4 0xFFFFFFFF |>.setPc 101) = true := by decide
theorem test_mul_A15 :
    gives (start 100 0x06340000 [(3, 0x6), (4, 0x7)] [])
      (fun s => s |>.setReg 3 0x2A |>.setReg 4 0x0 |>.setPc 101) = true := by decide
theorem test_mul_A16 :
    gives (start 100 0x06D00000 [(0, 0x10000), (13, 0x10000)] [])
      (fun s => s |>.setReg 13 0x0 |>.setReg 14 0x1 |>.setPc 101) = true := by decide
theorem test_muli_A19 :
    gives (start 100 0x07500064 [(5, 0x80000000)] [])
      (fun s => s |>.setReg 5 0x0 |>.setReg 6 0x32 |>.setPc 101) = true := by decide
theorem test_div_A24 :
    gives (start 100 0x083A0000 [(3, 0x5), (4, 0xFFFFFFFE), (10, 0xFFFFFFFF)] [])
      (fun s => s |>.setReg 3 0xFFFFFFFF |>.setReg 4 0x4 |>.setPc 101) = true := by decide
theorem test_divi_A29 :
    gives (start 100 0x0930000A [(3, 0x4D2), (4, 0x0)] [])
      (fun s => s |>.setReg 3 0x7B |>.setReg 4 0x4 |>.setPc 101) = true := by decide
theorem test_divi_A31 :
    gives (start 100 0x09300000 [(3, 0x5), (4, 0x0)] [])
      (fun s => s |>.setStatus (.error .divisionByZero)) = true := by decide
theorem test_lc_K2 :
    gives (start 100 0x0C7FFFFF [] []) (fun s => s |>.setReg 7 0xFFFFF |>.setPc 101) = true := by decide
theorem test_shl_K8 :
    gives (start 100 0x0D120000 [(1, 0x3), (2, 0x20)] [])
      (fun s => s |>.setReg 1 0x0 |>.setPc 101) = true := by decide
theorem test_shl_K9 :
    gives (start 100 0x0D120001 [(1, 0x3), (2, 0xFFFFFFFF)] []) (fun s => s |>.setPc 101) = true := by decide
theorem test_shli_K11 :
    gives (start 100 0x0E100002 [(1, 0xC0000001)] []) (fun s => s |>.setReg 1 0x4 |>.setPc 101) = true := by decide
theorem test_shr_K13 :
    gives (start 100 0x0F120001 [(1, 0x80000000), (2, 0x3)] [])
      (fun s => s |>.setReg 1 0x8000000 |>.setPc 101) = true := by decide
theorem test_shri_K16 :
    gives (start 100 0x1010001F [(1, 0x80000000)] []) (fun s => s |>.setReg 1 0x1 |>.setPc 101) = true := by decide
theorem test_and_K17 :
    gives (start 100 0x11460005 [(4, 0xFFFF), (6, 0xF0B)] [])
      (fun s => s |>.setReg 4 0xF10 |>.setPc 101) = true := by decide
theorem test_andi_K19 :
    gives (start 100 0x125FFFFF [(5, 0xFFFFFFFF)] [])
      (fun s => s |>.setReg 5 0xFFFFF |>.setPc 101) = true := by decide
theorem test_or_K20 :
    gives (start 100 0x13320002 [(2, 0xE), (3, 0x1)] [])
      (fun s => s |>.setReg 3 0x11 |>.setPc 101) = true := by decide
theorem test_ori_K21 :
    gives (start 100 0x14600064 [(6, 0x3)] []) (fun s => s |>.setReg 6 0x67 |>.setPc 101) = true := by decide
theorem test_xor_K22 :
    gives (start 100 0x15150000 [(1, 0xFF00), (5, 0xFF0)] [])
      (fun s => s |>.setReg 1 0xF0F0 |>.setPc 101) = true := by decide
theorem test_xori_K24 :
    gives (start 100 0x1610007F [(1, 0x55)] []) (fun s => s |>.setReg 1 0x2A |>.setPc 101) = true := by decide
theorem test_not_K26 :
    gives (start 100 0x17100063 [(1, 0xFFFF)] []) (fun s => s |>.setReg 1 0xFFFF0000 |>.setPc 101) = true := by decide
theorem test_mov_K28 :
    gives (start 100 0x18030001 [(3, 0xFFFFFFFF)] []) (fun s => s |>.setReg 0 0x0 |>.setPc 101) = true := by decide
theorem test_addd_F5 :
    gives (start 100 0x20020000 [(0, 0x9999999A), (1, 0x3FB99999), (2, 0x9999999A), (3, 0x3FC99999)] [])
      (fun s => s |>.setReg 0 0x33333334 |>.setReg 1 0x3FD33333 |>.setPc 101) = true := by decide
theorem test_addd_F8 :
    gives (start 100 0x20230000 [(2, 0x0), (3, 0x3FF80000), (4, 0x40020000)] [])
      (fun s => s |>.setReg 2 0x3FF80000 |>.setReg 3 0x400E0000 |>.setPc 101) = true := by decide
theorem test_subd_F2 :
    gives (start 100 0x21160000 [(1, 0x0), (2, 0x3FF80000), (6, 0x0), (7, 0x40020000)] [])
      (fun s => s |>.setReg 2 0xBFE80000 |>.setPc 101) = true := by decide
theorem test_muld_F3 :
    gives (start 100 0x22020000 [(0, 0x0), (1, 0x3FF80000), (2, 0x0), (3, 0x40020000)] [])
      (fun s => s |>.setReg 1 0x400B0000 |>.setPc 101) = true := by decide
theorem test_divd_F4 :
    gives (start 100 0x23130000 [(1, 0x0), (2, 0x3FF80000), (3, 0x0), (4, 0x40020000)] [])
      (fun s => s |>.setReg 1 0x55555555 |>.setReg 2 0x3FE55555 |>.setPc 101) = true := by decide
theorem test_divd_F6 :
    gives (start 100 0x23020000 [(0, 0x0), (1, 0x3FF80000), (2, 0x0), (3, 0x0)] [])
      (fun s => s |>.setReg 1 0x7FF00000 |>.setPc 101) = true := by decide
theorem test_itod_F13 :
    gives (start 100 0x24250000 [(5, 0xFFFFFFFF)] [])
      (fun s => s |>.setReg 2 0xFFE00000 |>.setReg 3 0x41EFFFFF |>.setPc 101) = true := by decide
theorem test_dtoi_F16 :
    gives (start 100 0x25250000 [(5, 0x0), (6, 0xBFE00000)] [])
      (fun s => s |>.setStatus (.error .conversionOverflow)) = true := by decide
theorem test_dtoi_F18 :
    gives (start 100 0x25250000 [(5, 0xFFF00000), (6, 0x41EFFFFF)] [])
      (fun s => s |>.setReg 2 0xFFFFFFFF |>.setPc 101) = true := by decide
theorem test_push_S4 :
    gives (start 100 0x26E00000 [] [])
      (fun s => s |>.setReg 14 0xFFFFE |>.setCell 1048575 0xFFFFF |>.setPc 101) = true := by decide
theorem test_push_S6 :
    gives (start 100 0x26000000 [(0, 0x9), (14, 0x0)] [])
      (fun s => s |>.setReg 14 0xFFFFFFFF |>.setCell 0 0x9 |>.setPc 101) = true := by decide
theorem test_pop_S2 :
    gives (start 100 0x27300003 [(14, 0xFFFFE)] [(1048575, 0x100)])
      (fun s => s |>.setReg 3 0x103 |>.setReg 14 0xFFFFF |>.setPc 101) = true := by decide
theorem test_pop_S5 :
    gives (start 100 0x27E00002 [(14, 0xFFFFE)] [(1048575, 0x1F4)])
      (fun s => s |>.setReg 14 0x1F6 |>.setPc 101) = true := by decide
theorem test_call_S8 :
    gives (start 10 0x28050002 [(5, 0x62)] [])
      (fun s => s |>.setReg 0 0xB |>.setReg 14 0xFFFFE |>.setCell 1048575 0xB |>.setPc 100) = true := by decide
theorem test_call_S13 :
    gives (start 100 0x28E50000 [(5, 0xC8)] [])
      (fun s => s |>.setReg 14 0x65 |>.setCell 1048575 0x65 |>.setPc 200) = true := by decide
theorem test_calli_S10 :
    gives (start 7 0x2900340B [] [])
      (fun s => s |>.setReg 14 0xFFFFE |>.setCell 1048575 0x8 |>.setPc 13323) = true := by decide
theorem test_ret_S9 :
    gives (start 100 0x2A000003 [(14, 0xFFFF0)] [(1048564, 0x8)])
      (fun s => s |>.setReg 14 0xFFFF4 |>.setPc 8) = true := by decide
theorem test_ret_S16 :
    gives (start 100 0x2A000000 [(14, 0xFFFFE)] [(1048575, 0x200000)])
      (fun s => s |>.setReg 14 0xFFFFF |>.setPc 2097152) = true := by decide
theorem test_cmp_C4 :
    gives (start 100 0x2B010000 [(0, 0x80000000), (1, 0x1)] [])
      (fun s => s |>.setFlags 0b010110 |>.setPc 101) = true := by decide
theorem test_cmp_C7 :
    gives (start 100 0x2B000001 [(0, 0xFFFFFFFF)] [])
      (fun s => s |>.setFlags 0b010110 |>.setPc 101) = true := by decide
theorem test_cmpi_C10 :
    gives ((start 100 0x2C00000A [(0, 0x9)] []).setFlags 0b010110)
      (fun s => s |>.setFlags 0b101010 |>.setPc 101) = true := by decide
theorem test_cmpd_C12 :
    gives (start 100 0x2D140000 [(1, 0x0), (2, 0xBFE80000), (4, 0x0), (5, 0x3FF80000)] [])
      (fun s => s |>.setFlags 0b101010 |>.setPc 101) = true := by decide
theorem test_cmpd_C14 :
    gives (start 100 0x2D140000 [(1, 0x0), (2, 0x7FF80000), (4, 0x0), (5, 0x3FF80000)] [])
      (fun s => s |>.setFlags 0b000010 |>.setPc 101) = true := by decide
theorem test_x_C19 : gives (start 40 0x2E5008A4 [] []) (fun s => s |>.setPc 2212) = true := by decide
theorem test_load_M1 :
    gives (start 100 0x40003039 [] [(12345, 0xCAFE0001)])
      (fun s => s |>.setReg 0 0xCAFE0001 |>.setPc 101) = true := by decide
theorem test_store_M2 :
    gives (start 100 0x41003038 [(0, 0x4D)] []) (fun s => s |>.setCell 12344 0x4D |>.setPc 101) = true := by decide
theorem test_load2_M10 :
    gives (start 100 0x420FFFFF [] [(1048575, 0x3)])
      (fun s => s |>.setStatus (.error .addressOutOfRange)) = true := by decide
theorem test_store2_M4 :
    gives (start 100 0x43003038 [(0, 0x1), (1, 0x2)] [])
      (fun s => s |>.setCell 12344 0x1 |>.setCell 12345 0x2 |>.setPc 101) = true := by decide
theorem test_loadr_M13 :
    gives (start 100 0x44010001 [(1, 0xFFFFFFFF)] [(0, 0x11223344)])
      (fun s => s |>.setReg 0 0x11223344 |>.setPc 101) = true := by decide
theorem test_storer_M6 :
    gives (start 100 0x450B0003 [(0, 0x9), (11, 0x1F4)] [])
      (fun s => s |>.setCell 503 0x9 |>.setPc 101) = true := by decide
theorem test_loadr2_M15 :
    gives (start 100 0x46330000 [(3, 0x12C)] [(300, 0x7), (301, 0x8)])
      (fun s => s |>.setReg 3 0x7 |>.setReg 4 0x8 |>.setPc 101) = true := by decide
theorem test_storer2_M17 :
    gives (start 100 0x47340000 [(3, 0x1), (4, 0x2BC)] [])
      (fun s => s |>.setCell 700 0x1 |>.setCell 701 0x2BC |>.setPc 101) = true := by decide

/-! The table of conditional jumps, at pc = 40 with target 2212. -/

theorem test_jne_not_taken :
    gives ((start 40 0x2F0008A4 [] []).setFlags 0b110001) (fun s => s.setPc 41) = true := by decide
theorem test_jne_taken :
    gives ((start 40 0x2F0008A4 [] []).setFlags 0b000010) (fun s => s.setPc 2212) = true := by decide
theorem test_jeq_taken :
    gives ((start 40 0x300008A4 [] []).setFlags 0b110001) (fun s => s.setPc 2212) = true := by decide
theorem test_jeq_not_taken :
    gives ((start 40 0x300008A4 [] []).setFlags 0b010110) (fun s => s.setPc 41) = true := by decide
theorem test_jle_taken :
    gives ((start 40 0x310008A4 [] []).setFlags 0b101010) (fun s => s.setPc 2212) = true := by decide
theorem test_jle_not_taken :
    gives ((start 40 0x310008A4 [] []).setFlags 0b010110) (fun s => s.setPc 41) = true := by decide
theorem test_jl_taken :
    gives ((start 40 0x320008A4 [] []).setFlags 0b101010) (fun s => s.setPc 2212) = true := by decide
theorem test_jl_not_taken :
    gives ((start 40 0x320008A4 [] []).setFlags 0b110001) (fun s => s.setPc 41) = true := by decide
theorem test_jge_taken :
    gives ((start 40 0x330008A4 [] []).setFlags 0b010110) (fun s => s.setPc 2212) = true := by decide
theorem test_jge_not_taken :
    gives ((start 40 0x330008A4 [] []).setFlags 0b101010) (fun s => s.setPc 41) = true := by decide
theorem test_jg_taken :
    gives ((start 40 0x340008A4 [] []).setFlags 0b010110) (fun s => s.setPc 2212) = true := by decide
theorem test_jg_not_taken :
    gives ((start 40 0x340008A4 [] []).setFlags 0b110001) (fun s => s.setPc 41) = true := by decide

/-! Fetch, decoding and refusals. -/

theorem test_unassigned_before_register_15_D9 :
    gives (start 100 0x0AF00000 [] []) (fun s => s |>.setStatus (.error .illegalInstruction)) = true := by decide
theorem test_register_15_before_divisor_D12 : refuses (start 100 0x08F00000 [(0, 0x0)] []) .reg15 = true := by decide
theorem test_fetch_outside_memory_D14 :
    gives (start 1048576 0x00000000 [(1, 0x1), (2, 0x2)] [])
      (fun s => s |>.setStatus (.error .addressOutOfRange)) = true := by decide
theorem test_last_cell_D15 :
    gives (start 1048575 0x03100001 [(1, 0x1)] []) (fun s => s |>.setReg 1 0x2 |>.setPc 1048576) = true := by decide
theorem test_store_next_cell_M19 :
    gives (start 100 0x41000065 [(0, 0x0)] []) (fun s => s |>.setCell 101 0x0 |>.setPc 101) = true := by decide

/-- `withFetchWord` places the word that the very next step runs: `lc r7, 123` from reset. -/
theorem test_withFetchWord :
    gives (State.reset.withFetchWord 32 0x0C70007B) (fun s => (s.setReg 7 123).setPc 1) = true := by decide

/-! ### Witnesses: for each statement with hypotheses, states and operands that meet them, clause by clause -/

/-- A state for the witnesses: r3 and r4 hold a pair, r10 a source, r14 the stack pointer. -/
def withRegs (r3 r4 r10 r14 : Word) : State := start 100 0 [(3, r3), (4, r4), (10, r10), (14, r14)] []

/-- EncodeOfDecodeClearsOnlyIgnoredBits: a J-format word with ignored bits set, and a word without. -/
theorem test_witness_decoded_words : decode 0x2E5008A4 = .ok (.jmp 2212) ∧ decode 0x02120003 = .ok (.add 1 2 3) :=
  ⟨rfl, rfl⟩

/-- UnassignedCodesRaiseIllegalInstruction: running states whose `pc` is in range; the words' codes are the ends of the
unassigned ranges and their neighbours. -/
theorem test_witness_fetched_codes :
    ([(0x0A000000, 10), (0x0B000000, 11), (0x19000000, 25), (0x1F000000, 31), (0x35000000, 53), (0x3F000000, 63),
      (0x48000000, 72), (0xFF000000, 255), (0x00000000, 0), (0x09000000, 9), (0x0C000000, 12), (0x18000000, 24),
      (0x20000000, 32), (0x34000000, 52), (0x40000000, 64), (0x47000000, 71)] : List (Word × Nat)).all (fun c =>
      let s := start 1048575 c.1 [] []
      s.status = .running && s.pc.toNat < Config.memWords && (codeField (s.cell s.pc.toNat)).toNat = c.2) = true := by
  decide

/-- StepRunsTheDecodedCommand: `pc` outside memory; an unassigned code; a command, well-formed or not. -/
theorem test_witness_fetch :
    ((start 1048576 0 [] []).Running ∧ Config.memWords ≤ (start 1048576 0 [] []).pc.toNat) ∧
    (decode ((start 100 0x0A000000 [] []).cell 100) = .error (.unassignedCode 10) ∧
      decode ((start 100 0x02120003 [] []).cell 100) = .ok (.add 1 2 3) ∧
      decode ((start 100 0x02F20003 [] []).cell 100) = .ok (.add 15 2 3) ∧ (Instr.add 15 2 3).wellFormed = false) :=
  ⟨⟨rfl, by decide⟩, rfl, rfl, rfl, rfl⟩

/-- StoppedMachineTakesNoStep: every way of not running. -/
theorem test_witness_stopped :
    ([.halted, .exited, .error .divisionByZero, .refused .hostInput] : List Status).all (fun st =>
      (State.reset.setStatus st).status ≠ .running) = true := by decide

/-- WellFormedCommandsAnswerANextState: a command that completes, and an input call. -/
theorem test_witness_wellFormed :
    (Instr.add 1 2 3).wellFormed = true ∧ (Instr.syscall 0 100).wellFormed = true := by decide

/-- EveryStepKeepsTheInvariant: a store from a state with the invariant. -/
theorem test_witness_invariant :
    (start 100 0x41003038 [] []).Inv ∧ ∃ t, step (start 100 0x41003038 [] []) = .next t :=
  ⟨⟨by decide, nofun⟩, _, rfl⟩

/-- ErrorsArePreciseAndTerminal: a step that ends in an error. -/
theorem test_witness_error_step :
    ∃ t, step (start 100 0x09300000 [] []) = .next t ∧ t.status = .error .divisionByZero := ⟨_, rfl, rfl⟩

/-- ErrorsAreRaisedOnlyByTheirCommands: a command for each kind that commands raise. -/
theorem test_witness_error_kinds :
    ([(.divi 3 1, .quotientOverflow), (.dtoi 2 5 0, .conversionOverflow), (.syscall 0 105, .charOutOfRange),
      (.pop 3 0, .addressOutOfRange), (.syscall 0 1, .unknownSyscall), (.divi 3 0, .divisionByZero)] :
      List (Instr × ErrorKind)).all (fun c =>
      match exec c.1 (start 100 0 [] []) with
      | .next t => t.status = .error c.2
      | .fault _ => false
      | .refused _ => false) = true := by decide

/-- FlagsAreWrittenOnlyByComparisons, MemoryIsTouchedOnlyByItsCommands, OutputTraceOnlyGrows,
HostInputIsUsedOnlyByInputCalls, PcAdvancesUnlessTransferOrStop: `add` and `load` complete and are none of the kinds. -/
theorem test_witness_plain_commands :
    ∃ t u, exec (.add 1 2 3) (start 100 0 [] []) = .next t ∧ t.Running ∧
      exec (.load 0 100) (start 100 0 [] []) = .next u ∧
      (Instr.add 1 2 3).isCompare = false ∧ (Instr.add 1 2 3).accessesMemory = false ∧
      (Instr.load 0 100).writesMemory = false ∧ (Instr.add 1 2 3).isOutputCall = false ∧
      (Instr.add 1 2 3).isInputCall = false ∧ (Instr.add 1 2 3).isControlTransfer = false :=
  ⟨_, _, rfl, rfl, rfl, rfl, rfl, rfl, rfl, rfl, rfl⟩

/-- FlagsAreReadOnlyByConditionalJumps: a comparison and another command that complete, and one that is refused. -/
theorem test_witness_flag_readers :
    ∃ t u, exec (.cmpi 0 1) (start 100 0 [] []) = .next t ∧ exec (.lc 7 1) (start 100 0 [] []) = .next u ∧
      exec (.lc 15 1) (start 100 0 [] []) = refuse .reg15 ∧ (Instr.cmpi 0 1).isConditionalJump = false ∧
      (Instr.lc 7 1).isConditionalJump = false := ⟨_, _, rfl, rfl, rfl, rfl, rfl⟩

/-- OutputTraceOnlyGrows: a run of one step that prints. -/
theorem test_witness_run : ∃ t, Reaches (start 100 0x01000066 [] []) t ∧ t.outTrace = [.int 0xA0000000] :=
  ⟨_, .more rfl (.here _), rfl⟩

/-- RunsEndInOneOfFourWays, PcAdvancesUnlessTransferOrStop: a command for each way a step can end. -/
theorem test_witness_ends :
    ([(.lc 7 1, .running), (.halt 0 0, .halted), (.syscall 0 0, .exited), (.divi 3 0, .error .divisionByZero)] :
      List (Instr × Status)).all (fun c =>
      match exec c.1 (start 100 0 [] []) with
      | .next t => t.status = c.2
      | .fault _ => false
      | .refused _ => false) = true := by decide

/-- RunsEndInOneOfFourWays: both reasons of a refusal, the state each leaves, and a machine that does not run. -/
theorem test_witness_refused_ends :
    exec (.lc 15 1) State.reset = refuse .reg15 ∧ exec (.syscall 3 100) State.reset = refuse .hostInput ∧
    (settle State.reset (exec (.lc 15 1) State.reset)).status = .refused .reg15 ∧
    (settle State.reset (exec (.syscall 3 100) State.reset)).status = .refused .hostInput ∧
    ¬(State.reset.setStatus .halted).Running := ⟨rfl, rfl, rfl, rfl, by decide⟩

/-- The refusals of register 15 (`RefusesRR` and its kin): the field values they speak of. -/
theorem test_witness_refused_fields :
    exec (.add 15 0 0) State.reset = refuse .reg15 ∧ exec (.add 0 15 0) State.reset = refuse .reg15 ∧
    exec (.mul 14 0 0) State.reset = refuse .reg15 ∧ exec (.addd 0 14 0) State.reset = refuse .reg15 ∧
    exec (.muli 15 0) State.reset = refuse .reg15 := ⟨rfl, rfl, rfl, rfl, rfl⟩

/-- DivAndDiviGiveQuotientAndRemainder: the largest high words below the divisors. -/
theorem test_witness_quotient_fits :
    U ((withRegs 5 0xFFFFFFFE 0xFFFFFFFF 0).reg (pairHi 3)) < U (modified (withRegs 5 0xFFFFFFFE 0xFFFFFFFF 0) 10 0) ∧
    U ((withRegs 5 0xFFFFE 0 0).reg (pairHi 3)) < ((0xFFFFF : Imm20).toNat : Int) := by decide

/-- DivisionErrors: divisor 0, by a register and by a sum that wraps; a high word equal to the divisor. -/
theorem test_witness_division_errors :
    U (modified (withRegs 5 0 0 0) 10 0) = 0 ∧ U (modified (withRegs 5 0 0xFFFFFFFF 0) 10 1) = 0 ∧
    (0 < U (modified (withRegs 0 16 16 0) 10 0) ∧
      U (modified (withRegs 0 16 16 0) 10 0) ≤ U ((withRegs 0 16 16 0).reg (pairHi 3))) ∧
    (0 < ((1 : Imm20).toNat : Int) ∧ ((1 : Imm20).toNat : Int) ≤ U ((withRegs 0 1 0 0).reg (pairHi 3))) := by decide

/-- SignedReadingsAgreeOnTheCautiousSubset: the largest operands, and the largest quotient. -/
theorem test_witness_cautious_subset :
    (0x7FFFFFFF : Word).msb = false ∧ (0x00000000FFFFFFFE : DWord).msb = false ∧ (2 : Word).msb = false ∧
    (0x00000000FFFFFFFE : DWord).toNat / (2 : Word).toNat < 2147483648 ∧
    (0x80000000 : Word).msb = (0xFFFFFFFF : Word).msb ∧
    (0 ≤ (0 : Int) ∧ (0 : Int) ≤ 2147483647) ∧ 0 ≤ (2147483647 : Int) ∧ (0x80000000 : Word).msb = true := by decide

/-- FloatingPointArithmetic: operands whose sum is a value, and operands whose sum is a NaN. -/
theorem test_witness_fp_results :
    fp.add 0x3FF8000000000000 0x4002000000000000 = .value 0x400E000000000000 ∧
    fp.add 0x7FF0000000000000 0xFFF0000000000000 = .nan := by decide +kernel

/-- FloatingPointSpecialValues, RepresentableValuesRoundToThemselves: a NaN, zeros, the largest subnormal, the smallest
and the largest normal number. -/
theorem test_witness_fp_values :
    Ieee.valueOf 0x7FF8000000000000 = .nan ∧ Ieee.valueOf 0x8000000000000000 = .finite true 0 (-1074) ∧
    Ieee.valueOf 0x000FFFFFFFFFFFFF = .finite false 4503599627370495 (-1074) ∧
    Ieee.valueOf 0x0010000000000000 = .finite false 4503599627370496 (-1074) ∧
    Ieee.valueOf 0x7FEFFFFFFFFFFFFF = .finite false 9007199254740991 971 := by decide +kernel

/-- FloatingPointSpecialValues, FloatingPointResultsAreCorrectlyRounded, CmpdResult: NaNs; finite patterns that are no
zero, from the least subnormal to the greatest number, and the two zeros. -/
theorem test_witness_fp_classes :
    Ieee.IsNaN 0x7FF8000000000000 ∧ Ieee.IsNaN 0xFFF0000000000001 ∧
    ([0x0000000000000001, 0x800FFFFFFFFFFFFF, 0x0010000000000000, 0xBFF0000000000000, 0x7FEFFFFFFFFFFFFF] :
      List DWord).all (fun d => decide (Ieee.IsFinite d ∧ d ≠ zeroBits false ∧ d ≠ zeroBits true)) = true ∧
    Ieee.IsFinite (zeroBits false) ∧ Ieee.IsFinite (zeroBits true) := by decide

/-- FloatingPointResultsAreCorrectlyRounded: a divisor that is not 0; 1.5, as R160 reads its pattern. -/
theorem test_witness_fp_number : Ieee.number 0x3FF8000000000000 = 3 / 2 := by
  have hs : Ieee.signField 0x3FF8000000000000 = false := by decide
  have he : Ieee.exponentField 0x3FF8000000000000 = 1023 := by decide
  have hf : Ieee.fractionField 0x3FF8000000000000 = 2251799813685248 := by decide
  norm_num [Ieee.number, hs, he, hf]

/-- DtoiResult: floors at the ends of the range, just outside it, and none. -/
theorem test_witness_floors :
    fp.floor (modifiedPair (withRegs 0xFFF00000 0x41EFFFFF 0 0) 3 0) = some 4294967295 ∧
    fp.floor (modifiedPair (withRegs 0 0x80000000 0 0) 3 0) = some 0 ∧
    fp.floor (modifiedPair (withRegs 0 0x41F00000 0 0) 3 0) = some 4294967296 ∧
    fp.floor (modifiedPair (withRegs 0 0xBFE00000 0 0) 3 0) = some (-1) ∧
    fp.floor (modifiedPair (withRegs 0 0x7FF00000 0 0) 3 0) = none := by decide +kernel

/-- PushResult, CallResult, CalliResult, PushThenPopCopiesAndRestores, CallThenRetZeroReturns: r14 at both ends of memory
and just outside it; receivers that are and are not r14. -/
theorem test_witness_push_address :
    ((withRegs 0 0 0 0x000FFFFF).reg sp).toNat < Config.memWords ∧ ((withRegs 0 0 0 0).reg sp).toNat < Config.memWords ∧
    Config.memWords ≤ ((withRegs 0 0 0 0x00100000).reg sp).toNat ∧ (3 : Reg) ≠ sp := by decide

/-- PopResult: the popped cell is the last one, the first one after a wrap, and just outside. -/
theorem test_witness_pop_address :
    (W (U ((withRegs 0 0 0 0x000FFFFE).reg sp) + 1)).toNat < Config.memWords ∧
    (W (U ((withRegs 0 0 0 0xFFFFFFFF).reg sp) + 1)).toNat < Config.memWords ∧
    Config.memWords ≤ (W (U ((withRegs 0 0 0 0x000FFFFF).reg sp) + 1)).toNat ∧ (3 : Reg) ≠ sp := by decide

/-- RetResult: the same with three words to eject. -/
theorem test_witness_ret_address :
    (W (U ((withRegs 0 0 0 0x000FFFFB).reg sp) + ((3 : Imm20).toNat : Int) + 1)).toNat < Config.memWords ∧
    (W (U ((withRegs 0 0 0 0xFFFFFFFC).reg sp) + ((3 : Imm20).toNat : Int) + 1)).toNat < Config.memWords ∧
    Config.memWords ≤ (W (U ((withRegs 0 0 0 0x000FFFFC).reg sp) + ((3 : Imm20).toNat : Int) + 1)).toNat := by decide

/-- CmpAndCmpi: equal, greater and less, by a register and by an immediate. -/
theorem test_witness_compared :
    U ((withRegs 7 0 5 0).reg 3) = U (modified (withRegs 7 0 5 0) 10 2) ∧
    U (modified (withRegs 0xFFFFFFFF 0 0xFFFFFFFF 0) 10 1) < U ((withRegs 0xFFFFFFFF 0 0xFFFFFFFF 0).reg 3) ∧
    U ((withRegs 7 0 7 0).reg 3) < U (modified (withRegs 7 0 7 0) 10 1) ∧
    U ((withRegs 7 0 0 0).reg 3) = ((7 : Imm20).toNat : Int) ∧ ((7 : Imm20).toNat : Int) < U ((withRegs 8 0 0 0).reg 3) ∧
    U ((withRegs 6 0 0 0).reg 3) < ((7 : Imm20).toNat : Int) := by decide

/-- AbsoluteLoads, AbsoluteStores: the last pair of cells, and one cell further. -/
theorem test_witness_absolute_address :
    (1048574 : Imm20).toNat + 1 < Config.memWords ∧ Config.memWords ≤ (1048575 : Imm20).toNat + 1 := by decide

/-- RegisterLoads, RegisterStores: the last cell, just outside, the last pair of cells, and one cell further. -/
theorem test_witness_register_address :
    (modified (withRegs 0 0 0x000FFFFF 0) 10 0).toNat < Config.memWords ∧
    Config.memWords ≤ (modified (withRegs 0 0 0x000FFFFF 0) 10 1).toNat ∧
    (modified (withRegs 0 0 0x000FFFFE 0) 10 0).toNat + 1 < Config.memWords ∧
    Config.memWords ≤ (modified (withRegs 0 0 0x000FFFFE 0) 10 1).toNat + 1 := by decide

/-- InputCallsTakeTheHostsAnswer: an answer of each kind. -/
theorem test_witness_host_answers :
    (State.reset.setHostIn [.int 7]).hostIn = .int 7 :: [] ∧
    (State.reset.setHostIn [.double 0x3FF8000000000000, .noValue]).hostIn = .double 0x3FF8000000000000 :: [.noValue] ∧
    (State.reset.setHostIn [.char 0x41]).hostIn = .char 0x41 :: [] := ⟨rfl, rfl, rfl⟩

/-- InputCallsTakeTheHostsAnswer: no answer, an answer "none", and an answer of another kind. -/
theorem test_witness_host_refusals :
    (∀ v rest, State.reset.hostIn ≠ .int v :: rest) ∧
    (∀ v rest, (State.reset.setHostIn [.noValue]).hostIn ≠ .double v :: rest) ∧
    (∀ c rest, (State.reset.setHostIn [.int 65]).hostIn ≠ .char c :: rest) := ⟨nofun, nofun, nofun⟩

/-- OutputCallsAppendOneEvent: the largest character, and the smallest word that is none. -/
theorem test_witness_characters :
    U ((withRegs 255 0 0 0).reg 3) ≤ 255 ∧ 255 < U ((withRegs 256 0 0 0).reg 3) := by decide

/-- UnknownCallCodesRaiseAnError: codes beside those of Table 3. -/
theorem test_witness_unknown_codes :
    ([1, 99, 106, 0xFFFFF] : List Imm20).all (fun c => c.toNat ≠ 0 && (c.toNat < 100 || 105 < c.toNat)) = true := by
  decide

/-- StoreIntoTheNextCellIsExecuted: at address 100, `store r0, 101` with the word of `lc r7, 123` in r0. -/
theorem test_witness_self_modification :
    let s := start 100 0x41000065 [(0, 0x0C70007B)] []
    s.Running ∧ s.pc.toNat + 1 < Config.memWords ∧ decode (s.cell s.pc.toNat) = .ok (.store (regNo 0) 101) ∧
      (101 : Imm20).toNat = s.pc.toNat + 1 ∧ decode (s.reg 0) = .ok (.lc 7 123) :=
  ⟨rfl, by decide, rfl, rfl, rfl⟩

/-! ### A program (30_encoding.md R81, 70_reset_and_hazards.md R273): P1, with its comments left out but one -/

/-- The text of P1, which ends with `end 0`. -/
def programP1 : Program where
  lines := [⟨none, some (.lc 0 0), some " sum"⟩, ⟨none, some (.lc 1 5), none⟩, ⟨some "loop", some (.add 0 1 0), none⟩,
    ⟨none, some (.subi 1 1), none⟩, ⟨none, some (.cmpi 1 0), none⟩, ⟨none, some (.jne 2), none⟩,
    ⟨none, some (.syscall 0 102), none⟩, ⟨none, some (.syscall 0 0), none⟩]
  entry := .address 0

/-- The image that the spec gives for P1. -/
theorem test_image_P1 : programP1.image =
    [(0, 0x0C000000), (1, 0x0C100005), (2, 0x02010000), (3, 0x05100001), (4, 0x2C100000), (5, 0x2F000002),
      (6, 0x01000066), (7, 0x01000000)] := by decide

/-- The label `loop` of P1 is 2, and a text may also place it alone on a line. -/
theorem test_labels :
    programP1.labelValue "loop" = some 2 ∧ programP1.labelValue "stop" = none ∧
    (Program.mk [⟨none, some (.lc 0 0), none⟩, ⟨none, none, none⟩, ⟨some "main", none, none⟩,
      ⟨none, some (.halt 1 0), none⟩] (.label "main")).entryWord = some 1 := by decide

/-- The model's choices about labels and the entry (log 27). -/
theorem test_label_choices :
    (Program.mk [⟨some "a", some (.lc 0 0), none⟩, ⟨some "A", none, none⟩] (.address 4294967298)).labelValue "A" = some 1 ∧
    (Program.mk [] (.address 4294967298)).entryWord = some 2 := by decide

/-- PUTCHAR of 0x80000041 under both readings (R108; log 28): the error of vector Y13, and the refusal. -/
theorem test_putChar_readings :
    charOfWord false 0x80000041 = .error (.inl .charOutOfRange) ∧
    charOfWord true 0x80000041 = .error (.inr .negativeChar) ∧ charOfWord true 255 = .ok 255 := by decide

/-- ProgramsArePlacedFromCellZero: P1 fits, is launched, and its first and last commands are where an entry can be. -/
theorem test_witness_program :
    programP1.fits ∧ (launch programP1.image 7).pc = 7 ∧ (launch programP1.image 7).cell 7 = 0x01000000 ∧
    programP1.commands[(0 : Word).toNat]? = some (.lc 0 0) ∧
    programP1.commands[(7 : Word).toNat]? = some (.syscall 0 0) ∧
    programP1.lines = programP1.lines.take 2 ++ ⟨some "loop", some (.add 0 1 0), none⟩ :: programP1.lines.drop 3 ∧
    programP1.commands.length ≤ 8 := by decide

/-- ProgramsArePlacedFromCellZero: a launch state of P1. -/
theorem test_witness_launch : Launch programP1.image 0 (launch programP1.image 0) := by
  refine ⟨by decide, fun a w h => ?_, rfl, rfl, rfl, rfl⟩
  simp only [launch, State.cell_setPc, State.cell_load, h, Option.getD_some]

end Sys2Proof.Tests
end

section
/-! PROOFS. What every command can answer, said once (10_state.md R23 to R33), and the statements about the whole state
that follow from it. -/

namespace Sys2Proof.Machine

/-! ### What a command can answer -/

/-- From `s` to `t` the command `i` has gone on: the run continues, and each field that only some commands write is as it
was after every other command (R25, R27, R31, R32, R44). Memory keeps its canonical form. -/
structure GoesOn (i : Instr) (s t : State) : Prop where
  status : t.status = s.status
  pc : i.isControlTransfer = false → t.pc = s.nextPc
  flags : i.isCompare = false → t.flags = s.flags
  mem : i.writesMemory = false → t.mem = s.mem
  wf : s.mem.wf → t.mem.wf
  hostIn : i.isInputCall = false → t.hostIn = s.hostIn
  outTrace : t.outTrace = s.outTrace ∨ i.isOutputCall = true ∧ ∃ e, t.outTrace = s.outTrace ++ [e]

/-- The statuses in which a command can stop the machine: by `halt`, by EXIT, or by an error it can raise (R240,
R279). -/
inductive Stops : Instr → Status → Prop where
  | halt (rd : RegNo) (imm : Imm20) : Stops (.halt rd imm) .halted
  | exit (rd : RegNo) : Stops (.syscall rd 0) .exited
  | error {i : Instr} {kind : ErrorKind} (h : kind.raisedBy i = true) : Stops i (.error kind)

/-- Everything a command can answer. The `Bool` says whether its fields pass the check of R23. -/
inductive Answers (i : Instr) (s : State) : Bool → Result → Prop where
  | goesOn {t : State} (h : GoesOn i s t) : Answers i s true (.next t)
  | stops {st : Status} (h : Stops i st) : Answers i s true (.next (s.setStatus st))
  | lacksInput (h : i.isInputCall = true) : Answers i s true (.refused (.refuse .hostInput))
  | usesReg15 : Answers i s false (.refused (.refuse .reg15))

theorem Stops.ne_running {i : Instr} {st : Status} (h : Stops i st) : st ≠ .running := by
  cases h <;> nofun

/-! ### Ways of going on -/

section
variable {i : Instr} {s : State}

theorem goesOn_writeRegs (v : Vector Word Config.nusable) (n : Nat) :
    GoesOn i s ((s.setRegs v).setNanDraws n).advance :=
  ⟨rfl, fun _ => rfl, fun _ => rfl, fun _ => rfl, id, fun _ => rfl, .inl rfl⟩

theorem goesOn_compare (h : i.isCompare = true) (f : BitVec 6) : GoesOn i s (s.setFlags f).advance :=
  ⟨rfl, fun _ => rfl, by simp [h], fun _ => rfl, id, fun _ => rfl, .inl rfl⟩

/-- A control transfer may write registers as well (R182, R184). -/
theorem goesOn_transfer (h : i.isControlTransfer = true) (v : Vector Word Config.nusable) (a : Word) :
    GoesOn i s ((s.setRegs v).setPc a) :=
  ⟨rfl, by simp [h], fun _ => rfl, fun _ => rfl, id, fun _ => rfl, .inl rfl⟩

/-- A store may write registers as well (R180). -/
theorem goesOn_store (h : i.writesMemory = true) {m : Memory} (hm : s.mem.wf → m.wf)
    (v : Vector Word Config.nusable) : GoesOn i s ((s.setMem m).setRegs v).advance :=
  ⟨rfl, fun _ => rfl, fun _ => rfl, by simp [h], hm, fun _ => rfl, .inl rfl⟩

theorem goesOn_call (hw : i.writesMemory = true) (ht : i.isControlTransfer = true) {m : Memory}
    (hm : s.mem.wf → m.wf) (v : Vector Word Config.nusable) (a : Word) :
    GoesOn i s (((s.setMem m).setRegs v).setPc a) :=
  ⟨rfl, by simp [ht], fun _ => rfl, by simp [hw], hm, fun _ => rfl, .inl rfl⟩

theorem goesOn_input (h : i.isInputCall = true) (rest : List HostAnswer) (v : Vector Word Config.nusable) :
    GoesOn i s ((s.setHostIn rest).setRegs v).advance :=
  ⟨rfl, fun _ => rfl, fun _ => rfl, fun _ => rfl, id, by simp [h], .inl rfl⟩

theorem goesOn_output (h : i.isOutputCall = true) (e : OutEvent) : GoesOn i s (s.emit e).advance :=
  ⟨rfl, fun _ => rfl, fun _ => rfl, fun _ => rfl, id, fun _ => rfl, .inr ⟨h, e, rfl⟩⟩

/-! ### The answers of the shared operations -/

theorem answers_withReg {ok : Bool} {rd : RegNo} {k : Reg → Result} (h : ∀ r, Answers i s ok (k r)) :
    Answers i s (rd.usable && ok) (withReg rd k) := by
  rcases withReg_eq rd k with ⟨rfl, e⟩ | ⟨r, rfl, e⟩
  · rw [e]; exact .usesReg15
  · simpa [e] using h r

theorem answers_withPair {ok : Bool} {rd : RegNo} {k : PairReg → Result} (h : ∀ p, Answers i s ok (k p)) :
    Answers i s (rd.pairUsable && ok) (withPair rd k) := by
  rcases withPair_eq rd k with ⟨rfl | rfl, e⟩ | ⟨p, rfl, e⟩
  · rw [e]; exact .usesReg15
  · rw [e]; exact .usesReg15
  · simpa [e] using h p

theorem answers_withLastReg {rd : RegNo} {k : Reg → Result} (h : ∀ r, Answers i s true (k r)) :
    Answers i s rd.usable (withReg rd k) := Bool.and_true rd.usable ▸ answers_withReg h

theorem answers_withLastPair {rd : RegNo} {k : PairReg → Result} (h : ∀ p, Answers i s true (k p)) :
    Answers i s rd.pairUsable (withPair rd k) := Bool.and_true rd.pairUsable ▸ answers_withPair h

theorem answers_raise {kind : ErrorKind} (h : kind.raisedBy i = true) : Answers i s true (s.raise kind) :=
  .stops (.error h)

theorem answers_finishReg (d : Reg) (v : Word) : Answers i s true (s.finishReg d v) := .goesOn (goesOn_writeRegs _ _)

theorem answers_finishPair (p : PairReg) (v : DWord) : Answers i s true (s.finishPair p v) :=
  .goesOn (goesOn_writeRegs _ _)

theorem answers_finishFp (p : PairReg) (r : FpResult) : Answers i s true (s.finishFp p r) := by
  cases r with
  | value d => exact answers_finishPair p d
  | nan => exact .goesOn (goesOn_writeRegs _ _)

theorem answers_finishDivide (hz : ErrorKind.divisionByZero.raisedBy i = true)
    (ho : ErrorKind.quotientOverflow.raisedBy i = true) (p : PairReg) (d : Word) :
    Answers i s true (s.finishDivide p d) := by
  rw [finishDivide_eq]
  split
  · exact answers_raise hz
  · split
    · exact .goesOn (goesOn_writeRegs _ _)
    · exact answers_raise ho

theorem answers_finishFloor (h : ErrorKind.conversionOverflow.raisedBy i = true) (d : Reg) (k : Option Int) :
    Answers i s true (s.finishFloor d k) := by
  cases k with
  | none => exact answers_raise h
  | some n =>
    rw [finishFloor_some]
    split
    · exact answers_finishReg d (W n)
    · exact answers_raise h

theorem answers_finishCompare (h : i.isCompare = true) (c : Cmp) : Answers i s true (s.finishCompare c) :=
  .goesOn (goesOn_compare h _)

theorem answers_setPc (h : i.isControlTransfer = true) (a : Word) : Answers i s true (.next (s.setPc a)) :=
  .goesOn (goesOn_transfer h s.regs a)

/-- A memory access goes on inside the address space, and raises its error outside (R55). -/
theorem answers_access {c : Prop} [Decidable c] {x : Result} (h : i.accessesMemory = true)
    (hx : c → Answers i s true x) : Answers i s true (if c then x else s.raise .addressOutOfRange) := by
  split
  · exact hx ‹_›
  · exact answers_raise h

theorem Memory.wf_insert_of_inRange {m : Memory} {a : Word} (h : inRange a 1) (v : Word) (hm : m.wf) :
    (m.insert a.toNat v).wf := Memory.wf_insert m _ v hm ((inRange_iff a 1).1 h)

theorem Memory.wf_insert_pair_of_inRange {m : Memory} {a : Word} (h : inRange a 2) (v w : Word) (hm : m.wf) :
    ((m.insert a.toNat v).insert (a.toNat + 1) w).wf := by
  have hr : a.toNat + 2 ≤ Config.memWords := (inRange_iff a 2).1 h
  exact Memory.wf_insert _ _ w (Memory.wf_insert m _ v hm (by omega)) (by omega)

theorem accessesMemory_of_writesMemory (h : i.writesMemory = true) : i.accessesMemory = true := by
  cases i with
  | load | load2 | loadr | loadr2 | pop | ret => rfl
  | _ => exact h

theorem answers_loadWord (h : i.accessesMemory = true) (d : Reg) (ea : Word) : Answers i s true (s.loadWord d ea) :=
  answers_access h fun _ => answers_finishReg d _

theorem answers_loadPair (h : i.accessesMemory = true) (p : PairReg) (ea : Word) :
    Answers i s true (s.loadPair p ea) := answers_access h fun _ => answers_finishPair p _

theorem answers_storeWord (h : i.writesMemory = true) (d : Reg) (ea : Word) : Answers i s true (s.storeWord d ea) :=
  answers_access (accessesMemory_of_writesMemory h) fun hr =>
    .goesOn (goesOn_store h (Memory.wf_insert_of_inRange hr _) s.regs)

theorem answers_storePair (h : i.writesMemory = true) (p : PairReg) (ea : Word) :
    Answers i s true (s.storePair p ea) :=
  answers_access (accessesMemory_of_writesMemory h) fun hr =>
    .goesOn (goesOn_store h (Memory.wf_insert_pair_of_inRange hr _ _) s.regs)

theorem answers_emit (h : i.isOutputCall = true) (e : OutEvent) : Answers i s true (.next (s.emit e).advance) :=
  .goesOn (goesOn_output h e)

theorem answers_putChar (h : i.isOutputCall = true) (he : ErrorKind.charOutOfRange.raisedBy i = true) (d : Reg) :
    Answers i s true (s.putChar d) := by
  rw [putChar_eq]
  split
  · exact answers_raise he
  · exact answers_emit h _

/-- An input call takes the host's answer, or is refused (R110). -/
theorem answers_withInput {α : Type} {pick : HostAnswer → Option α} {k : α → State → Result}
    (h : i.isInputCall = true) (hk : ∀ rest v, Answers i s true (k v (s.setHostIn rest))) :
    Answers i s true (s.withInput pick k) := by
  rcases withInput_eq s pick k with ⟨_, e⟩ | ⟨_, rest, v, _, _, e⟩
  · rw [e]; exact .lacksInput h
  · rw [e]; exact hk rest v

end

/-! ### The answers of every command -/

/-- For a code that selects no service the register field is checked (R109). -/
theorem syscallRegOk_of_unknown {imm : Imm20} (h : imm.toNat ∉ [0, 100, 101, 102, 103, 104, 105]) (rd : RegNo) :
    syscallRegOk rd imm = rd.usable := by
  unfold syscallRegOk
  split <;> simp_all

theorem raisedBy_unknownSyscall {imm : Imm20} (h : imm.toNat ∉ [0, 100, 101, 102, 103, 104, 105]) (rd : RegNo) :
    ErrorKind.unknownSyscall.raisedBy (.syscall rd imm) = true := by
  simp_all [ErrorKind.raisedBy, BitVec.toNat_eq]

theorem execSyscall_answers (rd : RegNo) (imm : Imm20) (s : State) :
    Answers (.syscall rd imm) s (syscallRegOk rd imm) (execSyscall rd imm s) := by
  rcases serviceOf_cases imm with
    ⟨rfl, _⟩ | ⟨rfl, _⟩ | ⟨rfl, _⟩ | ⟨rfl, _⟩ | ⟨rfl, _⟩ | ⟨rfl, _⟩ | ⟨rfl, _⟩ | ⟨h, e⟩
  · exact .stops (.exit rd)
  · exact answers_withLastReg fun d => answers_withInput rfl fun _ _ => .goesOn (goesOn_input rfl _ _)
  · exact answers_withLastPair fun p => answers_withInput rfl fun _ _ => .goesOn (goesOn_input rfl _ _)
  · exact answers_withLastReg fun d => answers_emit rfl _
  · exact answers_withLastPair fun p => answers_emit rfl _
  · exact answers_withLastReg fun d => answers_withInput rfl fun _ _ => .goesOn (goesOn_input rfl _ _)
  · exact answers_withLastReg fun d => answers_putChar rfl rfl d
  · rw [syscallRegOk_of_unknown h, execSyscall, e]
    exact answers_withLastReg fun d => answers_raise (raisedBy_unknownSyscall h rd)

theorem execPush_answers (rd : RegNo) (imm : Imm20) (s : State) :
    Answers (.push rd imm) s rd.usable (execPush rd imm s) :=
  answers_withLastReg fun _ => answers_access rfl fun hr =>
    .goesOn (goesOn_store rfl (Memory.wf_insert_of_inRange hr _) _)

theorem execPop_answers (rd : RegNo) (imm : Imm20) (s : State) :
    Answers (.pop rd imm) s rd.usable (execPop rd imm s) :=
  answers_withLastReg fun _ => answers_access rfl fun _ => .goesOn (goesOn_writeRegs _ _)

theorem execCall_answers (rd rs : RegNo) (imm : Imm16) (s : State) :
    Answers (.call rd rs imm) s (rd.usable && rs.usable) (execCall rd rs imm s) :=
  answers_withReg fun _ => answers_withLastReg fun _ => answers_access rfl fun hr =>
    .goesOn (goesOn_call rfl rfl (Memory.wf_insert_of_inRange hr _) _ _)

theorem execCalli_answers (addr : Addr) (s : State) : Answers (.calli addr) s true (execCalli addr s) :=
  answers_access rfl fun hr => .goesOn (goesOn_call rfl rfl (Memory.wf_insert_of_inRange hr _) _ _)

theorem execRet_answers (addr : Addr) (s : State) : Answers (.ret addr) s true (execRet addr s) :=
  answers_access rfl fun _ => .goesOn (goesOn_transfer rfl _ _)

/-- What `exec` can do, for every command: the one case split over the opcode table. -/
theorem exec_answers (i : Instr) (s : State) : Answers i s i.wellFormed (exec i s) := by
  cases i with
  | halt rd imm => exact .stops (.halt rd imm)
  | syscall rd imm => exact execSyscall_answers rd imm s
  | add | sub | shl | shr | and | or | xor | mov =>
    exact answers_withReg fun d => answers_withLastReg fun _ => answers_finishReg d _
  | addi | subi | lc | shli | shri | andi | ori | xori | not =>
    exact answers_withLastReg fun d => answers_finishReg d _
  | mul | itod => exact answers_withPair fun d => answers_withLastReg fun _ => answers_finishPair d _
  | muli => exact answers_withLastPair fun d => answers_finishPair d _
  | div => exact answers_withPair fun d => answers_withLastReg fun _ => answers_finishDivide rfl rfl d _
  | divi => exact answers_withLastPair fun d => answers_finishDivide rfl rfl d _
  | addd | subd | muld | divd => exact answers_withPair fun d => answers_withLastPair fun _ => answers_finishFp d _
  | dtoi => exact answers_withReg fun d => answers_withLastPair fun _ => answers_finishFloor rfl d _
  | push rd imm => exact execPush_answers rd imm s
  | pop rd imm => exact execPop_answers rd imm s
  | call rd rs imm => exact execCall_answers rd rs imm s
  | calli addr => exact execCalli_answers addr s
  | ret addr => exact execRet_answers addr s
  | cmp => exact answers_withReg fun _ => answers_withLastReg fun _ => answers_finishCompare rfl _
  | cmpi => exact answers_withLastReg fun _ => answers_finishCompare rfl _
  | cmpd => exact answers_withPair fun _ => answers_withLastPair fun _ => answers_finishCompare rfl _
  | jmp | jne | jeq | jle | jl | jge | jg => exact answers_setPc rfl _
  | load => exact answers_withLastReg fun d => answers_loadWord rfl d _
  | load2 => exact answers_withLastPair fun p => answers_loadPair rfl p _
  | loadr => exact answers_withReg fun d => answers_withLastReg fun _ => answers_loadWord rfl d _
  | loadr2 => exact answers_withPair fun p => answers_withLastReg fun _ => answers_loadPair rfl p _
  | store => exact answers_withLastReg fun d => answers_storeWord rfl d _
  | store2 => exact answers_withLastPair fun p => answers_storePair rfl p _
  | storer => exact answers_withReg fun d => answers_withLastReg fun _ => answers_storeWord rfl d _
  | storer2 => exact answers_withPair fun p => answers_withLastReg fun _ => answers_storePair rfl p _

/-! ### What the answers say of the outcome -/

section
variable {i : Instr} {s t : State}

/-- A next state is one where the command has gone on, or the old state but for a status that stops the machine. -/
theorem goesOn_or_stops (h : exec i s = .next t) : GoesOn i s t ∨ ∃ st, Stops i st ∧ t = s.setStatus st := by
  have a := exec_answers i s
  rw [h] at a
  generalize i.wellFormed = ok at a
  cases a with
  | goesOn hg => exact .inl hg
  | stops hs => exact .inr ⟨_, hs, rfl⟩

/-- Of the two refusals, only that of register 15 comes from a command that fails the check of R23. -/
theorem Answers.reg15_iff {ok : Bool} {r : Result} (a : Answers i s ok r) : r = refuse .reg15 ↔ ok = false := by
  cases a <;> simp [refuse]

theorem outTrace_prefix_of_exec (h : exec i s = .next t) : s.outTrace <+: t.outTrace := by
  rcases goesOn_or_stops h with hg | ⟨_, _, rfl⟩
  · rcases hg.outTrace with e | ⟨_, event, e⟩
    · rw [e]
    · rw [e]; exact List.prefix_append _ _
  · exact List.prefix_rfl

/-! ### One step (R33, R60) -/

/-- A next state of a step is that of the fetched command, or records the error of the fetch. -/
theorem step_eq_next (h : step s = .next t) :
    (∃ i, fetch s = .ok i ∧ exec i s = .next t) ∨ ∃ kind, fetch s = .error kind ∧ t = s.setStatus (.error kind) := by
  unfold step at h
  split at h
  · split at h
    · exact .inl ⟨_, ‹_›, h⟩
    · exact .inr ⟨_, ‹_›, (raise_eq_next ..).1 h⟩
  all_goals cases h

theorem step_of_not_running (h : ¬s.Running) : step s = .fault .notRunning := by
  unfold step
  split
  · exact absurd ‹_› h
  all_goals rfl

theorem outTrace_prefix_of_step (h : step s = .next t) : s.outTrace <+: t.outTrace := by
  rcases step_eq_next h with ⟨_, _, he⟩ | ⟨_, _, rfl⟩
  · exact outTrace_prefix_of_exec he
  · exact List.prefix_rfl

theorem Reaches.outTrace_prefix (h : Reaches s t) : s.outTrace <+: t.outTrace := by
  induction h with
  | here => exact List.prefix_rfl
  | more hstep _ ih => exact (outTrace_prefix_of_step hstep).trans ih

end

/-! ### Replacing `flags` (R27) -/

/-- The outcome with its next state changed by `g`, if it has one. -/
def mapNext (g : State → State) : Result → Result
  | .next t => .next (g t)
  | .fault r => .fault r
  | .refused r => .refused r

@[simp] theorem mapNext_next (g : State → State) (t : State) : mapNext g (.next t) = .next (g t) := rfl

@[simp] theorem mapNext_refuse (g : State → State) (reason : RefuseReason) :
    mapNext g (refuse reason) = refuse reason := rfl

section
variable {g : State → State}

theorem withReg_mapNext {i : RegNo} {k k' : Reg → Result} (h : ∀ r, k' r = mapNext g (k r)) :
    withReg i k' = mapNext g (withReg i k) := by
  rcases regNo_cases i with rfl | ⟨r, rfl⟩
  · rfl
  · simpa using h r

theorem withPair_mapNext {i : RegNo} {k k' : PairReg → Result} (h : ∀ p, k' p = mapNext g (k p)) :
    withPair i k' = mapNext g (withPair i k) := by
  rcases pairNo_cases i with (rfl | rfl) | ⟨p, rfl⟩
  · rfl
  · rfl
  · simpa using h p

theorem ite_mapNext {c : Prop} [Decidable c] {x x' y y' : Result} (hx : x' = mapNext g x) (hy : y' = mapNext g y) :
    (if c then x' else y') = mapNext g (if c then x else y) := by
  split
  · exact hx
  · exact hy

end

section
variable (s : State) (f : BitVec 6)

theorem withInput_setFlags {α : Type} {pick : HostAnswer → Option α} {k : α → State → Result}
    (h : ∀ v t, k v (t.setFlags f) = mapNext (·.setFlags f) (k v t)) :
    (s.setFlags f).withInput pick k = mapNext (·.setFlags f) (s.withInput pick k) := by
  simp only [State.withInput, State.hostIn_setFlags]
  split
  · rfl
  · split
    · exact h _ (s.setHostIn _)
    · rfl

theorem finishFp_setFlags (p : PairReg) (r : FpResult) :
    (s.setFlags f).finishFp p r = mapNext (·.setFlags f) (s.finishFp p r) := by
  cases r <;> rfl

theorem finishDivide_setFlags (p : PairReg) (d : Word) :
    (s.setFlags f).finishDivide p d = mapNext (·.setFlags f) (s.finishDivide p d) := by
  simp only [finishDivide_eq]
  exact ite_mapNext rfl (ite_mapNext rfl rfl)

theorem finishFloor_setFlags (d : Reg) (k : Option Int) :
    (s.setFlags f).finishFloor d k = mapNext (·.setFlags f) (s.finishFloor d k) := by
  cases k with
  | none => rfl
  | some n =>
    simp only [finishFloor_some]
    exact ite_mapNext rfl rfl

theorem putChar_setFlags (d : Reg) : (s.setFlags f).putChar d = mapNext (·.setFlags f) (s.putChar d) := by
  simp only [putChar_eq]
  exact ite_mapNext rfl rfl

theorem execSyscall_setFlags (rd : RegNo) (imm : Imm20) :
    execSyscall rd imm (s.setFlags f) = mapNext (·.setFlags f) (execSyscall rd imm s) := by
  unfold execSyscall
  cases serviceOf imm with
  | exit => rfl
  | scanInt | getChar => exact withReg_mapNext fun _ => withInput_setFlags s f fun _ _ => rfl
  | scanDouble => exact withPair_mapNext fun _ => withInput_setFlags s f fun _ _ => rfl
  | printInt | unknown => exact withReg_mapNext fun _ => rfl
  | printDouble => exact withPair_mapNext fun _ => rfl
  | putChar => exact withReg_mapNext fun d => putChar_setFlags s f d

variable {i : Instr}

/-- A comparison replaces all six bits, so the ones before it do not matter (R27). -/
theorem exec_setFlags_of_isCompare (h : i.isCompare = true) : exec i (s.setFlags f) = exec i s := by
  cases i with
  | cmp | cmpi | cmpd => rfl
  | _ => cases h

/-- A command that neither reads nor writes `flags` carries any other value of it along (R27). -/
theorem exec_setFlags (hc : i.isCompare = false) (hj : i.isConditionalJump = false) :
    exec i (s.setFlags f) = mapNext (·.setFlags f) (exec i s) := by
  cases i with
  | cmp | cmpi | cmpd => cases hc
  | jne | jeq | jle | jl | jge | jg => cases hj
  | halt | jmp => rfl
  | syscall rd imm => exact execSyscall_setFlags s f rd imm
  | add | sub | shl | shr | and | or | xor | mov => exact withReg_mapNext fun _ => withReg_mapNext fun _ => rfl
  | addi | subi | lc | shli | shri | andi | ori | xori | not => exact withReg_mapNext fun _ => rfl
  | mul | itod => exact withPair_mapNext fun _ => withReg_mapNext fun _ => rfl
  | muli => exact withPair_mapNext fun _ => rfl
  | div => exact withPair_mapNext fun d => withReg_mapNext fun _ => finishDivide_setFlags s f d _
  | divi => exact withPair_mapNext fun d => finishDivide_setFlags s f d _
  | addd | subd | muld | divd =>
    exact withPair_mapNext fun d => withPair_mapNext fun _ => finishFp_setFlags s f d _
  | dtoi => exact withReg_mapNext fun d => withPair_mapNext fun _ => finishFloor_setFlags s f d _
  | calli | ret => exact ite_mapNext rfl rfl
  | push | pop | load | store => exact withReg_mapNext fun _ => ite_mapNext rfl rfl
  | load2 | store2 => exact withPair_mapNext fun _ => ite_mapNext rfl rfl
  | call | loadr | storer => exact withReg_mapNext fun _ => withReg_mapNext fun _ => ite_mapNext rfl rfl
  | loadr2 | storer2 => exact withPair_mapNext fun _ => withReg_mapNext fun _ => ite_mapNext rfl rfl

end

/-! ### The outcome of an integer comparison (R200) -/

theorem compareInt_self (a : Int) : compareInt a a = .equal := if_pos rfl

theorem compareInt_of_gt {a b : Int} (h : b < a) : compareInt a b = .greater := by
  rw [compareInt, if_neg h.ne', if_pos h]

theorem compareInt_of_lt {a b : Int} (h : a < b) : compareInt a b = .less := by
  rw [compareInt, if_neg h.ne, if_neg h.not_gt]

/-! ### The statements -/

/-- Settles O17, by induction on the run; a step either is an error of the fetch or executes a command. -/
theorem outputTraceOnlyGrows : Obligations.OutputTraceOnlyGrows := by
  refine ⟨fun _ _ => Reaches.outTrace_prefix, fun i s t h ho => ?_⟩
  rcases goesOn_or_stops h with hg | ⟨_, _, rfl⟩
  · rcases hg.outTrace with e | ⟨ho', _⟩
    · exact e
    · simp [ho] at ho'
  · rfl

/-- Settles O8: of the answers of a command, the refusal of register 15 goes with the check of R23. -/
theorem reg15RefusedExactlyWhenIllFormed : Obligations.Reg15RefusedExactlyWhenIllFormed :=
  fun i s => (exec_answers i s).reg15_iff

/-- Settles O14. -/
theorem flagsAreWrittenOnlyByComparisons : Obligations.FlagsAreWrittenOnlyByComparisons := by
  intro i s t h hc
  rcases goesOn_or_stops h with hg | ⟨_, _, rfl⟩
  · exact hg.flags hc
  · rfl

/-- Settles O15: a comparison answers the same, and every other command carries the new value along. -/
theorem flagsAreReadOnlyByConditionalJumps : Obligations.FlagsAreReadOnlyByConditionalJumps := by
  intro i s f hj
  cases hc : i.isCompare with
  | true =>
    rw [exec_setFlags_of_isCompare s f hc]
    exact ⟨fun _ h => h, fun _ h => h⟩
  | false =>
    rw [exec_setFlags s f hc hj]
    exact ⟨fun _ h => congrArg (mapNext (·.setFlags f)) h, fun _ h => congrArg (mapNext (·.setFlags f)) h⟩

/-- Settles O19, by what the command can answer and, if it stops the machine, by the status it stops in. -/
theorem runsEndInOneOfFourWays : Obligations.RunsEndInOneOfFourWays := by
  refine ⟨fun i s hs => ?_, fun i s reason h => ?_, fun s hs => ?_⟩
  · have a := exec_answers i s
    generalize exec i s = r at a ⊢
    generalize i.wellFormed = ok at a
    cases a with
    | goesOn hg => exact .inl ⟨rfl, .inl (hg.status.trans hs)⟩
    | stops hst =>
      refine .inl ⟨rfl, .inr ?_⟩
      cases hst with
      | halt rd imm => exact .inl ⟨rfl, rd, imm, rfl⟩
      | exit rd => exact .inr (.inl ⟨rfl, rd, rfl⟩)
      | error => exact .inr (.inr ⟨_, rfl⟩)
    | lacksInput | usesReg15 => exact .inr ⟨_, rfl, rfl⟩
  · rw [h, settle_refuse]
  · rw [step_of_not_running hs]
    rfl

/-- Settles O20. -/
theorem pcAdvancesUnlessTransferOrStop : Obligations.PcAdvancesUnlessTransferOrStop := by
  intro i s t hs h
  rcases goesOn_or_stops h with hg | ⟨st, hst, rfl⟩
  · exact ⟨fun _ hi => (hg.pc hi).trans s.nextPc_eq, fun ht => absurd (hg.status.trans hs) ht⟩
  · exact ⟨fun ht => absurd ht hst.ne_running, fun _ => rfl⟩

/-- Settles O7. -/
theorem stoppedMachineTakesNoStep : Obligations.StoppedMachineTakesNoStep := fun _ => step_of_not_running

/-- Settles O10. -/
theorem resetSatisfiesTheInvariant : Obligations.ResetSatisfiesTheInvariant := ⟨Memory.wf_reset, nofun⟩

/-- Settles O48, in each of the three outcomes a comparison of integers can have. -/
theorem flagBitsAreTheConditions : Obligations.FlagBitsAreTheConditions := by
  intro a b
  rcases lt_trichotomy a b with h | rfl | h
  · rw [compareInt_of_lt h]
    simp [flagsOf, h, h.ne, h.not_gt, h.le, h.not_ge]
  · rw [compareInt_self]
    simp [flagsOf]
  · rw [compareInt_of_gt h]
    simp [flagsOf, h, h.ne', h.not_gt, h.le, h.not_ge]

end Sys2Proof.Machine
end

section
/-! PROOFS. The statements about memory (20_memory.md R44, R45, R55): its canonical form is kept by every step, and only
the commands of the access table touch it. -/

namespace Sys2Proof.Machine

/-! ### The invariant -/

section
variable {i : Instr} {s t : State}

theorem Stops.ne_refused {st : Status} (h : Stops i st) (reason : RefuseReason) : st ≠ .refused reason := by
  cases h <;> nofun

/-- A stop changes the status alone, so only the new status is in question. -/
theorem State.Inv.setStatus (hs : s.Inv) {st : Status} (h : ∀ reason, st ≠ .refused reason) : (s.setStatus st).Inv :=
  ⟨hs.1, h⟩

theorem GoesOn.inv (h : GoesOn i s t) (hs : s.Inv) : t.Inv := by
  obtain ⟨hwf, hstatus⟩ := hs
  refine ⟨h.wf hwf, fun reason => ?_⟩
  rw [h.status]
  exact hstatus reason

theorem State.Inv.exec (hs : s.Inv) (h : exec i s = .next t) : t.Inv := by
  rcases goesOn_or_stops h with hg | ⟨_, hst, rfl⟩
  · exact hg.inv hs
  · exact hs.setStatus hst.ne_refused

theorem State.Inv.step (hs : s.Inv) (h : step s = .next t) : t.Inv := by
  rcases step_eq_next h with ⟨_, _, he⟩ | ⟨_, _, rfl⟩
  · exact hs.exec he
  · exact hs.setStatus nofun

end

/-! ### Replacing memory (R44) -/

/-- The state with its memory and the host's input changed: the two fields that only the commands of R44 and of R110
touch, so that the operations over registers carry any change of them along. -/
def State.mapOutside (fm : Memory → Memory) (fi : List HostAnswer → List HostAnswer) (s : State) : State :=
  (s.setMem (fm s.mem)).setHostIn (fi s.hostIn)

theorem State.setMem_eq_mapOutside (s : State) (m : Memory) : s.setMem m = s.mapOutside (fun _ => m) id := rfl

section
variable (fm : Memory → Memory) (fi : List HostAnswer → List HostAnswer) (s : State)

@[simp] theorem State.hostIn_mapOutside : (s.mapOutside fm fi).hostIn = fi s.hostIn := rfl

theorem finishFp_mapOutside (p : PairReg) (r : FpResult) :
    (s.mapOutside fm fi).finishFp p r = mapNext (·.mapOutside fm fi) (s.finishFp p r) := by
  cases r with
  | value | nan => rfl

theorem finishDivide_mapOutside (p : PairReg) (d : Word) :
    (s.mapOutside fm fi).finishDivide p d = mapNext (·.mapOutside fm fi) (s.finishDivide p d) := by
  simp only [finishDivide_eq]
  exact ite_mapNext rfl (ite_mapNext rfl rfl)

theorem finishFloor_mapOutside (d : Reg) (k : Option Int) :
    (s.mapOutside fm fi).finishFloor d k = mapNext (·.mapOutside fm fi) (s.finishFloor d k) := by
  cases k with
  | none => rfl
  | some n =>
    simp only [finishFloor_some]
    exact ite_mapNext rfl rfl

theorem putChar_mapOutside (d : Reg) :
    (s.mapOutside fm fi).putChar d = mapNext (·.mapOutside fm fi) (s.putChar d) := by
  simp only [putChar_eq]
  exact ite_mapNext rfl rfl

/-- An input call reads the host's input, so here only memory is changed. -/
theorem withInput_mapOutside {α : Type} {pick : HostAnswer → Option α} {k : α → State → Result}
    (h : ∀ v t, k v (t.mapOutside fm id) = mapNext (·.mapOutside fm id) (k v t)) :
    (s.mapOutside fm id).withInput pick k = mapNext (·.mapOutside fm id) (s.withInput pick k) := by
  simp only [State.withInput, State.hostIn_mapOutside, id]
  split
  · rfl
  · next _ rest _ =>
    split
    · exact h _ (s.setHostIn rest)
    · rfl

theorem execSyscall_mapOutside (rd : RegNo) (imm : Imm20) :
    execSyscall rd imm (s.mapOutside fm id) = mapNext (·.mapOutside fm id) (execSyscall rd imm s) := by
  unfold execSyscall
  cases serviceOf imm with
  | exit => rfl
  | scanInt | getChar => exact withReg_mapNext fun _ => withInput_mapOutside fm s fun _ _ => rfl
  | scanDouble => exact withPair_mapNext fun _ => withInput_mapOutside fm s fun _ _ => rfl
  | printInt | unknown => exact withReg_mapNext fun _ => rfl
  | printDouble => exact withPair_mapNext fun _ => rfl
  | putChar => exact withReg_mapNext fun d => putChar_mapOutside fm id s d

end

/-- A command outside the access table carries any other memory along (R44). -/
theorem exec_setMem (s : State) (m : Memory) {i : Instr} (h : i.accessesMemory = false) :
    exec i (s.setMem m) = mapNext (·.setMem m) (exec i s) := by
  simp only [State.setMem_eq_mapOutside]
  cases i with
  | load | load2 | loadr | loadr2 | store | store2 | storer | storer2 | push | pop | call | calli | ret => cases h
  | halt | jmp | jne | jeq | jle | jl | jge | jg => rfl
  | syscall rd imm => exact execSyscall_mapOutside _ s rd imm
  | add | sub | shl | shr | and | or | xor | mov | cmp => exact withReg_mapNext fun _ => withReg_mapNext fun _ => rfl
  | addi | subi | lc | shli | shri | andi | ori | xori | not | cmpi => exact withReg_mapNext fun _ => rfl
  | mul | itod => exact withPair_mapNext fun _ => withReg_mapNext fun _ => rfl
  | muli => exact withPair_mapNext fun _ => rfl
  | cmpd => exact withPair_mapNext fun _ => withPair_mapNext fun _ => rfl
  | div => exact withPair_mapNext fun d => withReg_mapNext fun _ => finishDivide_mapOutside _ id s d _
  | divi => exact withPair_mapNext fun d => finishDivide_mapOutside _ id s d _
  | addd | subd | muld | divd =>
    exact withPair_mapNext fun d => withPair_mapNext fun _ => finishFp_mapOutside _ id s d _
  | dtoi => exact withReg_mapNext fun d => withPair_mapNext fun _ => finishFloor_mapOutside _ id s d _

/-! ### The statements -/

/-- Settles O11: an error of the fetch changes the status alone, and a command goes on or stops the machine. -/
theorem everyStepKeepsTheInvariant : Obligations.EveryStepKeepsTheInvariant := fun _ _ => State.Inv.step

/-- Settles O16: memory is a field that the answers of a command name, and one it carries along unless it accesses it. -/
theorem memoryIsTouchedOnlyByItsCommands : Obligations.MemoryIsTouchedOnlyByItsCommands := by
  refine fun i s t h => ⟨fun hw => ?_, fun ha m => ?_⟩
  · rcases goesOn_or_stops h with hg | ⟨_, _, rfl⟩
    · exact hg.mem hw
    · rfl
  · rw [exec_setMem s m ha, h, mapNext_next]

end Sys2Proof.Machine
end

section
/-! PROOFS. The encoding of the commands (30_encoding.md R60 to R83): decoding undoes encoding, the fields that are
ignored, what the step does with the word it fetches, and where the commands of a program are placed. -/

namespace Sys2Proof.Machine

/-! ### The formats (R62 to R65, R68) -/

/-- The codes of format J (R65, R68). -/
def jCodes : List Nat := [41, 42, 46, 47, 48, 49, 50, 51, 52]

/-- A command's constructor `mk` takes the operands of one of the four formats, and its commands are the words of that
format with one code `c`. -/
inductive HasFormat : Instr → Prop where
  | rr {mk : RegNo → RegNo → Imm16 → Instr} {c : BitVec 8} (h : EncodedRR mk c) (hc : c.toNat ∉ jCodes)
      (rd rs : RegNo) (imm : Imm16) : HasFormat (mk rd rs imm)
  | ri {mk : RegNo → Imm20 → Instr} {c : BitVec 8} (h : EncodedRI mk c) (hc : c.toNat ∉ jCodes)
      (rd : RegNo) (imm : Imm20) : HasFormat (mk rd imm)
  | rm {mk : RegNo → Addr → Instr} {c : BitVec 8} (h : EncodedRM mk c) (hc : c.toNat ∉ jCodes)
      (rd : RegNo) (addr : Addr) : HasFormat (mk rd addr)
  | j {mk : Addr → Instr} {c : BitVec 8} (h : EncodedJ mk c) (hc : c.toNat ∈ jCodes) (addr : Addr) :
      HasFormat (mk addr)

/-- Every command has its format: the one case split over the opcode table, in which the decoder is evaluated at the
command's code. -/
theorem hasFormat (i : Instr) : HasFormat i := by
  cases i with
  | add | sub | mul | div | shl | shr | and | or | xor | mov | addd | subd | muld | divd | itod | dtoi | call | cmp
  | cmpd | loadr | storer | loadr2 | storer2 =>
    exact .rr (encodedRR_of (fun _ _ _ => rfl) fun _ h => by unfold decode; rw [h]; rfl) (by decide) _ _ _
  | halt | syscall | addi | subi | muli | divi | lc | shli | shri | andi | ori | xori | not | push | pop | cmpi =>
    exact .ri (encodedRI_of (fun _ _ => rfl) fun _ h => by unfold decode; rw [h]; rfl) (by decide) _ _
  | load | store | load2 | store2 =>
    exact .rm (encodedRM_of (fun _ _ => rfl) fun _ h => by unfold decode; rw [h]; rfl) (by decide) _ _
  | calli | ret | jmp | jne | jeq | jle | jl | jge | jg =>
    exact .j (encodedJ_of (fun _ => rfl) fun _ h => by unfold decode; rw [h]; rfl) (by decide) _

@[simp] theorem decode_encode (i : Instr) : decode (encode i) = .ok i := by
  cases hasFormat i with
  | rr h _ rd rs imm =>
    obtain ⟨he, hd⟩ := h rd rs imm
    rw [he, hd]
  | ri h _ rd imm =>
    obtain ⟨he, hd⟩ := h rd imm
    rw [he, hd]
  | rm h _ rd addr =>
    obtain ⟨he, hd⟩ := h rd addr
    rw [he, hd]
  | j h _ addr =>
    obtain ⟨he, hd⟩ := h addr 0#4
    rw [he, hd]

/-! ### The word of a decoded command (R65, R70) -/

theorem codeField_of_decode {w : Word} {i : Instr} (h : decode w = .ok i) : codeField w = codeField (encode i) := by
  unfold decode at h
  split at h
  all_goals cases h
  all_goals simp only [encode, codeField_encodeRR, codeField_encodeRI, codeField_encodeRM, codeField_encodeJ]
  all_goals exact BitVec.eq_of_toNat_eq ‹_›

/-- The word of format J with a word's code and address has 0 in bits 23:20, which the mask names (R65, R70). -/
theorem encodeJ_fields (w : Word) : encodeJ (codeField w) (addrField w) = w &&& 0xFF0FFFFF#32 := by
  have mask : (0xFF0FFFFF#32 : Word) = BitVec.allOnes 8 ++ 0#4 ++ BitVec.allOnes 20 := rfl
  have h : (codeField w ++ rdField w ++ addrField w : Word) &&& 0xFF0FFFFF#32 = codeField w ++ 0#4 ++ addrField w := by
    rw [mask, BitVec.and_append, BitVec.and_append, BitVec.and_allOnes, BitVec.and_zero, BitVec.and_allOnes]
  rw [eq_of_fields_rm] at h
  exact h.symm

/-- A word with the code of a command decodes, to a command whose word is its own but for the ignored bits. -/
theorem decode_of_codeField {w : Word} {i : Instr} (hw : codeField w = codeField (encode i)) :
    ∃ j, decode w = .ok j ∧ encode j = if (codeField w).toNat ∈ jCodes then w &&& 0xFF0FFFFF#32 else w := by
  cases hasFormat i with
  | rr h hc rd rs imm =>
    rw [(h rd rs imm).1, codeField_rr] at hw
    subst hw
    obtain ⟨he, hd⟩ := h (rdField w) (rsField w) (imm16Field w)
    rw [eq_of_fields_rr] at he hd
    exact ⟨_, hd, he.trans (if_neg hc).symm⟩
  | ri h hc rd imm =>
    rw [(h rd imm).1, codeField_ri] at hw
    subst hw
    obtain ⟨he, hd⟩ := h (rdField w) (imm20Field w)
    rw [eq_of_fields_ri] at he hd
    exact ⟨_, hd, he.trans (if_neg hc).symm⟩
  | rm h hc rd addr =>
    rw [(h rd addr).1, codeField_ri] at hw
    subst hw
    obtain ⟨he, hd⟩ := h (rdField w) (addrField w)
    rw [eq_of_fields_rm] at he hd
    exact ⟨_, hd, he.trans (if_neg hc).symm⟩
  | j h hc addr =>
    rw [(h addr 0).1, codeField_ri] at hw
    subst hw
    obtain ⟨he, hd⟩ := h (addrField w) (rdField w)
    rw [eq_of_fields_rm] at hd
    exact ⟨_, hd, (he.trans (encodeJ_fields w)).trans (if_pos hc).symm⟩

/-- A word of format J is the same command whatever bits 23:20 hold (R70). -/
theorem decode_ignoredBits {i : Instr} (hi : (codeField (encode i)).toNat ∈ jCodes) (ignored : BitVec 4) :
    decode (codeField (encode i) ++ ignored ++ addrField (encode i)) = .ok i := by
  cases hasFormat i with
  | rr h hc rd rs imm =>
    rw [(h rd rs imm).1, codeField_rr] at hi
    exact absurd hi hc
  | ri h hc rd imm =>
    rw [(h rd imm).1, codeField_ri] at hi
    exact absurd hi hc
  | rm h hc rd addr =>
    rw [(h rd addr).1, codeField_ri] at hi
    exact absurd hi hc
  | j h hc addr =>
    obtain ⟨he, hd⟩ := h addr ignored
    rw [he, codeField_ri, addrField_rm]
    exact hd

theorem encodedRI_of_encode {mk : RegNo → Imm20 → Instr} {c : BitVec 8}
    (he : ∀ rd imm, encode (mk rd imm) = c ++ rd ++ imm) : EncodedRI mk c :=
  fun rd imm => ⟨he rd imm, he rd imm ▸ decode_encode _⟩

theorem encodedJ_of_encode {mk : Addr → Instr} {c : BitVec 8} (hc : c.toNat ∈ jCodes)
    (he : ∀ addr, encode (mk addr) = encodeJ c addr) : EncodedJ mk c := by
  intro addr ignored
  have hd := decode_ignoredBits (i := mk addr) (by rwa [he, codeField_encodeJ]) ignored
  rw [he, codeField_encodeJ, addrField_encodeJ] at hd
  exact ⟨he addr, hd⟩

/-! ### One step of a running machine (R60) -/

section
variable {s : State}

theorem fetch_outside (h : Config.memWords ≤ s.pc.toNat) : fetch s = .error .addressOutOfRange :=
  if_neg (by rw [inRange_iff]; omega)

theorem fetch_inside (h : s.pc.toNat < Config.memWords) :
    fetch s = (decode (s.cell s.pc.toNat)).mapError fun _ => .illegalInstruction := by
  rw [fetch, if_pos ((inRange_iff ..).2 h)]
  cases decode (s.cell s.pc.toNat) with
  | ok => rfl
  | error => rfl

theorem step_of_fetch_ok (hs : s.Running) {i : Instr} (h : fetch s = .ok i) : step s = exec i s := by
  unfold step
  rw [hs, h]

theorem step_of_fetch_error (hs : s.Running) {kind : ErrorKind} (h : fetch s = .error kind) :
    step s = .next (s.setStatus (.error kind)) := by
  unfold step
  rw [hs, h]
  rfl

theorem step_of_decode (hs : s.Running) (hpc : s.pc.toNat < Config.memWords) {i : Instr}
    (h : decode (s.cell s.pc.toNat) = .ok i) : step s = exec i s :=
  step_of_fetch_ok hs (by rw [fetch_inside hpc, h]; rfl)

end

/-! ### The image of a program (R77 to R83, R273) -/

/-- The `k`-th cell from the first is listed with the word of the `k`-th command. -/
theorem lookup_imageFrom (is : List Instr) (a k : Nat) : (imageFrom a is).lookup (a + k) = is[k]?.map encode := by
  induction is generalizing a k with
  | nil => rfl
  | cons i is ih =>
    cases k with
    | zero => simp [imageFrom, Memory.lookup]
    | succ k =>
      have hne : a + (k + 1) ≠ a := by omega
      have hk : a + (k + 1) = a + 1 + k := by omega
      rw [imageFrom, Memory.lookup, if_neg hne, hk]
      exact ih (a + 1) k

theorem Program.lookup_image (p : Program) (k : Nat) : p.image.lookup k = p.commands[k]?.map encode := by
  rw [← lookup_imageFrom p.commands 0 k, Nat.zero_add]
  rfl

theorem sorted_imageFrom (is : List Instr) (a : Nat) : (imageFrom a is).Pairwise (fun c d => c.1 < d.1) := by
  induction is generalizing a with
  | nil => exact .nil
  | cons i is ih =>
    refine .cons (fun c hc => ?_) (ih _)
    obtain ⟨k, j, -, rfl⟩ := (mem_imageFrom ..).1 hc
    simp only [ilen_eq]
    omega

theorem Program.wf_image {p : Program} (h : p.fits) : p.image.wf := by
  refine ⟨sorted_imageFrom _ _, fun c hc => ?_⟩
  obtain ⟨k, i, hk, rfl⟩ := (mem_imageFrom ..).1 hc
  have hlt : k < p.commands.length := (List.getElem?_eq_some_iff.1 hk).1
  simp only [Program.fits, ilen_eq] at h ⊢
  omega

/-- A label stands for the cell after the commands of the lines before its first definition (R77, R81). -/
theorem labelValueFrom_append {name : String} {before : List Line} (h : ∀ l ∈ before, l.label ≠ some name)
    {l : Line} (hl : l.label = some name) (after : List Line) (a : Nat) :
    labelValueFrom name a (before ++ l :: after) =
      some (a + (before.filter fun l' => l'.command.isSome).length) := by
  induction before generalizing a with
  | nil => simp [labelValueFrom, hl]
  | cons b before ih =>
    obtain ⟨hb, hbefore⟩ := List.forall_mem_cons.1 h
    rw [List.cons_append, labelValueFrom, if_neg hb, ih hbefore]
    cases hc : b.command.isSome with
    | false => simp [Line.next, hc]
    | true => simp [Line.next, hc, Nat.add_comm, Nat.add_assoc]

/-! ### Launch (R272) -/

/-- The state that loads an image is a launch state of it. -/
theorem launch_of_wf {image : Memory} (h : image.wf) (entry : Word) : Launch image entry (launch image entry) := by
  refine ⟨h.2, fun a w hw => ?_, rfl, ?_, ?_, ?_⟩
  · simp [launch, State.cell_load, hw]
  · rw [launch, State.reg_setPc, State.reg_load]
    rfl
  · exact State.status_load ..
  · exact State.outTrace_load ..

theorem wf_launch {image : Memory} (h : image.wf) (entry : Word) : (launch image entry).mem.wf :=
  Memory.wf_load _ _ Memory.wf_reset h.2

/-- In a launch state whose entry address is that of a command, the first step executes the command. -/
theorem step_of_launch {p : Program} {entry : Word} {s : State} {i : Instr} (h : Launch p.image entry s)
    (hi : p.commands[entry.toNat]? = some i) : step s = exec i s := by
  obtain ⟨hrange, hcells, rfl, -, hs, -⟩ := h
  have hmem : (s.pc.toNat, encode i) ∈ p.image := (mem_imageFrom ..).2 ⟨s.pc.toNat, i, hi, by simp⟩
  have hcell : s.cell s.pc.toNat = encode i := hcells _ _ (by rw [p.lookup_image, hi]; rfl)
  exact step_of_decode hs (hrange _ hmem) (by rw [hcell, decode_encode])

/-! ### The statements -/

/-- Settles O1, by the format of the command. -/
theorem decodeOfEncodeIsIdentity : Obligations.DecodeOfEncodeIsIdentity := decode_encode

/-- Settles O2: the word has the code of the command it decodes to, and so its format. -/
theorem encodeOfDecodeClearsOnlyIgnoredBits : Obligations.EncodeOfDecodeClearsOnlyIgnoredBits := by
  intro w i hw
  obtain ⟨j, hd, he⟩ := decode_of_codeField (codeField_of_decode hw)
  cases hw.symm.trans hd
  exact he

/-- Settles O5: the meanings of `halt`, EXIT and `not` do not look at the fields they ignore. -/
theorem ignoredFieldsHaveNoEffect : Obligations.IgnoredFieldsHaveNoEffect := by
  refine ⟨fun _ _ _ _ _ => rfl, fun _ _ _ => rfl, fun _ _ _ _ => rfl, ⟨?_, ?_, ?_⟩, ?_, ?_, ?_, ?_, ?_, ?_, ?_, ?_, ?_⟩
  · exact encodedRI_of_encode fun _ _ => rfl
  · exact encodedRI_of_encode fun _ _ => rfl
  · exact encodedRI_of_encode fun _ _ => rfl
  all_goals exact encodedJ_of_encode (by decide) fun _ => rfl

/-- Settles O59, from what the image lists for a cell and what a label stands for. -/
theorem programsArePlacedFromCellZero : Obligations.ProgramsArePlacedFromCellZero := by
  intro p
  refine ⟨fun k i hk => ?_, fun a ha => ?_, fun before l after name hp hl hb => ?_, fun hf => ?_,
    fun _ _ _ => step_of_launch⟩
  · rw [p.lookup_image, hk]
    rfl
  · rw [p.lookup_image, List.getElem?_eq_none ha]
    rfl
  · rw [Program.labelValue, hp, labelValueFrom_append hb hl, Nat.zero_add]
  · exact ⟨p.wf_image hf, fun entry => ⟨launch_of_wf (p.wf_image hf) entry, wf_launch (p.wf_image hf) entry⟩⟩

/-- Settles O4: the decoder is evaluated on each word. -/
theorem writtenWordsDecode : Obligations.WrittenWordsDecode := ⟨rfl, rfl, rfl, rfl, rfl, rfl, rfl, rfl⟩

/-- Settles O6: the fetch answers the decoded command or an error; the refusal of register 15 is the command's. -/
theorem stepRunsTheDecodedCommand : Obligations.StepRunsTheDecodedCommand := by
  refine fun s hs => ⟨fun hpc => step_of_fetch_error hs (fetch_outside hpc), fun hpc => ⟨fun e he => ?_, fun i hi => ?_⟩⟩
  · exact step_of_fetch_error hs (by rw [fetch_inside hpc, he]; rfl)
  · have hstep : step s = exec i s := step_of_decode hs hpc hi
    exact ⟨hstep, fun hwf => hstep.trans ((exec_answers i s).reg15_iff.2 hwf)⟩

end Sys2Proof.Machine
end

section
/-! PROOFS. The system commands and the host (40_system.md R100 to R110): how the machine stops, what each system call
does, and that only the input calls use the host's input. -/

namespace Sys2Proof.Machine

/-! ### Replacing the host's input (R110) -/

theorem State.setHostIn_eq_mapOutside (s : State) (l : List HostAnswer) :
    s.setHostIn l = s.mapOutside id (fun _ => l) := rfl

/-- A system call that is no input call carries any other host input along. -/
theorem execSyscall_setHostIn (s : State) (l : List HostAnswer) {rd : RegNo} {imm : Imm20}
    (h : (Instr.syscall rd imm).isInputCall = false) :
    execSyscall rd imm (s.setHostIn l) = mapNext (·.setHostIn l) (execSyscall rd imm s) := by
  simp only [State.setHostIn_eq_mapOutside]
  rcases serviceOf_cases imm with
    ⟨rfl, _⟩ | ⟨rfl, _⟩ | ⟨rfl, _⟩ | ⟨rfl, _⟩ | ⟨rfl, _⟩ | ⟨rfl, _⟩ | ⟨rfl, _⟩ | ⟨_, e⟩
  · rfl
  · cases h
  · cases h
  · exact withReg_mapNext fun _ => rfl
  · exact withPair_mapNext fun _ => rfl
  · cases h
  · exact withReg_mapNext fun d => putChar_mapOutside id _ s d
  · simp only [execSyscall, e]
    exact withReg_mapNext fun _ => rfl

/-- A command that is no input call carries any other host input along (R110). -/
theorem exec_setHostIn (s : State) (l : List HostAnswer) {i : Instr} (h : i.isInputCall = false) :
    exec i (s.setHostIn l) = mapNext (·.setHostIn l) (exec i s) := by
  simp only [State.setHostIn_eq_mapOutside]
  cases i with
  | syscall rd imm => exact execSyscall_setHostIn s l h
  | halt | jmp | jne | jeq | jle | jl | jge | jg => rfl
  | add | sub | shl | shr | and | or | xor | mov | cmp => exact withReg_mapNext fun _ => withReg_mapNext fun _ => rfl
  | addi | subi | lc | shli | shri | andi | ori | xori | not | cmpi => exact withReg_mapNext fun _ => rfl
  | mul | itod => exact withPair_mapNext fun _ => withReg_mapNext fun _ => rfl
  | muli => exact withPair_mapNext fun _ => rfl
  | cmpd => exact withPair_mapNext fun _ => withPair_mapNext fun _ => rfl
  | div => exact withPair_mapNext fun d => withReg_mapNext fun _ => finishDivide_mapOutside id _ s d _
  | divi => exact withPair_mapNext fun d => finishDivide_mapOutside id _ s d _
  | addd | subd | muld | divd =>
    exact withPair_mapNext fun d => withPair_mapNext fun _ => finishFp_mapOutside id _ s d _
  | dtoi => exact withReg_mapNext fun d => withPair_mapNext fun _ => finishFloor_mapOutside id _ s d _
  | calli | ret => exact ite_mapNext rfl rfl
  | push | pop | load | store => exact withReg_mapNext fun _ => ite_mapNext rfl rfl
  | load2 | store2 => exact withPair_mapNext fun _ => ite_mapNext rfl rfl
  | call | loadr | storer => exact withReg_mapNext fun _ => withReg_mapNext fun _ => ite_mapNext rfl rfl
  | loadr2 | storer2 => exact withPair_mapNext fun _ => withReg_mapNext fun _ => ite_mapNext rfl rfl

/-! ### The system calls on the registers they take (R101 to R109) -/

section
variable (d : Reg) (p : PairReg) (s : State)

theorem exec_scanInt : exec (.syscall (regNo d) 100) s = s.scanInt d := withReg_regNo ..

theorem exec_scanDouble : exec (.syscall (pairNo p) 101) s = s.scanDouble p := withPair_pairNo ..

theorem exec_printInt : exec (.syscall (regNo d) 102) s = s.printInt d := withReg_regNo ..

theorem exec_printDouble : exec (.syscall (pairNo p) 103) s = s.printDouble p := withPair_pairNo ..

theorem exec_getChar : exec (.syscall (regNo d) 104) s = s.getChar d := withReg_regNo ..

theorem exec_putChar : exec (.syscall (regNo d) 105) s = s.putChar d := withReg_regNo ..

end

/-- Table 3 lists 0 and 100 to 105 only (R101). -/
theorem serviceOf_eq_unknown {imm : Imm20} (h0 : imm.toNat ≠ 0) (h : imm.toNat < 100 ∨ 105 < imm.toNat) :
    serviceOf imm = .unknown := by
  rcases serviceOf_cases imm with
    ⟨rfl, _⟩ | ⟨rfl, _⟩ | ⟨rfl, _⟩ | ⟨rfl, _⟩ | ⟨rfl, _⟩ | ⟨rfl, _⟩ | ⟨rfl, _⟩ | ⟨_, e⟩
  · exact absurd rfl h0
  iterate 6 exact absurd h (by decide)
  exact e

/-- A code with no service raises its error once the register field has been checked (R109, R249). -/
theorem exec_unknownSyscall {imm : Imm20} (h : serviceOf imm = .unknown) (rd : RegNo) (s : State) :
    exec (.syscall rd imm) s = withReg rd fun _ => s.raise .unknownSyscall := by
  simp only [exec, execSyscall, h]

/-! ### Input (R103, R104, R107, R110) -/

theorem HostAnswer.asInt_eq_some {answer : HostAnswer} {v : Word} : answer.asInt = some v ↔ answer = .int v := by
  cases answer with
  | int | double | char | noValue => simp [HostAnswer.asInt]

theorem HostAnswer.asDouble_eq_some {answer : HostAnswer} {v : DWord} :
    answer.asDouble = some v ↔ answer = .double v := by
  cases answer with
  | int | double | char | noValue => simp [HostAnswer.asDouble]

theorem HostAnswer.asChar_eq_some {answer : HostAnswer} {c : BitVec 8} :
    answer.asChar = some c ↔ answer = .char c := by
  cases answer with
  | int | double | char | noValue => simp [HostAnswer.asChar]

/-- An input call whose kind of answer is made by `mk` is refused unless the next answer is of that kind (R110). -/
theorem withInput_eq_refuse {α : Type} {pick : HostAnswer → Option α} {mk : α → HostAnswer}
    (hpick : ∀ {answer v}, pick answer = some v ↔ answer = mk v) {s : State}
    (h : ∀ v rest, s.hostIn ≠ mk v :: rest) (k : α → State → Result) : s.withInput pick k = refuse .hostInput := by
  rcases withInput_eq s pick k with ⟨_, e⟩ | ⟨answer, rest, v, hi, hv, _⟩
  · exact e
  · exact absurd (hpick.1 hv ▸ hi) (h v rest)

/-- SCANINT with an answer of its kind waiting (R103). -/
theorem scanInt_answer {s : State} {v : Word} {rest : List HostAnswer} (h : s.hostIn = .int v :: rest) (d : Reg) :
    s.scanInt d = (s.setHostIn rest).finishReg d v := withInput_answer (pick := HostAnswer.asInt) h rfl _

/-- SCANDOUBLE with an answer of its kind waiting (R104). -/
theorem scanDouble_answer {s : State} {v : DWord} {rest : List HostAnswer} (h : s.hostIn = .double v :: rest)
    (p : PairReg) : s.scanDouble p = (s.setHostIn rest).finishPair p v :=
  withInput_answer (pick := HostAnswer.asDouble) h rfl _

/-- GETCHAR with an answer of its kind waiting; the character is zero-extended (R107). -/
theorem getChar_answer {s : State} {c : BitVec 8} {rest : List HostAnswer} (h : s.hostIn = .char c :: rest) (d : Reg) :
    s.getChar d = (s.setHostIn rest).finishReg d (W (c.toNat : Int)) := by
  rw [W_natCast, BitVec.ofNat_toNat]
  exact withInput_answer (pick := HostAnswer.asChar) h rfl _

/-- An outcome that ends in `finishReg` gives its register, from the state the input was taken from on (R25). -/
theorem finishReg_completes {r : Result} {s : State} {d : Reg} {v : Word} (h : r = s.finishReg d v) :
    ∃ t, r = .next t ∧ t.reg d = v ∧ t.pc = W (U s.pc + 1) ∧ t.flags = s.flags ∧ KeepsBut [d] [] s t :=
  ⟨_, h, by simp, State.nextPc_eq s, rfl, keepsBut_setReg s d v⟩

/-- An outcome that ends in `finishPair` gives its pair, from the state the input was taken from on (R25). -/
theorem finishPair_completes {r : Result} {s : State} {p : PairReg} {v : DWord} (h : r = s.finishPair p v) :
    ∃ t, r = .next t ∧ t.reg (pairLo p) = lowWord v ∧ t.reg (pairHi p) = highWord v ∧ t.pc = W (U s.pc + 1) ∧
      t.flags = s.flags ∧ KeepsBut [pairLo p, pairHi p] [] s t :=
  ⟨_, h, by simp, by simp, State.nextPc_eq s, rfl, keepsBut_setPair s p v⟩

/-! ### Output (R105, R106, R108) -/

/-- A command that emits an event and goes on changes the trace and `pc` alone (R25, R32). -/
theorem emit_completes {r : Result} {s : State} {e : OutEvent} (h : r = .next (s.emit e).advance) :
    ∃ t, r = .next t ∧ t.outTrace = s.outTrace ++ [e] ∧ t.pc = W (U s.pc + 1) ∧ t.flags = s.flags ∧
      KeepsBut [] [] (s.setOutTrace t.outTrace) t :=
  ⟨_, h, rfl, State.nextPc_eq s, rfl, keepsBut_setPc (s.emit e) _⟩

/-! ### The statements -/

/-- Settles O18: the host's input is a field that the answers of a command name, and one it carries along. -/
theorem hostInputIsUsedOnlyByInputCalls : Obligations.HostInputIsUsedOnlyByInputCalls := by
  refine fun i s t hi h => ⟨?_, fun l => ?_⟩
  · rcases goesOn_or_stops h with hg | ⟨_, _, rfl⟩
    · exact hg.hostIn hi
    · rfl
  · rw [exec_setHostIn s l hi, h, mapNext_next]

/-- Settles O54: neither meaning looks at the fields it ignores. -/
theorem haltAndExitStopTheMachine : Obligations.HaltAndExitStopTheMachine := by
  refine ⟨?_, ?_, fun _ _ _ => rfl, fun _ _ => rfl⟩
  · exact encodedRI_of_encode fun _ _ => rfl
  · exact encodedRI_of_encode fun _ _ => rfl

/-- Settles O55: each input call takes an answer of its kind, and without one is refused. -/
theorem inputCallsTakeTheHostsAnswer : Obligations.InputCallsTakeTheHostsAnswer := by
  refine ⟨fun d s v rest h => ?_, fun p s v rest h => ?_, fun d s c rest h => ?_, fun d s h => ?_, fun p s h => ?_,
    fun d s h => ?_, fun _ => ⟨rfl, rfl, rfl, rfl⟩⟩
  · exact finishReg_completes ((exec_scanInt d s).trans (scanInt_answer h d))
  · exact finishPair_completes ((exec_scanDouble p s).trans (scanDouble_answer h p))
  · exact finishReg_completes ((exec_getChar d s).trans (getChar_answer h d))
  · exact (exec_scanInt d s).trans (withInput_eq_refuse HostAnswer.asInt_eq_some h _)
  · exact (exec_scanDouble p s).trans (withInput_eq_refuse HostAnswer.asDouble_eq_some h _)
  · exact (exec_getChar d s).trans (withInput_eq_refuse HostAnswer.asChar_eq_some h _)

/-- Settles O56: each output call emits its event, PUTCHAR only if the whole register is a character. -/
theorem outputCallsAppendOneEvent : Obligations.OutputCallsAppendOneEvent := by
  refine ⟨fun d s => emit_completes (exec_printInt d s), fun p s => emit_completes (exec_printDouble p s),
    fun d s h => ?_, fun d s h => ?_, fun _ => ⟨rfl, rfl, rfl, rfl⟩⟩
  · rw [BitVec.ofNat_toNat]
    exact emit_completes (by rw [exec_putChar, putChar_eq, if_neg h.not_gt])
  · rw [Raises, exec_putChar, putChar_eq, if_pos h, State.raise]

/-- Settles O57: the code selects no service, so only the register field is looked at. -/
theorem unknownCallCodesRaiseAnError : Obligations.UnknownCallCodesRaiseAnError := by
  intro imm h0 h
  have he := exec_unknownSyscall (serviceOf_eq_unknown h0 h)
  exact ⟨fun d s => (he (regNo d) s).trans (withReg_regNo ..), fun s => he 15 s⟩

end Sys2Proof.Machine
end

section
/-! PROOFS. The integer arithmetic commands (41_integer_arithmetic.md R121 to R129): their results, and where the signed
reading of integers agrees with the unsigned one, in the other commands that read a word as an integer too. -/

namespace Sys2Proof.Machine

/-! ### Encodings and refusals by the shape of a meaning (R23, R62, R63) -/

theorem encodedRR_of_encode {mk : RegNo → RegNo → Imm16 → Instr} {c : BitVec 8}
    (he : ∀ rd rs imm, encode (mk rd rs imm) = c ++ rd ++ rs ++ imm) : EncodedRR mk c :=
  fun rd rs imm => ⟨he rd rs imm, he rd rs imm ▸ decode_encode _⟩

theorem withReg_eq_refuse {i : RegNo} {k : Reg → Result} (h : ∀ r, k r = refuse .reg15) :
    withReg i k = refuse .reg15 := by
  rcases withReg_eq i k with ⟨_, e⟩ | ⟨r, _, e⟩
  · exact e
  · exact e.trans (h r)

theorem withPair_eq_refuse {i : RegNo} {k : PairReg → Result} (h : ∀ p, k p = refuse .reg15) :
    withPair i k = refuse .reg15 := by
  rcases withPair_eq i k with ⟨_, e⟩ | ⟨p, _, e⟩
  · exact e
  · exact e.trans (h p)

/-- A command of format RR that checks its receiver field and then its source field refuses number 15 in either. -/
theorem refusesRR_of_exec {mk : RegNo → RegNo → Imm16 → Instr} {k : State → Imm16 → Reg → Reg → Result}
    (h : ∀ rd rs imm s, exec (mk rd rs imm) s = withReg rd fun d => withReg rs fun r => k s imm d r) :
    RefusesRR mk := by
  rintro rd rs imm s (rfl | rfl) <;> rw [h]
  · rfl
  · exact withReg_eq_refuse fun _ => rfl

/-- A command of format RR that checks a pair in its receiver field and then its source field refuses the numbers that
name no pair and no source. -/
theorem refusesPairRR_of_exec {mk : RegNo → RegNo → Imm16 → Instr} {k : State → Imm16 → PairReg → Reg → Result}
    (h : ∀ rd rs imm s, exec (mk rd rs imm) s = withPair rd fun p => withReg rs fun r => k s imm p r) :
    RefusesPairRR mk := by
  rintro rd rs imm s (rfl | rfl | rfl) <;> rw [h]
  · rfl
  · rfl
  · exact withPair_eq_refuse fun _ => rfl

theorem refusesPairRI_of_exec {mk : RegNo → Imm20 → Instr} {k : State → Imm20 → PairReg → Result}
    (h : ∀ rd imm s, exec (mk rd imm) s = withPair rd fun p => k s imm p) : RefusesPairRI mk := by
  rintro rd imm s (rfl | rfl) <;> rw [h] <;> rfl

/-! ### The commands on the registers and pairs they take (R121 to R128) -/

theorem U_immWord20 (imm : Imm20) : U (immWord imm) = (imm.toNat : Int) := congrArg Nat.cast (immWord20_toNat imm)

section
variable (d r : Reg) (p : PairReg) (s : State)

theorem withReg_withReg_regNo (k : Reg → Reg → Result) :
    (withReg (regNo d) fun d => withReg (regNo r) fun r => k d r) = k d r := by simp

theorem withPair_withReg_regNo (k : PairReg → Reg → Result) :
    (withPair (pairNo p) fun p => withReg (regNo r) fun r => k p r) = k p r := by simp

theorem exec_add (imm : Imm16) :
    exec (.add (regNo d) (regNo r) imm) s = s.finishReg d (W (U (s.reg d) + U (modified s r imm))) := by
  rw [W_add, W_U, W_U, ← State.srcval_eq]
  exact withReg_withReg_regNo ..

theorem exec_sub (imm : Imm16) :
    exec (.sub (regNo d) (regNo r) imm) s = s.finishReg d (W (U (s.reg d) - U (modified s r imm))) := by
  rw [W_sub, W_U, W_U, ← State.srcval_eq]
  exact withReg_withReg_regNo ..

theorem exec_addi (imm : Imm20) :
    exec (.addi (regNo d) imm) s = s.finishReg d (W (U (s.reg d) + (imm.toNat : Int))) := by
  rw [W_add, W_U, ← immWord20_eq]
  exact withReg_regNo ..

theorem exec_subi (imm : Imm20) :
    exec (.subi (regNo d) imm) s = s.finishReg d (W (U (s.reg d) - (imm.toNat : Int))) := by
  rw [W_sub, W_U, ← immWord20_eq]
  exact withReg_regNo ..

theorem exec_mul (imm : Imm16) :
    exec (.mul (pairNo p) (regNo r) imm) s = s.finishPair p (W64 (U (s.reg (pairLo p)) * U (modified s r imm))) := by
  rw [← State.srcval_eq, ← mulWords_unsigned]
  exact withPair_withReg_regNo ..

theorem exec_muli (imm : Imm20) :
    exec (.muli (pairNo p) imm) s = s.finishPair p (W64 (U (s.reg (pairLo p)) * (imm.toNat : Int))) := by
  rw [← U_immWord20, ← mulWords_unsigned]
  exact withPair_pairNo ..

theorem exec_div (imm : Imm16) :
    exec (.div (pairNo p) (regNo r) imm) s = s.finishDivide p (modified s r imm) := by
  rw [← State.srcval_eq]
  exact withPair_withReg_regNo ..

theorem exec_divi (imm : Imm20) : exec (.divi (pairNo p) imm) s = s.finishDivide p (immWord imm) := withPair_pairNo ..

/-! ### Division by more than the high word (R127) -/

/-- The quotient of a double word by more than its high word fits a register. -/
theorem pair_ediv_lt {b : Int} (h : U (s.reg (pairHi p)) < b) : ((s.pair p).toNat : Int) / b < 4294967296 := by
  have hhi := U_nonneg (s.reg (pairHi p))
  have hlo := U_lt (s.reg (pairLo p))
  rw [pair_toNat]
  exact Int.ediv_lt_of_lt_mul (by omega) (by omega)

/-- The division then completes, by writing the remainder and the quotient as one pair. -/
theorem finishDivide_of_lt {b : Word} (h : U (s.reg (pairHi p)) < U b) :
    s.finishDivide p b =
      s.finishPair p (W (((s.pair p).toNat : Int) % U b) ++ W (((s.pair p).toNat : Int) / U b)) := by
  have hb : U b ≠ 0 := ((U_nonneg _).trans_lt h).ne'
  rw [finishDivide_eq, if_neg hb, if_pos (pair_ediv_lt p s h), finishPair_eq, State.setPair, lowWord_append,
    highWord_append]

end

/-- What a command leaves that divides by more than the high word: quotient and remainder of the dividend. -/
theorem finishDivide_completes {i : Instr} {s : State} {p : PairReg} {b : Word} (hi : exec i s = s.finishDivide p b)
    (h : U (s.reg (pairHi p)) < U b) :
    ∃ t, exec i s = .next t ∧
      U (t.reg (pairLo p)) * U b + U (t.reg (pairHi p)) =
        U (s.reg (pairHi p)) * 4294967296 + U (s.reg (pairLo p)) ∧
      U (t.reg (pairHi p)) < U b ∧
      t.pc = W (U s.pc + 1) ∧ t.flags = s.flags ∧ KeepsBut [pairLo p, pairHi p] [] s t := by
  obtain ⟨t, ht, hlo, hhi, hframe⟩ := givesPair_of_finishPair (hi.trans (finishDivide_of_lt p s h))
  have hb : 0 < U b := (U_nonneg _).trans_lt h
  have hn : (0 : Int) ≤ ((s.pair p).toNat : Int) := Int.natCast_nonneg _
  have hr : ((s.pair p).toNat : Int) % U b < U b := Int.emod_lt_of_pos _ hb
  have hq : U (t.reg (pairLo p)) = ((s.pair p).toNat : Int) / U b := by
    rw [hlo, lowWord_append, U_W]
    exact Int.emod_eq_of_lt (Int.ediv_nonneg hn hb.le) (pair_ediv_lt p s h)
  have hm : U (t.reg (pairHi p)) = ((s.pair p).toNat : Int) % U b := by
    rw [hhi, highWord_append, U_W]
    exact Int.emod_eq_of_lt (Int.emod_nonneg _ hb.ne') (hr.trans (U_lt b))
  refine ⟨t, ht, ?_, hm ▸ hr, hframe⟩
  rw [hq, hm, Int.ediv_mul_add_emod, pair_toNat]

/-! ### The signed reading of a word (R6, R129) -/

/-- The two readings differ by 2^32 where bit 31 is set, and nowhere else. -/
theorem intOfWord_signed (w : Word) : intOfWord true w = U w - if w.msb then 4294967296 else 0 := by
  have h : intOfWord true w = w.toInt := rfl
  rw [h, BitVec.toInt_eq_msb_cond]
  split
  · rfl
  · exact (sub_zero _).symm

theorem intOfWord_signed_of_msb_false {w : Word} (h : w.msb = false) : intOfWord true w = intOfWord false w := by
  simp [intOfWord_signed, h]

theorem intOfDWord_signed_of_msb_false {d : DWord} (h : d.msb = false) : intOfDWord true d = intOfDWord false d :=
  BitVec.toInt_eq_toNat_of_msb h

/-- Either reading of a word denotes the word. -/
theorem W_intOfWord (isSigned : Bool) (w : Word) : W (intOfWord isSigned w) = w := by
  cases isSigned with
  | false => exact W_U w
  | true => exact BitVec.ofInt_toInt

theorem two_pow_31_le_U {w : Word} (h : w.msb = true) : 2147483648 ≤ U w :=
  Int.ofNat_le.2 (BitVec.toNat_ge_of_msb_true h)

/-- A number that both readings can denote fits a register under either. -/
theorem fitsWord_of_le {k : Int} (h0 : 0 ≤ k) (h : k ≤ 2147483647) (isSigned : Bool) : fitsWord isSigned k = true := by
  cases isSigned with
  | false => exact decide_eq_true ⟨h0, by omega⟩
  | true => exact decide_eq_true ⟨by omega, h⟩

/-! ### Multiplication, division and comparison under both readings (R125, R129, R201) -/

theorem lowWord_W64 (n : Int) : lowWord (W64 n) = W n := by
  apply BitVec.eq_of_toNat_eq
  simp only [lowWord, W64, W, BitVec.extractLsb'_toNat, BitVec.toNat_ofInt, Nat.shiftRight_zero, Config.xlen]
  omega

/-- The low word of the product does not depend on the reading: it is the product modulo 2^32. -/
theorem lowWord_mulWords (isSigned : Bool) (a b : Word) : lowWord (mulWords isSigned a b) = a * b := by
  have h : W (intOfWord isSigned a * intOfWord isSigned b) = W (intOfWord isSigned a) * W (intOfWord isSigned b) :=
    BitVec.ofInt_mul _ _
  rw [W_intOfWord, W_intOfWord] at h
  exact (lowWord_W64 _).trans h

theorem divide_signed {n : DWord} {d : Word} (hn : n.msb = false) (hd : d.msb = false)
    (hq : n.toNat / d.toNat < 2147483648) : divide true n d = divide false n d := by
  have hfits : ∀ isSigned, fitsWord isSigned ((intOfDWord false n).tdiv (intOfWord false d)) = true := by
    have e : (intOfDWord false n).tdiv (intOfWord false d) = ((n.toNat / d.toNat : Nat) : Int) :=
      (Int.ofNat_tdiv _ _).symm
    rw [e]
    exact fitsWord_of_le (Int.natCast_nonneg _) (Int.ofNat_le.2 (Nat.le_of_lt_succ hq))
  simp only [divide, intOfDWord_signed_of_msb_false hn, intOfWord_signed_of_msb_false hd, hfits]

theorem compareInt_sub_right (a b c : Int) : compareInt (a - c) (b - c) = compareInt a b := by
  simp only [compareInt, sub_left_inj, sub_lt_sub_iff_right]

theorem compareWord_signed {a b : Word} (h : a.msb = b.msb) : compareWord true a b = compareWord false a b := by
  rw [compareWord, intOfWord_signed, intOfWord_signed, h, compareInt_sub_right, compareWord_unsigned]

/-! ### Conversion to an integer and PUTCHAR under both readings (R108, R168) -/

theorem floorWord_of_le {k : Int} (h0 : 0 ≤ k) (h : k ≤ 2147483647) (isSigned : Bool) :
    floorWord isSigned (some k) = .ok (W k) := if_pos (fitsWord_of_le h0 h isSigned)

/-- PUTCHAR of a word with bit 31 set: negative under the signed reading. -/
theorem charOfWord_signed_of_msb {w : Word} (h : w.msb = true) : charOfWord true w = .error (.inr .negativeChar) := by
  have hneg : intOfWord true w < 0 := by
    rw [intOfWord_signed, h, if_pos rfl]
    exact sub_neg.2 (U_lt w)
  rw [charOfWord, if_neg (by omega), if_pos hneg]

/-- PUTCHAR of a word with bit 31 set: too large under the unsigned reading. -/
theorem charOfWord_unsigned_of_msb {w : Word} (h : w.msb = true) :
    charOfWord false w = .error (.inl .charOutOfRange) := by
  have hbig := two_pow_31_le_U h
  rw [charOfWord_unsigned, if_pos (by omega)]

/-! ### The statements -/

/-- Settles O25: a divisor above the high word makes the quotient fit, and division with remainder does the rest. -/
theorem divAndDiviGiveQuotientAndRemainder : Obligations.DivAndDiviGiveQuotientAndRemainder := by
  refine ⟨encodedRR_of_encode fun _ _ _ => rfl, encodedRI_of_encode fun _ _ => rfl,
    refusesPairRR_of_exec fun _ _ _ _ => rfl, refusesPairRI_of_exec fun _ _ _ => rfl, fun p r imm s h => ?_,
    fun p imm s h => ?_⟩
  · exact finishDivide_completes (exec_div r p s imm) h
  · rw [← U_immWord20] at h ⊢
    exact finishDivide_completes (exec_divi p s imm) h

/-- Settles O27: with bit 31 clear both readings are the same number; where it may be set, their difference cancels modulo
2^32 and between compared words, and puts the word outside the characters. -/
theorem signedReadingsAgreeOnTheCautiousSubset : Obligations.SignedReadingsAgreeOnTheCautiousSubset := by
  refine ⟨fun a b => ?_, fun a b ha hb => ?_, fun _ _ => divide_signed, fun _ _ => compareWord_signed, fun w h => ?_,
    fun k h0 h => ⟨floorWord_of_le h0 h true, floorWord_of_le h0 h false⟩, fun _ => rfl, fun w h => ?_,
    fun _ h => ⟨charOfWord_signed_of_msb h, charOfWord_unsigned_of_msb h⟩⟩
  · rw [lowWord_mulWords, lowWord_mulWords]
  · rw [mulWords, intOfWord_signed_of_msb_false ha, intOfWord_signed_of_msb_false hb, mulWords]
  · rw [intOfWord_signed_of_msb_false h]
  · rw [charOfWord, intOfWord_signed_of_msb_false h, charOfWord]

/-- Settles O22: both meanings check the two fields and end in `finishReg`. -/
theorem addAndSubRegisters : Obligations.AddAndSubRegisters :=
  ⟨encodedRR_of_encode fun _ _ _ => rfl, encodedRR_of_encode fun _ _ _ => rfl, refusesRR_of_exec fun _ _ _ _ => rfl,
    refusesRR_of_exec fun _ _ _ _ => rfl, fun d r imm s => givesReg_of_finishReg (exec_add d r s imm),
    fun d r imm s => givesReg_of_finishReg (exec_sub d r s imm)⟩

/-- Settles O23: both meanings check the one field and end in `finishReg`. -/
theorem addiAndSubi : Obligations.AddiAndSubi :=
  ⟨encodedRI_of_encode fun _ _ => rfl, encodedRI_of_encode fun _ _ => rfl, fun _ _ => rfl, fun _ _ => rfl,
    fun d imm s => givesReg_of_finishReg (exec_addi d s imm), fun d imm s => givesReg_of_finishReg (exec_subi d s imm)⟩

/-- Settles O24: both meanings end in `finishPair`, which writes both halves of the product. -/
theorem mulAndMuliGiveTheFullProduct : Obligations.MulAndMuliGiveTheFullProduct :=
  ⟨encodedRR_of_encode fun _ _ _ => rfl, encodedRI_of_encode fun _ _ => rfl, refusesPairRR_of_exec fun _ _ _ _ => rfl,
    refusesPairRI_of_exec fun _ _ _ => rfl, fun p r imm s => givesPair_of_finishPair (exec_mul r p s imm),
    fun p imm s => givesPair_of_finishPair (exec_muli p s imm)⟩

end Sys2Proof.Machine
end

section
/-! PROOFS. The constant load, the shifts, the bitwise logic and the move (42_constant_shift_logic_move.md R140 to R152):
each leaves a function of the receiver and of a second operand in the receiver. -/

namespace Sys2Proof.Machine

/-! ### Commands that apply a function to the receiver and a second operand -/

/-- The commands of format RR made by `mk` leave `f` of the receiver and the modified source in the receiver. -/
def AppliesRR (mk : RegNo → RegNo → Imm16 → Instr) (f : Word → Word → Word) : Prop :=
  ∀ rd rs imm s, exec (mk rd rs imm) s =
    withReg rd fun d => withReg rs fun r => s.finishReg d (f (s.reg d) (s.srcval r imm))

/-- The commands of format RI made by `mk` leave `f` of the receiver and the immediate in the receiver. -/
def AppliesRI (mk : RegNo → Imm20 → Instr) (f : Word → Word → Word) : Prop :=
  ∀ rd imm s, exec (mk rd imm) s = withReg rd fun d => s.finishReg d (f (s.reg d) (immWord imm))

section
variable {mkRR : RegNo → RegNo → Imm16 → Instr} {mkRI : RegNo → Imm20 → Instr} {f : Word → Word → Word}

theorem AppliesRR.refuses (h : AppliesRR mkRR f) : RefusesRR mkRR := refusesRR_of_exec h

theorem AppliesRR.givesReg (h : AppliesRR mkRR f) (d r : Reg) (imm : Imm16) (s : State) :
    GivesReg (mkRR (regNo d) (regNo r) imm) s d (f (s.reg d) (modified s r imm)) := by
  refine givesReg_of_finishReg ((h ..).trans ?_)
  rw [← State.srcval_eq]
  exact withReg_withReg_regNo ..

theorem AppliesRI.refuses (h : AppliesRI mkRI f) : RefusesRI mkRI := fun imm s => h 15 imm s

theorem AppliesRI.givesReg (h : AppliesRI mkRI f) (d : Reg) (imm : Imm20) (s : State) :
    GivesReg (mkRI (regNo d) imm) s d (f (s.reg d) (W (imm.toNat : Int))) := by
  refine givesReg_of_finishReg ((h ..).trans ?_)
  rw [← immWord20_eq]
  exact withReg_regNo ..

end

/-! ### The function of each command (R140 to R152) -/

theorem appliesRI_lc : AppliesRI .lc fun _ y => y := fun _ _ _ => rfl
theorem appliesRR_shl : AppliesRR .shl fun x y => shiftLeftWord x y.toNat := fun _ _ _ _ => rfl
theorem appliesRI_shli : AppliesRI .shli fun x y => shiftLeftWord x y.toNat := fun _ _ _ => rfl
theorem appliesRR_shr : AppliesRR .shr fun x y => shiftRightWord x y.toNat := fun _ _ _ _ => rfl
theorem appliesRI_shri : AppliesRI .shri fun x y => shiftRightWord x y.toNat := fun _ _ _ => rfl
theorem appliesRR_and : AppliesRR .and (· &&& ·) := fun _ _ _ _ => rfl
theorem appliesRI_andi : AppliesRI .andi (· &&& ·) := fun _ _ _ => rfl
theorem appliesRR_or : AppliesRR .or (· ||| ·) := fun _ _ _ _ => rfl
theorem appliesRI_ori : AppliesRI .ori (· ||| ·) := fun _ _ _ => rfl
theorem appliesRR_xor : AppliesRR .xor (· ^^^ ·) := fun _ _ _ _ => rfl
theorem appliesRI_xori : AppliesRI .xori (· ^^^ ·) := fun _ _ _ => rfl
theorem appliesRI_not : AppliesRI .not fun x _ => ~~~x := fun _ _ _ => rfl
theorem appliesRR_mov : AppliesRR .mov fun _ y => y := fun _ _ _ _ => rfl

/-! ### Shifts as arithmetic (R141, R143) -/

section
variable (x : Word) (n : Nat)

theorem W_mul_two_pow : W (U x * 2 ^ n) = x <<< n := by
  have hcast : U x * 2 ^ n = ((x.toNat <<< n : Nat) : Int) := by simp [U, Nat.shiftLeft_eq]
  rw [hcast, W_natCast]
  exact BitVec.eq_of_toNat_eq (by simp)

theorem W_ediv_two_pow : W (U x / 2 ^ n) = x >>> n := by
  have hcast : U x / 2 ^ n = ((x.toNat >>> n : Nat) : Int) := by simp [U, Nat.shiftRight_eq_div_pow]
  rw [hcast, W_natCast, ← BitVec.toNat_ushiftRight, BitVec.ofNat_toNat, BitVec.setWidth_eq]

theorem shiftLeftWord_eq : shiftLeftWord x n = if 32 ≤ n then 0 else W (U x * 2 ^ n) := by
  rw [W_mul_two_pow, shiftLeftWord]

theorem shiftRightWord_eq : shiftRightWord x n = if 32 ≤ n then 0 else W (U x / 2 ^ n) := by
  rw [W_ediv_two_pow, shiftRightWord]

end

theorem xlen_le_U_iff (w : Word) : 32 ≤ U w ↔ 32 ≤ w.toNat := Nat.ofNat_le_cast

/-- The immediate as a shift count (R142, R144). -/
theorem toNat_W_imm20 (imm : Imm20) : (W (imm.toNat : Int)).toNat = imm.toNat := by
  rw [← immWord20_eq, immWord20_toNat]

/-! ### The statements -/

/-- Settles O28: the function is the second operand for `lc` and `mov`, the receiver's complement for `not`. -/
theorem constantNotAndMove : Obligations.ConstantNotAndMove :=
  ⟨encodedRI_of_encode fun _ _ => rfl, encodedRI_of_encode fun _ _ => rfl, encodedRR_of_encode fun _ _ _ => rfl,
    appliesRI_lc.refuses, appliesRI_not.refuses, appliesRR_mov.refuses,
    appliesRI_lc.givesReg, appliesRI_not.givesReg, appliesRR_mov.givesReg⟩

/-- Settles O29: the function is a shift by the whole second operand, which is arithmetic below 32. -/
theorem shifts : Obligations.Shifts := by
  refine ⟨encodedRR_of_encode fun _ _ _ => rfl, encodedRI_of_encode fun _ _ => rfl, encodedRR_of_encode fun _ _ _ => rfl,
    encodedRI_of_encode fun _ _ => rfl, appliesRR_shl.refuses, appliesRI_shli.refuses, appliesRR_shr.refuses,
    appliesRI_shri.refuses, fun d r imm s => ?shl, fun d imm s => ?shli, fun d r imm s => ?shr, fun d imm s => ?shri⟩
  case shl => simpa only [shiftLeftWord_eq, ← xlen_le_U_iff] using appliesRR_shl.givesReg d r imm s
  case shli => simpa only [shiftLeftWord_eq, toNat_W_imm20] using appliesRI_shli.givesReg d imm s
  case shr => simpa only [shiftRightWord_eq, ← xlen_le_U_iff] using appliesRR_shr.givesReg d r imm s
  case shri => simpa only [shiftRightWord_eq, toNat_W_imm20] using appliesRI_shri.givesReg d imm s

/-- Settles O30: the functions are the bitwise operations themselves. -/
theorem bitwiseLogic : Obligations.BitwiseLogic :=
  ⟨encodedRR_of_encode fun _ _ _ => rfl, encodedRI_of_encode fun _ _ => rfl, appliesRR_and.refuses,
    appliesRI_andi.refuses, appliesRR_and.givesReg, appliesRI_andi.givesReg,
    encodedRR_of_encode fun _ _ _ => rfl, encodedRI_of_encode fun _ _ => rfl, appliesRR_or.refuses,
    appliesRI_ori.refuses, appliesRR_or.givesReg, appliesRI_ori.givesReg,
    encodedRR_of_encode fun _ _ _ => rfl, encodedRI_of_encode fun _ _ => rfl, appliesRR_xor.refuses,
    appliesRI_xori.refuses, appliesRR_xor.givesReg, appliesRI_xori.givesReg⟩

end Sys2Proof.Machine
end

section
/-! PROOFS. The numbers that floating-point patterns stand for (43_floating_point.md R160, R169): they are signed multiples
of powers of two, and the model's exact integers are those multiples at a common exponent. -/

namespace Sys2Proof.Machine.Ieee

/-! ### A pattern and its fields (R160) -/

/-- A pattern is determined by its three fields. -/
theorem eq_of_fields {a b : DWord} (hs : signField a = signField b) (he : exponentField a = exponentField b)
    (hf : fractionField a = fractionField b) : a = b := by
  have ha : a.toNat < 2 ^ 64 := a.isLt
  have hb : b.toNat < 2 ^ 64 := b.isLt
  simp only [signField, BitVec.getLsbD, Nat.testBit_eq_decide_div_mod_eq, decide_eq_decide] at hs
  simp only [exponentField, fractionField, BitVec.extractLsb'_toNat, Nat.shiftRight_eq_div_pow] at he hf
  apply BitVec.eq_of_toNat_eq
  omega

/-- A pattern is its sign above its exponent field above its fraction field. -/
theorem pack_fields (d : DWord) : pack (signField d) (exponentField d * 2 ^ 52 + fractionField d) = d := by
  have he := exponentField_lt d
  have hf := fractionField_lt d
  refine eq_of_fields (signField_pack _ _) ?_ ?_
  · rw [exponentField_pack _ _ (by omega)]
    omega
  · rw [fractionField_pack]
    omega

/-! ### Signed multiples of powers of two -/

/-- The factor a sign bit stands for. -/
def sign (neg : Bool) : ℚ := if neg then -1 else 1

/-- The number `(-1)^neg * m * 2^k`, which `Value.finite neg m k` stands for. -/
def scaled (neg : Bool) (m : Nat) (k : Int) : ℚ := sign neg * m * 2 ^ k

@[simp] theorem abs_sign (neg : Bool) : |sign neg| = 1 := by cases neg <;> simp [sign]

theorem sign_not (neg : Bool) : sign (!neg) = -sign neg := by cases neg <;> simp [sign]

theorem sign_xor (a b : Bool) : sign (a ^^ b) = sign a * sign b := by cases a <;> cases b <;> simp [sign]

theorem two_zpow_pos (k : Int) : (0 : ℚ) < 2 ^ k := zpow_pos two_pos k

theorem scaled_not (neg : Bool) (m : Nat) (k : Int) : scaled (!neg) m k = -scaled neg m k := by
  simp [scaled, sign_not]

theorem abs_scaled (neg : Bool) (m : Nat) (k : Int) : |scaled neg m k| = m * 2 ^ k := by
  rw [scaled, abs_mul, abs_mul, abs_sign, one_mul, Nat.abs_cast, abs_of_pos (two_zpow_pos k)]

theorem scaled_eq_zero (neg : Bool) (m : Nat) (k : Int) : scaled neg m k = 0 ↔ m = 0 := by
  rw [← abs_eq_zero, abs_scaled, mul_eq_zero, or_iff_left (two_zpow_pos k).ne', Nat.cast_eq_zero]

theorem scaled_mul (n₁ n₂ : Bool) (m₁ m₂ : Nat) (k₁ k₂ : Int) :
    scaled n₁ m₁ k₁ * scaled n₂ m₂ k₂ = scaled (n₁ ^^ n₂) (m₁ * m₂) (k₁ + k₂) := by
  rw [scaled, scaled, scaled, sign_xor, zpow_add₀ two_ne_zero, Nat.cast_mul]
  ring

theorem signed_cast (neg : Bool) (m : Nat) : (signed neg m : ℚ) = sign neg * m := by
  cases neg <;> simp [signed, sign]

theorem natCast_shiftLeft (m n : Nat) : ((m <<< n : Nat) : ℚ) = m * 2 ^ n := by
  rw [Nat.shiftLeft_eq, Nat.cast_mul, Nat.cast_pow, Nat.cast_ofNat]

theorem two_zpow_split {k q : Int} (h : q ≤ k) : (2 : ℚ) ^ k = 2 ^ (k - q).toNat * 2 ^ q := by
  rw [← zpow_natCast, ← zpow_add₀ two_ne_zero, Int.toNat_of_nonneg (sub_nonneg.2 h), sub_add_cancel]

/-- A scaled integer at a lower exponent: how sums and comparisons bring two values to one unit. -/
theorem scaled_eq_signed_mul (neg : Bool) (m : Nat) {k q : Int} (h : q ≤ k) :
    scaled neg m k = (signed neg (m <<< (k - q).toNat) : ℚ) * 2 ^ q := by
  rw [signed_cast, natCast_shiftLeft, scaled, two_zpow_split h]
  ring

/-! ### The number of a pattern (R160, R169) -/

theorem two_zpow_sub_52 (k : Int) : (2 : ℚ) ^ (k - 52) = 2 ^ k / 2 ^ 52 := by
  rw [zpow_sub₀ two_ne_zero]
  rfl

/-- The value the model decodes is the number of the format. -/
theorem number_of_valueOf {d : DWord} {neg : Bool} {m : Nat} {k : Int} (h : valueOf d = .finite neg m k) :
    number d = scaled neg m k := by
  unfold valueOf at h
  split at h
  · split at h <;> cases h
  · split at h <;> rename_i he <;> cases h
    · rw [number, if_pos he, scaled, sign, show (-1074 : ℤ) = -1022 - 52 by rfl, two_zpow_sub_52]
      ring
    · have hk : (exponentField d : ℤ) - 1075 = exponentField d - 1023 - 52 := by ring
      rw [number, if_neg he, scaled, sign, hk, two_zpow_sub_52]
      push_cast
      ring

theorem number_of_isFinite {d : DWord} (h : IsFinite d) :
    ∃ m k, valueOf d = .finite (signField d) m k ∧ number d = scaled (signField d) m k := by
  obtain ⟨m, k, hv⟩ := valueOf_of_isFinite d h
  exact ⟨m, k, hv, number_of_valueOf hv⟩

theorem floorFinite_eq (neg : Bool) (m : Nat) (k : Int) : floorFinite neg m k = ⌊scaled neg m k⌋ := by
  unfold floorFinite
  split <;> rename_i hk
  · rw [scaled_eq_signed_mul neg m hk, zpow_zero, mul_one, sub_zero, Int.floor_intCast]
  · have e : (2 : ℚ) ^ k = ((1 <<< (-k).toNat : Nat) : ℚ)⁻¹ := by
      rw [natCast_shiftLeft, Nat.cast_one, one_mul, ← zpow_natCast, Int.toNat_of_nonneg (by omega), zpow_neg, inv_inv]
    rw [scaled, ← signed_cast, e, ← div_eq_mul_inv, Rat.floor_intCast_div_natCast]

theorem floor_of_isFinite {d : DWord} (h : IsFinite d) : floor d = some ⌊number d⌋ := by
  obtain ⟨m, k, hv, hn⟩ := number_of_isFinite h
  simp only [floor, hv, hn, floorFinite_eq]

theorem floor_of_exponentField {d : DWord} (h : exponentField d = 2047) : floor d = none := by
  by_cases hf : fractionField d = 0 <;> simp [floor, valueOf, h, hf]

theorem floor_eq_some {d : DWord} {k : Int} :
    floor d = some k ↔ IsFinite d ∧ (k : ℚ) ≤ number d ∧ number d < k + 1 := by
  by_cases h : exponentField d = 2047
  · simp [floor_of_exponentField h, h]
  · rw [floor_of_isFinite h, Option.some_inj, Int.floor_eq_iff, and_iff_right h]

theorem floor_eq_none {d : DWord} : floor d = none ↔ exponentField d = 2047 := by
  by_cases h : exponentField d = 2047
  · simp [floor_of_exponentField h, h]
  · simp [floor_of_isFinite h, h]

end Sys2Proof.Machine.Ieee
end

section
/-! PROOFS. Rounding to nearest, ties to even (43_floating_point.md R162, R169). A magnitude is brought to units of its last
place, where the nearest integer is the mantissa (`NearestEven`). Every finite number is a multiple of that unit or too
small to be nearest, so the pattern of the mantissa is a nearest pattern (`RoundsAt.roundsTo`). -/

namespace Sys2Proof.Machine.Ieee

/-! ### The nearest integer, ties to even (R162) -/

/-- No integer is nearer to `y` than `n`, which is even where another one is as near. -/
def NearestEven (y : ℚ) (n : Nat) : Prop := 2 * |n - y| ≤ 1 ∧ (2 * |n - y| = 1 → n % 2 = 0)

theorem nearestEven_self (n : Nat) : NearestEven n n := by simp [NearestEven]

/-- The same in units of `u`. -/
theorem nearestEven_div {u : ℚ} (hu : 0 < u) (a : ℚ) (n : Nat) :
    NearestEven (a / u) n ↔ 2 * |n * u - a| ≤ u ∧ (2 * |n * u - a| = u → n % 2 = 0) := by
  have h : 2 * |n * u - a| = 2 * |n - a / u| * u := by
    rw [mul_assoc, ← abs_of_pos hu, ← abs_mul, abs_of_pos hu, sub_mul, div_mul_cancel₀ _ hu.ne']
  rw [NearestEven, h, mul_le_iff_le_one_left hu, mul_eq_right₀ hu.ne']

/-- The rounded quotient is within half a unit, and even at exactly half a unit. -/
theorem roundShift_nearest (m n : Nat) :
    2 * ((roundShift m n : Int) * 2 ^ n - m).natAbs ≤ 2 ^ n ∧
      (2 * ((roundShift m n : Int) * 2 ^ n - m).natAbs = 2 ^ n → roundShift m n % 2 = 0) := by
  have hpos : 0 < 2 ^ n := Nat.two_pow_pos n
  have hdiv : m / 2 ^ n * 2 ^ n + m % 2 ^ n = m := Nat.div_add_mod' m _
  have hmod : m % 2 ^ n < 2 ^ n := Nat.mod_lt _ hpos
  have hcast : ((2 ^ n : Nat) : Int) = 2 ^ n := by push_cast; rfl
  simp only [roundShift, Nat.shiftRight_eq_div_pow, Nat.shiftLeft_eq, one_mul, ← hcast, ← Nat.cast_mul]
  have hsucc : (m / 2 ^ n + 1) * 2 ^ n = m / 2 ^ n * 2 ^ n + 2 ^ n := Nat.succ_mul _ _
  split
  · rw [hsucc]
    omega
  · split
    · rw [hsucc]
      omega
    · omega

/-- The distance of a rounded quotient, as a rational number. -/
theorem roundShift_dist (m n : Nat) :
    |(roundShift m n : ℚ) * 2 ^ n - m| = (((roundShift m n : Int) * 2 ^ n - m).natAbs : Nat) := by
  push_cast [Nat.cast_natAbs]
  rfl

theorem nearestEven_roundShift (m n : Nat) : NearestEven (m / 2 ^ n) (roundShift m n) := by
  rw [nearestEven_div (by positivity), roundShift_dist]
  exact_mod_cast roundShift_nearest m n

theorem nearestEven_mantissaAt (m : Nat) (k q : Int) : NearestEven (m * 2 ^ k / 2 ^ q) (mantissaAt m k q) := by
  unfold mantissaAt
  split <;> rename_i h
  · rw [two_zpow_split h, ← mul_assoc, mul_div_cancel_right₀ _ (two_zpow_pos q).ne', ← natCast_shiftLeft]
    exact nearestEven_self _
  · rw [two_zpow_split (not_le.1 h).le, mul_div_mul_right _ _ (two_zpow_pos k).ne']
    exact nearestEven_roundShift _ _

section
variable {y : ℚ} {n : Nat}

theorem NearestEven.le (h : NearestEven y n) {b : Nat} (hy : y ≤ b) : n ≤ b := by
  have h1 : (n : ℚ) - y ≤ |n - y| := le_abs_self _
  have h2 : (n : ℚ) < b + 1 := by linarith [h.1]
  exact Nat.lt_succ_iff.1 (by exact_mod_cast h2)

theorem NearestEven.ge (h : NearestEven y n) {b : Nat} (hy : b ≤ y) : b ≤ n := by
  have h1 : -((n : ℚ) - y) ≤ |n - y| := neg_le_abs _
  have h2 : (b : ℚ) < n + 1 := by linarith [h.1]
  exact Nat.lt_succ_iff.1 (by exact_mod_cast h2)

/-- Two different integers are at least 1 apart, so only one of them is nearer to `y` than one half. -/
theorem NearestEven.abs_sub_le_nat (h : NearestEven y n) (j : Nat) :
    |n - y| ≤ |j - y| ∧ (|n - y| = |j - y| → j = n ∨ n % 2 = 0) := by
  rcases eq_or_ne j n with rfl | hj
  · simp
  · have hint : (1 : ℚ) ≤ |(n : ℚ) - j| := by
      have h1 : (1 : ℤ) ≤ |(n : ℤ) - j| := Int.one_le_abs (sub_ne_zero.2 (by exact_mod_cast hj.symm))
      exact_mod_cast h1
    have htri : |(n : ℚ) - j| ≤ |n - y| + |j - y| := by
      rw [abs_sub_comm (j : ℚ) y]
      exact abs_sub_le _ _ _
    refine ⟨by linarith [h.1], fun e => .inr (h.2 ?_)⟩
    linarith [h.1]

end

/-! ### The pattern of a mantissa (R160, R169) -/

/-- The pattern that rounding answers for a mantissa `n` in units of `2^q`. -/
def packRounded (neg : Bool) (n : Nat) (q : Int) : DWord :=
  if (2047 <<< 52) ≤ bodyOf n q then infinity neg else pack neg (bodyOf n q)

theorem round_eq_packRounded (neg : Bool) {m : Nat} (hm : m ≠ 0) (k : Int) :
    round neg m k = packRounded neg (mantissaAt m k (lastPlace m k)) (lastPlace m k) := if_neg hm

theorem bodyOf_eq (n : Nat) (q : Int) : bodyOf n q = (q + 1074).toNat * 2 ^ 52 + n := by
  rw [bodyOf, Nat.shiftLeft_eq]

/-- Below the infinities, a mantissa of at most 53 bits at its place is what its pattern decodes to. -/
theorem valueOf_pack_bodyOf (neg : Bool) {n : Nat} {q : Int} (hn : n < 2 ^ 53) (hq : -1074 ≤ q) (hq' : q ≤ 971)
    (hp : q = -1074 ∨ 2 ^ 52 ≤ n) : valueOf (pack neg (bodyOf n q)) = .finite neg n q := by
  have hb : bodyOf n q < 2 ^ 63 := by rw [bodyOf_eq]; omega
  rw [valueOf, signField_pack, exponentField_pack _ _ hb, fractionField_pack, bodyOf_eq]
  rw [if_neg (by omega)]
  by_cases h : n < 2 ^ 52
  · rw [if_pos (by omega)]
    congr 1 <;> omega
  · rw [if_neg (by omega)]
    congr 1 <;> omega

/-- A mantissa that rounding has carried to 2^53 is that of the next exponent (`he`). -/
theorem packRounded_finite (neg : Bool) {n : Nat} {q : Int} (hn : n ≤ 2 ^ 53) (hq : -1074 ≤ q)
    (hp : q = -1074 ∨ 2 ^ 52 ≤ n) (hb : bodyOf n q < 2047 * 2 ^ 52) :
    packRounded neg n q = pack neg (bodyOf n q) ∧ IsFinite (pack neg (bodyOf n q)) ∧
      number (pack neg (bodyOf n q)) = scaled neg n q := by
  refine ⟨if_neg (by rw [Nat.shiftLeft_eq]; omega), ?_⟩
  have hb' := bodyOf_eq n q
  rcases hn.lt_or_eq with hn | rfl
  · have hv := valueOf_pack_bodyOf neg hn hq (by omega) hp
    exact ⟨(isFinite_of_valueOf _ _ _ _ hv).1, number_of_valueOf hv⟩
  · have he : bodyOf (2 ^ 53) q = bodyOf (2 ^ 52) (q + 1) := by rw [hb', bodyOf_eq]; omega
    have hv := valueOf_pack_bodyOf neg (n := 2 ^ 52) (q := q + 1) (by decide) (by omega) (by omega) (.inr le_rfl)
    rw [he]
    refine ⟨(isFinite_of_valueOf _ _ _ _ hv).1, (number_of_valueOf hv).trans ?_⟩
    rw [scaled, scaled, zpow_add_one₀ two_ne_zero]
    push_cast
    ring

/-! ### A magnitude at its last place -/

/-- The magnitude `y` has 53 significant bits above the place `2^q`, or fewer at the place of the subnormals, and `n` is
`y` in units of that place, rounded. -/
structure RoundsAt (y : ℚ) (q : Int) (n : Nat) : Prop where
  place : -1074 ≤ q
  nonneg : 0 ≤ y
  below : y < 2 ^ (q + 53)
  above : q = -1074 ∨ 2 ^ (q + 52) ≤ y
  nearest : NearestEven (y / 2 ^ q) n

theorem two_zpow_add_natCast (q : Int) (n : Nat) : (2 : ℚ) ^ (q + n) = ((2 ^ n : Nat) : ℚ) * 2 ^ q := by
  rw [zpow_add₀ two_ne_zero, zpow_natCast, mul_comm]
  push_cast
  rfl

/-- A finite number is a multiple of `2^q` or, where `q` is no subnormals' place, below the numbers that have 53
significant bits above `2^q`. -/
theorem abs_number_cases {e : DWord} (he : IsFinite e) (q : Int) :
    (∃ j : Nat, |number e| = j * 2 ^ q) ∨ q ≠ -1074 ∧ |number e| < 2 ^ (q + 52) := by
  obtain ⟨m, k, hv, hn⟩ := number_of_isFinite he
  obtain ⟨_, _, hm, hk, _, _⟩ := isFinite_of_valueOf _ _ _ _ hv
  rw [hn, abs_scaled]
  rcases le_or_gt q k with h | h
  · exact .inl ⟨m <<< (k - q).toNat, by rw [two_zpow_split h, natCast_shiftLeft, mul_assoc]⟩
  · refine .inr ⟨by omega, ?_⟩
    calc (m : ℚ) * 2 ^ k < ((2 ^ 53 : Nat) : ℚ) * 2 ^ k := by gcongr
      _ = 2 ^ (k + 53) := (two_zpow_add_natCast k 53).symm
      _ ≤ 2 ^ (q + 52) := zpow_le_zpow_right₀ one_le_two (by omega)

section
variable {y : ℚ} {q : Int} {n : Nat}

theorem RoundsAt.le (h : RoundsAt y q n) : n ≤ 2 ^ 53 := by
  refine h.nearest.le ((div_le_iff₀ (two_zpow_pos q)).2 ?_)
  rw [← two_zpow_add_natCast]
  exact h.below.le

theorem RoundsAt.ge (h : RoundsAt y q n) : q = -1074 ∨ 2 ^ 52 ≤ n := by
  refine h.above.imp_right fun ha => h.nearest.ge ((le_div_iff₀ (two_zpow_pos q)).2 ?_)
  rw [← two_zpow_add_natCast]
  exact ha

/-- In units of `2^q` the distances are those of the integers. -/
theorem RoundsAt.abs_sub_le (h : RoundsAt y q n) (j : Nat) :
    |y - n * 2 ^ q| ≤ |y - j * 2 ^ q| ∧ (|y - n * 2 ^ q| = |y - j * 2 ^ q| → j = n ∨ n % 2 = 0) := by
  have hu := two_zpow_pos q
  have e : ∀ i : Nat, |y - i * 2 ^ q| = |i - y / 2 ^ q| * 2 ^ q := fun i => by
    rw [abs_sub_comm, ← abs_of_pos hu, ← abs_mul, abs_of_pos hu, sub_mul, div_mul_cancel₀ _ hu.ne']
  rw [e, e, mul_le_mul_iff_left₀ hu, mul_left_inj' hu.ne']
  exact h.nearest.abs_sub_le_nat j

/-- No finite number's magnitude is nearer to `y` than `n` units, and `n` is even where another is as near. -/
theorem RoundsAt.abs_sub_le_abs_number (h : RoundsAt y q n) {e : DWord} (he : IsFinite e) :
    |y - n * 2 ^ q| ≤ |y - abs (number e)| ∧
      (|y - n * 2 ^ q| = |y - abs (number e)| → |number e| = n * 2 ^ q ∨ n % 2 = 0) := by
  rcases abs_number_cases he q with ⟨j, hj⟩ | ⟨hq, hlt⟩
  · rw [hj]
    exact (h.abs_sub_le j).imp_right fun ht e => (ht e).imp_left fun hjn => by rw [hjn]
  · have hge := h.above.resolve_left hq
    have hs : |y - n * 2 ^ q| < |y - abs (number e)| :=
      calc |y - n * 2 ^ q| ≤ |y - ((2 ^ 52 : Nat) : ℚ) * 2 ^ q| := (h.abs_sub_le _).1
        _ = y - 2 ^ (q + 52) := by
          rw [← two_zpow_add_natCast]
          exact abs_of_nonneg (sub_nonneg.2 hge)
        _ < y - |number e| := sub_lt_sub_left hlt y
        _ ≤ |y - abs (number e)| := le_abs_self _
    exact ⟨hs.le, fun e => absurd e hs.ne⟩

end

theorem even_fractionField_pack_bodyOf (neg : Bool) {n : Nat} (q : Int) (h : n % 2 = 0) :
    fractionField (pack neg (bodyOf n q)) % 2 = 0 := by
  rw [fractionField_pack, bodyOf_eq]
  omega

/-! ### Above the range (R162) -/

/-- Halfway between the greatest finite number and 2^1024, in units of the last place of the greatest one. -/
theorem overflow_eq : (2 : ℚ) ^ 1024 - 2 ^ 970 = (2 ^ 53 - 1 / 2) * 2 ^ (971 : ℤ) := by
  have h1 : (2 : ℚ) ^ 1024 = 2 ^ 54 * 2 ^ 970 := by rw [← pow_add]
  have h2 : (2 : ℚ) ^ (971 : ℤ) = 2 * 2 ^ 970 := by rw [zpow_ofNat, ← pow_succ']
  rw [h1, h2]
  generalize (2 : ℚ) ^ 970 = c
  ring

/-- It has the last place of the greatest finite number. -/
theorem overflow_mem : (2 : ℚ) ^ (971 + 52 : ℤ) ≤ 2 ^ 1024 - 2 ^ 970 ∧ (2 : ℚ) ^ 1024 - 2 ^ 970 ≤ 2 ^ (971 + 53 : ℤ) := by
  have hu := (two_zpow_pos 971).le
  rw [overflow_eq, add_comm, zpow_add₀ two_ne_zero, add_comm, zpow_add₀ two_ne_zero]
  exact ⟨mul_le_mul_of_nonneg_right (by norm_num) hu, mul_le_mul_of_nonneg_right (by norm_num) hu⟩

section
variable {y : ℚ} {q : Int} {n : Nat}

/-- At the last place of the greatest finite number, the mantissa tells on which side of the halfway point `y` is. -/
theorem NearestEven.lt_iff (h : NearestEven y n) : n < 2 ^ 53 ↔ y < 2 ^ 53 - 1 / 2 := by
  have hle : (n : ℚ) - y ≤ |n - y| := le_abs_self _
  have hge : -((n : ℚ) - y) ≤ |n - y| := neg_le_abs _
  have hcast : n < 2 ^ 53 ↔ (n : ℚ) < 2 ^ 53 := by norm_cast
  refine ⟨fun hn => ?_, fun hy => hcast.2 (by linarith [h.1])⟩
  have hn' : (n : ℚ) + 1 ≤ 2 ^ 53 := by exact_mod_cast hn
  by_contra hy
  have heven : n % 2 = 0 := h.2 (by linarith [h.1])
  have hmax : 2 ^ 53 ≤ n + 1 := by
    have : (2 ^ 53 : ℚ) ≤ n + 1 := by linarith [h.1]
    exact_mod_cast this
  omega

/-- The pattern is an infinity exactly from the halfway point on. -/
theorem RoundsAt.lt_iff (h : RoundsAt y q n) : bodyOf n q < 2047 * 2 ^ 52 ↔ y < 2 ^ 1024 - 2 ^ 970 := by
  have hn := h.le
  have hn' := h.ge
  have hb := bodyOf_eq n q
  have hplace := h.place
  rcases lt_trichotomy q 971 with hq | rfl | hq
  · refine iff_of_true (by omega) (h.below.trans_le (le_trans ?_ overflow_mem.1))
    exact zpow_le_zpow_right₀ one_le_two (by omega)
  · have hbody : bodyOf n 971 < 2047 * 2 ^ 52 ↔ n < 2 ^ 53 := by omega
    rw [hbody, h.nearest.lt_iff, div_lt_iff₀ (two_zpow_pos 971), overflow_eq]
  · refine iff_of_false (by omega) (not_lt.2 (overflow_mem.2.trans (le_trans ?_ (h.above.resolve_left (by omega)))))
    exact zpow_le_zpow_right₀ one_le_two (by omega)

/-- The sum of a magnitude and its rounding is their distance only if both are 0. -/
theorem RoundsAt.eq_zero_of_add_eq (h : RoundsAt y q n) (e : y + n * 2 ^ q = |y - n * 2 ^ q|) : n = 0 := by
  have hu := two_zpow_pos q
  rcases abs_choice (y - n * 2 ^ q) with hc | hc
  · have hz : (n : ℚ) * 2 ^ q = 0 := by linarith
    exact_mod_cast (mul_eq_zero.1 hz).resolve_right hu.ne'
  · have hz : y = 0 := by linarith
    exact Nat.le_zero.1 (h.nearest.le (by simp [hz]))

/-- Below the infinities, a magnitude rounded at its last place, with a sign, is rounded to the nearest number. -/
theorem RoundsAt.nearest_number (h : RoundsAt y q n) (neg : Bool) {e : DWord} (he : IsFinite e) :
    |sign neg * y - scaled neg n q| ≤ |sign neg * y - number e| ∧
      (number e ≠ scaled neg n q → |sign neg * y - number e| = |sign neg * y - scaled neg n q| → n % 2 = 0) := by
  have habs : ∀ x : ℚ, |sign neg * x| = |x| := fun x => by rw [abs_mul, abs_sign, one_mul]
  have hdist : |sign neg * y - scaled neg n q| = |y - n * 2 ^ q| := by rw [scaled, mul_assoc, ← mul_sub, habs]
  have hnear : |y - abs (number e)| ≤ |sign neg * y - number e| := by
    have hle := abs_abs_sub_abs_le (sign neg * y) (number e)
    rwa [habs, abs_of_nonneg h.nonneg] at hle
  obtain ⟨hmin, heven⟩ := h.abs_sub_le_abs_number he
  rw [hdist]
  refine ⟨hmin.trans hnear, fun hne htie => ?_⟩
  rcases heven (hmin.antisymm (htie ▸ hnear)) with heq | heven
  · have hopp : number e = -scaled neg n q := (abs_eq_abs.1 (heq.trans (abs_scaled neg n q).symm)).resolve_left hne
    have hsum : |sign neg * y - number e| = y + n * 2 ^ q := by
      rw [hopp, sub_neg_eq_add, scaled, mul_assoc, ← mul_add, habs]
      exact abs_of_nonneg (add_nonneg h.nonneg (by positivity))
    rw [h.eq_zero_of_add_eq (hsum.symm.trans htie)]
  · exact heven

/-- A magnitude rounded at its last place, with a sign, is rounded to the nearest pattern, or to an infinity. -/
theorem RoundsAt.roundsTo (h : RoundsAt y q n) (neg : Bool) : RoundsTo neg (sign neg * y) (packRounded neg n q) := by
  have hx : |sign neg * y| = y := by rw [abs_mul, abs_sign, one_mul, abs_of_nonneg h.nonneg]
  rw [RoundsTo, hx]
  by_cases hb : bodyOf n q < 2047 * 2 ^ 52
  · obtain ⟨hd, hfin, hnum⟩ := packRounded_finite neg h.le h.place h.ge hb
    rw [hd, if_pos (h.lt_iff.1 hb), hnum]
    exact ⟨signField_pack _ _, hfin, fun e he => (h.nearest_number neg he).1, fun e he hne htie =>
      even_fractionField_pack_bodyOf neg q ((h.nearest_number neg he).2 hne htie)⟩
  · have hd : packRounded neg n q = infinity neg := if_pos (by rw [Nat.shiftLeft_eq]; omega)
    rw [hd, if_neg (mt h.lt_iff.2 hb)]
    exact ⟨signField_pack _ _, infinity_eq neg⟩

end

/-! ### Rounding an integer that stands for a magnitude (R162) -/

/-- The integer `m` stands for the magnitude `z` in rounding: it is `z`, or it is an odd integer of at least 55 bits less
than 1 away, whose last bit says that `z` is no even integer. -/
def StandsFor (m : Nat) (z : ℚ) : Prop := z = m ∨ m % 2 = 1 ∧ 2 ^ 54 ≤ m ∧ |z - m| < 1

section
variable {m : Nat} {z : ℚ}

theorem StandsFor.nonneg (h : StandsFor m z) : 0 ≤ z := by
  rcases h with rfl | ⟨_, hm, hz⟩
  · positivity
  · have hm' : (2 : ℚ) ^ 54 ≤ m := by exact_mod_cast hm
    linarith [(abs_lt.1 hz).1]

theorem StandsFor.lt_two_pow (h : StandsFor m z) {a : Nat} (hm : m < 2 ^ a) : z < ((2 ^ a : Nat) : ℚ) := by
  rcases h with rfl | ⟨_, _, hz⟩
  · exact_mod_cast hm
  · have hm' : (m : ℚ) + 1 ≤ ((2 ^ a : Nat) : ℚ) := by exact_mod_cast hm
    linarith [(abs_lt.1 hz).2]

theorem StandsFor.two_pow_le (h : StandsFor m z) {a : Nat} (hm : 2 ^ a ≤ m) : ((2 ^ a : Nat) : ℚ) ≤ z := by
  rcases h with rfl | ⟨hodd, hbig, hz⟩
  · exact_mod_cast hm
  · have hlt : 2 ^ a + 1 ≤ m := by
      cases a with
      | zero => omega
      | succ a => rw [pow_succ] at hm ⊢; omega
    have hm' : ((2 ^ a : Nat) : ℚ) + 1 ≤ m := by exact_mod_cast hlt
    linarith [(abs_lt.1 hz).1]

/-- An odd integer with two bits or more to drop is not halfway between two multiples, and not next to halfway. -/
theorem roundShift_nearest_of_odd (hodd : m % 2 = 1) {n : Nat} (hn : 2 ≤ n) :
    2 * ((roundShift m n : Int) * 2 ^ n - m).natAbs + 2 ≤ 2 ^ n := by
  obtain ⟨hle, _⟩ := roundShift_nearest m n
  have h4 : 4 ∣ 2 ^ n := pow_dvd_pow 2 hn
  have h2 : (2 : Int) ∣ roundShift m n * 2 ^ n := dvd_mul_of_dvd_right (dvd_pow_self 2 (by omega)) _
  omega

theorem nearestEven_roundShift_of_odd (hodd : m % 2 = 1) (hz : |z - m| < 1) {n : Nat} (hn : 2 ≤ n) :
    NearestEven (z / 2 ^ n) (roundShift m n) := by
  have hfar : 2 * |(roundShift m n : ℚ) * 2 ^ n - m| + 2 ≤ 2 ^ n := by
    rw [roundShift_dist]
    exact_mod_cast roundShift_nearest_of_odd hodd hn
  have htri := abs_sub_le ((roundShift m n : ℚ) * 2 ^ n) m z
  rw [abs_sub_comm (m : ℚ) z] at htri
  rw [nearestEven_div (by positivity)]
  exact ⟨by linarith, fun e => by linarith⟩

/-- The significant bits of the integer are those of the magnitude it stands for, and so is the last place. -/
theorem StandsFor.roundsAt (h : StandsFor m z) (hm : m ≠ 0) (k : Int) :
    RoundsAt (z * 2 ^ k) (lastPlace m k) (mantissaAt m k (lastPlace m k)) where
  place := le_max_right _ _
  nonneg := mul_nonneg h.nonneg (two_zpow_pos k).le
  below :=
    calc z * 2 ^ k < ((2 ^ (m.log2 + 1) : Nat) : ℚ) * 2 ^ k :=
          mul_lt_mul_of_pos_right (h.lt_two_pow Nat.lt_log2_self) (two_zpow_pos k)
      _ = 2 ^ (k + (m.log2 + 1 : Nat)) := (two_zpow_add_natCast k _).symm
      _ ≤ 2 ^ (lastPlace m k + 53) := zpow_le_zpow_right₀ one_le_two (by rw [lastPlace]; omega)
  above := by
    refine (max_choice (k + (m.log2 : Int) - 52) (-1074)).symm.imp_right fun hq => ?_
    calc (2 : ℚ) ^ (lastPlace m k + 52) = 2 ^ (k + (m.log2 : Int)) := by rw [lastPlace, hq, sub_add_cancel]
      _ = ((2 ^ m.log2 : Nat) : ℚ) * 2 ^ k := two_zpow_add_natCast k _
      _ ≤ z * 2 ^ k := mul_le_mul_of_nonneg_right (h.two_pow_le (Nat.log2_self_le hm)) (two_zpow_pos k).le
  nearest := by
    rcases h with rfl | ⟨hodd, hbig, hz⟩
    · exact nearestEven_mantissaAt m k _
    · have hlog : 54 ≤ m.log2 := (Nat.le_log2 hm).2 hbig
      have hq : k + 2 ≤ lastPlace m k := by rw [lastPlace]; omega
      have hpow : (2 : ℚ) ^ lastPlace m k = 2 ^ (lastPlace m k - k).toNat * 2 ^ k := two_zpow_split (by omega)
      rw [hpow, mul_div_mul_right _ _ (two_zpow_pos k).ne', mantissaAt, if_neg (by omega)]
      exact nearestEven_roundShift_of_odd hodd hz (by omega)

theorem roundsTo_zero (neg : Bool) : RoundsTo neg 0 (zero neg) := by
  have h : RoundsAt 0 (-1074) 0 :=
    ⟨le_rfl, le_rfl, two_zpow_pos _, .inl rfl, by simpa using nearestEven_self 0⟩
  simpa [packRounded, bodyOf, zero] using h.roundsTo neg

/-- Rounding answers the nearest pattern to every magnitude that the integer it is given stands for. -/
theorem StandsFor.roundsTo (h : StandsFor m z) (neg : Bool) (k : Int) :
    RoundsTo neg (sign neg * (z * 2 ^ k)) (round neg m k) := by
  rcases eq_or_ne m 0 with rfl | hm
  · have hz : z = 0 := by
      rcases h with h | ⟨hodd, _⟩
      · exact_mod_cast h
      · cases hodd
    simpa [hz, round] using roundsTo_zero neg
  · rw [round_eq_packRounded neg hm]
    exact (h.roundsAt hm k).roundsTo neg

end

theorem round_roundsTo (neg : Bool) (m : Nat) (k : Int) : RoundsTo neg (scaled neg m k) (round neg m k) := by
  rw [scaled, mul_assoc]
  exact StandsFor.roundsTo (.inl rfl) neg k

/-! ### Rounding a number of the format (R160) -/

/-- A value the decoder can answer has its own exponent for its last place. -/
theorem lastPlace_of_valueOf {d : DWord} {neg : Bool} {m : Nat} {k : Int} (hm : m ≠ 0)
    (h : valueOf d = .finite neg m k) : lastPlace m k = k := by
  obtain ⟨_, _, hlt, hk, _, hp⟩ := isFinite_of_valueOf _ _ _ _ h
  have hlog : m.log2 < 53 := (Nat.log2_lt hm).2 hlt
  have hlog' : k = -1074 ∨ 52 ≤ m.log2 := hp.imp_right (Nat.le_log2 hm).2
  rw [lastPlace]
  omega

/-- Packing the significand of a decoded value at its exponent gives the pattern back. -/
theorem eq_pack_of_valueOf {d : DWord} {neg : Bool} {m : Nat} {k : Int} (h : valueOf d = .finite neg m k) :
    bodyOf m k < 2047 * 2 ^ 52 ∧ d = pack neg (bodyOf m k) := by
  have hd := pack_fields d
  have he := exponentField_lt d
  have hf := fractionField_lt d
  rw [bodyOf_eq]
  unfold valueOf at h
  split at h
  · split at h <;> cases h
  · split at h <;> cases h
    · exact ⟨by omega, hd.symm.trans (congrArg (pack _) (by omega))⟩
    · exact ⟨by omega, hd.symm.trans (congrArg (pack _) (by omega))⟩

theorem round_of_valueOf {d : DWord} {neg : Bool} {m : Nat} {k : Int} (h : valueOf d = .finite neg m k) :
    round neg m k = d := by
  obtain ⟨hb, hd⟩ := eq_pack_of_valueOf h
  rcases eq_or_ne m 0 with rfl | hm
  · have hk : k = -1074 := by
      obtain ⟨_, _, _, _, _, hp⟩ := isFinite_of_valueOf _ _ _ _ h
      omega
    rw [hd, hk]
    rfl
  · have hmant : mantissaAt m k k = m := by simp [mantissaAt]
    rw [round_eq_packRounded neg hm, lastPlace_of_valueOf hm h, hmant, hd]
    exact if_neg (by rw [Nat.shiftLeft_eq]; omega)

end Sys2Proof.Machine.Ieee
end

section
/-! PROOFS. The operations on values (43_floating_point.md R163 to R166, R169; 45_compare_and_jumps.md R203): the integer that
each of them rounds stands for the exact result, and comparison is the order of the numbers. -/

namespace Sys2Proof.Machine.Ieee

/-! ### Sums (R163, R164) -/

theorem intCast_eq_sign_mul (x : Int) : (x : ℚ) = sign (decide (x < 0)) * (x.natAbs : Nat) := by
  have h : x = signed (decide (x < 0)) x.natAbs := by
    simp only [signed, decide_eq_true_eq]
    split <;> omega
  rw [← signed_cast, ← h]

theorem round_natAbs_roundsTo (x k : Int) :
    RoundsTo (decide (x < 0)) (x * 2 ^ k) (round (decide (x < 0)) x.natAbs k) := by
  rw [intCast_eq_sign_mul]
  exact round_roundsTo _ _ _

theorem addFinite_roundsTo (n₁ : Bool) (m₁ : Nat) (k₁ : Int) (n₂ : Bool) (m₂ : Nat) (k₂ : Int) :
    RoundsTo (if scaled n₁ m₁ k₁ + scaled n₂ m₂ k₂ = 0 then n₁ && n₂ else decide (scaled n₁ m₁ k₁ + scaled n₂ m₂ k₂ < 0))
      (scaled n₁ m₁ k₁ + scaled n₂ m₂ k₂) (addFinite n₁ m₁ k₁ n₂ m₂ k₂) := by
  have hu := two_zpow_pos (min k₁ k₂)
  rw [scaled_eq_signed_mul n₁ m₁ (min_le_left k₁ k₂), scaled_eq_signed_mul n₂ m₂ (min_le_right k₁ k₂), ← add_mul,
    ← Int.cast_add, addFinite]
  generalize signed n₁ (m₁ <<< (k₁ - min k₁ k₂).toNat) + signed n₂ (m₂ <<< (k₂ - min k₁ k₂).toNat) = x
  by_cases hx : x = 0
  · simpa [hx] using roundsTo_zero (n₁ && n₂)
  · have hzero : (x : ℚ) * 2 ^ min k₁ k₂ ≠ 0 := mul_ne_zero (Int.cast_ne_zero.2 hx) hu.ne'
    have hneg : (x : ℚ) * 2 ^ min k₁ k₂ < 0 ↔ x < 0 := by
      rw [← Int.cast_lt_zero (R := ℚ), ← mul_lt_mul_iff_left₀ (b := (x : ℚ)) hu, zero_mul]
    simp only [if_neg hx, if_neg hzero, hneg]
    exact round_natAbs_roundsTo x _

/-! ### Quotients (R166) -/

/-- An integer quotient with its sticky bit stands for the exact quotient, if it is large where it is not exact. -/
theorem standsFor_div {a b : Nat} (hb : b ≠ 0) (hbig : a % b ≠ 0 → 2 ^ 53 ≤ a / b) :
    StandsFor (2 * (a / b) + if a % b = 0 then 0 else 1) (2 * (a : ℚ) / b) := by
  have hpos : (0 : ℚ) < b := by exact_mod_cast Nat.pos_of_ne_zero hb
  have hdiv : (a : ℚ) = b * (a / b : Nat) + (a % b : Nat) := by exact_mod_cast (Nat.div_add_mod a b).symm
  have hq : 2 * (a : ℚ) / b = 2 * (a / b : Nat) + 2 * (a % b : Nat) / b := by
    rw [hdiv]
    field_simp
  by_cases hr : a % b = 0
  · exact .inl (by simp [hq, hr])
  · have hlt : ((a % b : Nat) : ℚ) < b := by exact_mod_cast Nat.mod_lt a (Nat.pos_of_ne_zero hb)
    have h0 : 0 < 2 * ((a % b : Nat) : ℚ) / b := by
      have hr' : (0 : ℚ) < (a % b : Nat) := by exact_mod_cast Nat.pos_of_ne_zero hr
      positivity
    have h2 : 2 * ((a % b : Nat) : ℚ) / b < 2 := (div_lt_iff₀ hpos).2 (by linarith)
    have hfloor := hbig hr
    rw [if_neg hr, hq]
    refine .inr ⟨by omega, by omega, ?_⟩
    push_cast
    exact abs_lt.2 ⟨by linarith, by linarith⟩

theorem standsFor_quotient (m₁ : Nat) {m₂ : Nat} (h₂ : m₂ ≠ 0) (hlt : m₂ < 2 ^ 53) :
    StandsFor (2 * ((m₁ <<< quotientBits) / m₂) + if (m₁ <<< quotientBits) % m₂ = 0 then 0 else 1)
      (2 * ((m₁ <<< quotientBits : Nat) : ℚ) / m₂) := by
  refine standsFor_div h₂ fun hr => (Nat.le_div_iff_mul_le (Nat.pos_of_ne_zero h₂)).2 ?_
  have h₁ : m₁ ≠ 0 := fun h => hr (by simp [h])
  calc 2 ^ 53 * m₂ ≤ 2 ^ quotientBits := by rw [quotientBits]; omega
    _ ≤ m₁ <<< quotientBits := by
      rw [Nat.shiftLeft_eq]
      exact Nat.le_mul_of_pos_left _ (Nat.pos_of_ne_zero h₁)

theorem divFinite_roundsTo (n₁ n₂ : Bool) (m₁ : Nat) (k₁ : Int) {m₂ : Nat} (h₂ : m₂ ≠ 0) (hlt : m₂ < 2 ^ 53)
    (k₂ : Int) :
    RoundsTo (n₁ ^^ n₂) (scaled n₁ m₁ k₁ / scaled n₂ m₂ k₂) (divFinite (n₁ ^^ n₂) m₁ k₁ m₂ k₂) := by
  have hne : (m₂ : ℚ) ≠ 0 := Nat.cast_ne_zero.2 h₂
  have h2 : (2 : ℚ) ^ k₁ / 2 ^ k₂ = 2 * 2 ^ quotientBits * 2 ^ (k₁ - k₂ - (quotientBits : Int) - 1) := by
    rw [← zpow_sub₀ two_ne_zero, ← zpow_natCast, ← zpow_one_add₀ two_ne_zero, ← zpow_add₀ two_ne_zero]
    congr 1
    ring
  have hsign : sign n₁ / sign n₂ = sign (n₁ ^^ n₂) := by cases n₁ <;> cases n₂ <;> simp [sign]
  have he : scaled n₁ m₁ k₁ / scaled n₂ m₂ k₂ = sign (n₁ ^^ n₂) * (2 * ((m₁ <<< quotientBits : Nat) : ℚ) / m₂ *
      2 ^ (k₁ - k₂ - (quotientBits : Int) - 1)) := by
    rw [scaled, scaled, mul_div_mul_comm, mul_div_mul_comm, hsign, h2, natCast_shiftLeft]
    ring
  rw [he]
  exact (standsFor_quotient m₁ h₂ hlt).roundsTo _ _

/-! ### Order (R203) -/

theorem compareFinite_eq (n₁ : Bool) (m₁ : Nat) (k₁ : Int) (n₂ : Bool) (m₂ : Nat) (k₂ : Int) :
    (compareFinite n₁ m₁ k₁ n₂ m₂ k₂ = .equal ↔ scaled n₁ m₁ k₁ = scaled n₂ m₂ k₂) ∧
    (compareFinite n₁ m₁ k₁ n₂ m₂ k₂ = .greater ↔ scaled n₂ m₂ k₂ < scaled n₁ m₁ k₁) ∧
    (compareFinite n₁ m₁ k₁ n₂ m₂ k₂ = .less ↔ scaled n₁ m₁ k₁ < scaled n₂ m₂ k₂) := by
  have hu := two_zpow_pos (min k₁ k₂)
  rw [scaled_eq_signed_mul n₁ m₁ (min_le_left k₁ k₂), scaled_eq_signed_mul n₂ m₂ (min_le_right k₁ k₂), mul_left_inj' hu.ne',
    mul_lt_mul_iff_left₀ hu, mul_lt_mul_iff_left₀ hu, Int.cast_inj, Int.cast_lt, Int.cast_lt]
  exact ⟨compareInt_equal, compareInt_greater, compareInt_less⟩

theorem compareInt_swap (a b : Int) :
    (compareInt a b = .less ↔ compareInt b a = .greater) ∧ (compareInt a b = .equal ↔ compareInt b a = .equal) ∧
    compareInt a b ≠ .unordered := by
  rw [compareInt_less, compareInt_greater, compareInt_equal, compareInt_equal, eq_comm (a := a)]
  refine ⟨Iff.rfl, Iff.rfl, ?_⟩
  unfold compareInt
  split
  · decide
  · split <;> decide

/-- A comparison the other way round has the opposite outcome, and only a NaN makes it unordered. -/
theorem compareValue_swap (v w : Value) :
    (compareValue v w = .less ↔ compareValue w v = .greater) ∧
    (compareValue v w = .equal ↔ compareValue w v = .equal) ∧
    (compareValue v w = .unordered ↔ v = .nan ∨ w = .nan) := by
  cases v with
  | nan => cases w <;> simp [compareValue]
  | inf n₁ =>
    cases w with
    | nan => simp [compareValue]
    | inf n₂ => revert n₁ n₂; decide
    | finite => cases n₁ <;> simp [compareValue]
  | finite n₁ m₁ k₁ =>
    cases w with
    | nan => simp [compareValue]
    | inf n₂ => cases n₂ <;> simp [compareValue]
    | finite n₂ m₂ k₂ =>
      simp only [compareValue, compareFinite, min_comm k₂ k₁, reduceCtorEq, or_self, iff_false]
      exact compareInt_swap _ _

/-! ### Order of the operands (R163, R165) -/

theorem addFinite_comm (n₁ : Bool) (m₁ : Nat) (k₁ : Int) (n₂ : Bool) (m₂ : Nat) (k₂ : Int) :
    addFinite n₁ m₁ k₁ n₂ m₂ k₂ = addFinite n₂ m₂ k₂ n₁ m₁ k₁ := by
  simp only [addFinite, min_comm k₂ k₁, Bool.and_comm n₂ n₁, add_comm (signed n₂ _)]

theorem addValue_comm (v w : Value) : addValue v w = addValue w v := by
  cases v with
  | nan => cases w <;> rfl
  | inf n₁ =>
    cases w with
    | inf n₂ => revert n₁ n₂; decide
    | nan | finite => rfl
  | finite n₁ m₁ k₁ =>
    cases w with
    | nan | inf => rfl
    | finite n₂ m₂ k₂ => exact congrArg _ (addFinite_comm ..)

theorem mulValue_comm (v w : Value) : mulValue v w = mulValue w v := by
  cases v with
  | nan => cases w <;> rfl
  | inf n₁ => cases w <;> simp [mulValue, Bool.xor_comm n₁]
  | finite n₁ m₁ k₁ => cases w <;> simp [mulValue, Bool.xor_comm n₁, Nat.mul_comm m₁, Int.add_comm k₁]

end Sys2Proof.Machine.Ieee
end

section
/-! PROOFS. The floating-point commands (43_floating_point.md R161 to R169; 45_compare_and_jumps.md R203): the special
values, the conversions, how each command ends, and the statements. -/

namespace Sys2Proof.Machine

/-! ### The special values (R169) -/

namespace Ieee

/-- A NaN operand decides every operation. -/
theorem ops_nan {v w : Value} (h : v = .nan ∨ w = .nan) :
    addValue v w = .nan ∧ addValue v w.neg = .nan ∧ mulValue v w = .nan ∧ divValue v w = .nan ∧
      compareValue v w = .unordered := by
  rcases h with rfl | rfl
  · exact ⟨rfl, rfl, rfl, rfl, rfl⟩
  · cases v <;> exact ⟨rfl, rfl, rfl, rfl, rfl⟩

theorem addFinite_neg_self (neg : Bool) (m : Nat) (k : Int) : addFinite neg m k (!neg) m k = zero false := by
  have h : ∀ x : Nat, signed neg x + signed (!neg) x = 0 := fun x => by cases neg <;> simp [signed]
  simp [addFinite, h]

theorem compareFinite_zero (n₁ n₂ : Bool) (k₁ k₂ : Int) : compareFinite n₁ 0 k₁ n₂ 0 k₂ = .equal := by
  obtain ⟨hequal, _⟩ := compareFinite_eq n₁ 0 k₁ n₂ 0 k₂
  exact hequal.2 (by simp [scaled])

/-- Only the two zeros have the significand 0. -/
theorem eq_zeroBits_of_valueOf {d : DWord} {neg : Bool} {k : Int} (h : valueOf d = .finite neg 0 k) :
    d = zeroBits neg := by
  rw [← zero_eq, ← round_of_valueOf h]
  rfl

/-- The value of a finite pattern that is not a zero. -/
theorem valueOf_of_ne_zeroBits {d : DWord} (h : IsFinite d) (hp : d ≠ zeroBits false) (hn : d ≠ zeroBits true) :
    ∃ m k, m ≠ 0 ∧ valueOf d = .finite (signField d) m k := by
  obtain ⟨m, k, hv⟩ := valueOf_of_isFinite d h
  refine ⟨m, k, fun hm => ?_, hv⟩
  have hz := eq_zeroBits_of_valueOf (hm ▸ hv)
  cases hs : signField d with
  | false => exact hp (hs ▸ hz)
  | true => exact hn (hs ▸ hz)

/-! ### Integers of at most 53 bits (R167) -/

/-- The last place of such an integer is not above 1, so rounding drops nothing. -/
theorem number_round_of_lt (neg : Bool) {m : Nat} (h : m < 2 ^ 53) :
    IsFinite (round neg m 0) ∧ number (round neg m 0) = sign neg * m := by
  rcases eq_or_ne m 0 with rfl | hm
  · have hv : valueOf (round neg 0 0) = .finite neg 0 (-1074) :=
      (congrArg valueOf (zero_eq neg)).trans (valueOf_zeroBits neg)
    rw [number_of_valueOf hv]
    exact ⟨(isFinite_of_valueOf _ _ _ _ hv).1, by simp [scaled]⟩
  · have hr := StandsFor.roundsAt (.inl rfl) hm 0
    have hq : lastPlace m 0 ≤ 0 := by
      have hlog : m.log2 < 53 := (Nat.log2_lt hm).2 h
      rw [lastPlace]
      omega
    have hb : bodyOf (mantissaAt m 0 (lastPlace m 0)) (lastPlace m 0) < 2047 * 2 ^ 52 := by
      have hle := hr.le
      rw [bodyOf_eq]
      omega
    obtain ⟨hd, hfin, hnum⟩ := packRounded_finite neg hr.le hr.place hr.ge hb
    rw [round_eq_packRounded neg hm, hd, hnum, mantissaAt, if_pos hq, scaled, natCast_shiftLeft, mul_assoc, mul_assoc,
      ← two_zpow_split hq, zpow_zero, mul_one]
    exact ⟨by simpa only [mantissaAt, if_pos hq] using hfin, rfl⟩

theorem floor_fromInt {k : Int} (h0 : 0 ≤ k) (h : k < 2 ^ 53) : floor (fromInt k) = some k := by
  obtain ⟨hfin, hnum⟩ := number_round_of_lt (decide (k < 0)) (m := k.natAbs) (by omega)
  rw [← intCast_eq_sign_mul] at hnum
  exact floor_eq_some.2 ⟨hfin, hnum.ge, hnum ▸ lt_add_one _⟩

end Ieee

/-! ### Commands on two pairs (R23, R161) -/

/-- A command of format RR that checks a pair in both fields refuses the numbers that name none. -/
theorem refusesPairPair_of_exec {mk : RegNo → RegNo → Imm16 → Instr} {k : State → Imm16 → PairReg → PairReg → Result}
    (h : ∀ rd rs imm s, exec (mk rd rs imm) s = withPair rd fun p => withPair rs fun q => k s imm p q) :
    RefusesPairPair mk := by
  rintro rd rs imm s (rfl | rfl | rfl | rfl) <;> rw [h]
  · rfl
  · rfl
  · exact withPair_eq_refuse fun _ => rfl
  · exact withPair_eq_refuse fun _ => rfl

/-- The commands made by `mk` leave `op` of the receiver pair and the source pair in the receiver pair. -/
def AppliesFp (mk : RegNo → RegNo → Imm16 → Instr) (op : DWord → DWord → FpResult) : Prop :=
  ∀ rd rs imm s, exec (mk rd rs imm) s =
    withPair rd fun p => withPair rs fun q => s.finishFp p (op (s.pair p) (s.fpSource q imm))

section
variable {mk : RegNo → RegNo → Imm16 → Instr} {op : DWord → DWord → FpResult}

theorem withPair_withPair_pairNo (p q : PairReg) (k : PairReg → PairReg → Result) :
    (withPair (pairNo p) fun p => withPair (pairNo q) fun q => k p q) = k p q := by simp

theorem AppliesFp.refuses (h : AppliesFp mk op) : RefusesPairPair mk := refusesPairPair_of_exec h

theorem AppliesFp.givesFp (h : AppliesFp mk op) (p q : PairReg) (imm : Imm16) (s : State) :
    GivesFp (mk (pairNo p) (pairNo q) imm) s p (op (s.pair p) (modifiedPair s q imm)) := by
  refine givesFp_of_finishFp ((h ..).trans ?_)
  rw [← State.fpSource_eq]
  exact withPair_withPair_pairNo ..

end

theorem appliesFp_addd : AppliesFp .addd fp.add := fun _ _ _ _ => rfl
theorem appliesFp_subd : AppliesFp .subd fp.sub := fun _ _ _ _ => rfl
theorem appliesFp_muld : AppliesFp .muld fp.mul := fun _ _ _ _ => rfl
theorem appliesFp_divd : AppliesFp .divd fp.div := fun _ _ _ _ => rfl

section
variable (d r : Reg) (p q : PairReg) (s : State) (imm : Imm16)

theorem exec_itod :
    exec (.itod (pairNo p) (regNo r) imm) s = s.finishPair p (fp.fromInt (U (modified s r imm))) := by
  rw [← State.srcval_eq]
  exact withPair_withReg_regNo ..

theorem exec_dtoi :
    exec (.dtoi (regNo d) (pairNo q) imm) s = s.finishFloor d (fp.floor (modifiedPair s q imm)) := by
  rw [← State.fpSource_eq]
  exact (withReg_regNo ..).trans (withPair_pairNo ..)

theorem exec_cmpd :
    exec (.cmpd (pairNo p) (pairNo q) imm) s = s.finishCompare (fp.compare (s.pair p) (modifiedPair s q imm)) := by
  rw [← State.fpSource_eq]
  exact withPair_withPair_pairNo ..

theorem modifiedPair_zero : modifiedPair s p 0 = s.pair p := by simp [modifiedPair, modified, State.pair]

end

/-- `dtoi` checks its receiver register and then its source pair. -/
theorem dtoi_refuses (rd rs : RegNo) (imm : Imm16) (s : State) (h : rd = 15 ∨ rs = 14 ∨ rs = 15) :
    exec (.dtoi rd rs imm) s = refuse .reg15 := by
  rcases h with rfl | rfl | rfl
  · rfl
  · exact withReg_eq_refuse fun _ => rfl
  · exact withReg_eq_refuse fun _ => rfl

/-! ### The statements -/

/-- Settles O31: the four meanings check both pairs and end in `finishFp`. -/
theorem floatingPointArithmetic : Obligations.FloatingPointArithmetic :=
  ⟨encodedRR_of_encode fun _ _ _ => rfl, appliesFp_addd.refuses, appliesFp_addd.givesFp,
    encodedRR_of_encode fun _ _ _ => rfl, appliesFp_subd.refuses, appliesFp_subd.givesFp,
    encodedRR_of_encode fun _ _ _ => rfl, appliesFp_muld.refuses, appliesFp_muld.givesFp,
    encodedRR_of_encode fun _ _ _ => rfl, appliesFp_divd.refuses, appliesFp_divd.givesFp⟩

/-- Settles O32: the clauses are the cases of the operations on values. -/
theorem floatingPointSpecialValues : Obligations.FloatingPointSpecialValues := by
  refine ⟨fun a b h => ?nan, fun m n => ?special, fun a n ha => ?finite, fun a n ha hp hn => ?nonzero⟩
  case nan =>
    rw [← Ieee.valueOf_eq_nan, ← Ieee.valueOf_eq_nan] at h
    exact Ieee.ops_nan h
  case special =>
    cases m <;> cases n <;>
      simp [fp, Ieee.add, Ieee.sub, Ieee.mul, Ieee.div, Ieee.compare, Ieee.Value.neg, Ieee.addValue, Ieee.mulValue,
        Ieee.divValue, Ieee.compareValue, Ieee.infinity_eq, Ieee.compareFinite_zero]
  case finite =>
    obtain ⟨m, k, hv⟩ := Ieee.valueOf_of_isFinite a ha
    simp [fp, Ieee.add, Ieee.sub, Ieee.div, hv, Ieee.Value.neg, Ieee.addValue, Ieee.divValue, Ieee.infinity_eq,
      Ieee.zero_eq, Ieee.addFinite_neg_self, Bool.xor_comm n]
  case nonzero =>
    obtain ⟨m, k, hm, hv⟩ := Ieee.valueOf_of_ne_zeroBits ha hp hn
    simp [fp, Ieee.mul, Ieee.div, hv, hm, Ieee.mulValue, Ieee.divValue, Ieee.infinity_eq, Bool.xor_comm n]

/-- Settles O33: the mantissa is nearest among integers at its last place, which makes the pattern nearest. -/
theorem roundingIsToNearestEven : Obligations.RoundingIsToNearestEven :=
  ⟨Ieee.roundShift_nearest, Ieee.round_roundsTo⟩

/-- Settles O34: a number of the format is exact at its own last place. -/
theorem representableValuesRoundToThemselves : Obligations.RepresentableValuesRoundToThemselves :=
  fun _ _ _ _ h => ⟨Ieee.number_of_valueOf h, Ieee.round_of_valueOf h⟩

/-- Settles O35: the operations on values are symmetric, sums by the common exponent. -/
theorem floatingPointSymmetry : Obligations.FloatingPointSymmetry :=
  fun _ _ => ⟨Ieee.addValue_comm .., Ieee.mulValue_comm .., Ieee.compareValue_swap ..⟩

/-- Settles O36: `itod` checks its two fields and ends in `finishPair`. -/
theorem itodResult : Obligations.ItodResult :=
  ⟨encodedRR_of_encode fun _ _ _ => rfl, refusesPairRR_of_exec fun _ _ _ _ => rfl,
    fun p r imm s => givesPair_of_finishPair (exec_itod r p s imm)⟩

/-- Settles O37: the model's floor is that of the rational number, and `dtoi` ends in `finishFloor`. -/
theorem dtoiResult : Obligations.DtoiResult := by
  refine ⟨fun _ _ => Ieee.floor_eq_some, fun _ => Ieee.floor_eq_none, encodedRR_of_encode fun _ _ _ => rfl, dtoi_refuses,
    fun d q imm s k hk h0 h => ?fits, fun d q imm s k hk h => ?misfits, fun d q imm s hk => ?none⟩
  case fits =>
    refine givesReg_of_finishReg ?_
    rw [exec_dtoi, hk, finishFloor_some, if_pos ⟨h0, h⟩, finishReg_eq]
  case misfits =>
    rw [Raises, exec_dtoi, hk, finishFloor_some, if_neg (by omega), State.raise]
  case none =>
    rw [Raises, exec_dtoi, hk, finishFloor_none, State.raise]

/-- Settles O38: a word has at most 53 bits, so its conversion is exact and its floor the word. -/
theorem itodThenDtoiIsExact : Obligations.ItodThenDtoiIsExact := by
  intro p r d imm s
  have h0 := U_nonneg (modified s r imm)
  have hlt := U_lt (modified s r imm)
  have hfloor : fp.floor (fp.fromInt (U (modified s r imm))) = some (U (modified s r imm)) :=
    Ieee.floor_fromInt h0 (by omega)
  have hdtoi : exec (.dtoi (regNo d) (pairNo p) 0) (s.setPair p (fp.fromInt (U (modified s r imm)))).advance =
      (s.setPair p (fp.fromInt (U (modified s r imm)))).advance.finishReg d (modified s r imm) := by
    have hpair : ∀ v, (s.setPair p v).advance.pair p = v := State.pair_setPair s p
    rw [exec_dtoi, modifiedPair_zero, hpair, hfloor, finishFloor_some, if_pos ⟨h0, hlt⟩, W_U, finishReg_eq]
  obtain ⟨u, hu, hreg, _⟩ := givesReg_of_finishReg hdtoi
  exact ⟨_, u, exec_itod .., hu, hreg⟩

/-- Settles O47: finite values compare as the integers they are at a common exponent, and `cmpd` ends in
`finishCompare`. -/
theorem cmpdResult : Obligations.CmpdResult := by
  refine ⟨fun a b ha hb => ?finite, fun a ha => ?infinite, by decide, fun a b => ?unordered,
    encodedRR_of_encode fun _ _ _ => rfl, refusesPairPair_of_exec fun _ _ _ _ => rfl, fun p q imm s => ?_⟩
  case finite =>
    obtain ⟨m₁, k₁, hv₁, hn₁⟩ := Ieee.number_of_isFinite ha
    obtain ⟨m₂, k₂, hv₂, hn₂⟩ := Ieee.number_of_isFinite hb
    simp only [fp, Ieee.compare, hv₁, hv₂, hn₁, hn₂]
    exact Ieee.compareFinite_eq ..
  case infinite =>
    obtain ⟨m, k, hv⟩ := Ieee.valueOf_of_isFinite a ha
    simp [fp, Ieee.compare, hv, Ieee.compareValue]
  case unordered =>
    rw [← Ieee.valueOf_eq_nan, ← Ieee.valueOf_eq_nan]
    obtain ⟨_, _, hunordered⟩ := Ieee.compareValue_swap (Ieee.valueOf a) (Ieee.valueOf b)
    exact hunordered
  exact givesFlags_of_finishCompare (exec_cmpd ..)

/-- Settles O60: each operation rounds once an integer that stands for the exact result. -/
theorem floatingPointResultsAreCorrectlyRounded : Obligations.FloatingPointResultsAreCorrectlyRounded := by
  refine ⟨fun a b ha hb => ?_, fun k => ?fromInt⟩
  case fromInt => simpa [fp, Ieee.fromInt] using Ieee.round_natAbs_roundsTo k 0
  obtain ⟨m₁, k₁, hv₁, hn₁⟩ := Ieee.number_of_isFinite ha
  obtain ⟨m₂, k₂, hv₂, hn₂⟩ := Ieee.number_of_isFinite hb
  obtain ⟨_, _, hlt, _⟩ := Ieee.isFinite_of_valueOf b _ _ _ hv₂
  simp only [fp, Ieee.add, Ieee.sub, Ieee.mul, Ieee.div, hv₁, hv₂, hn₁, hn₂]
  refine ⟨⟨_, rfl, Ieee.addFinite_roundsTo ..⟩, ⟨_, rfl, ?sub⟩, ⟨_, rfl, ?mul⟩, fun h => ?div⟩
  case sub =>
    simp only [sub_eq_add_neg, ← Ieee.scaled_not]
    exact Ieee.addFinite_roundsTo ..
  case mul =>
    rw [Ieee.scaled_mul]
    exact Ieee.round_roundsTo ..
  case div =>
    have h₂ : m₂ ≠ 0 := mt (Ieee.scaled_eq_zero _ _ _).2 h
    exact ⟨_, if_neg h₂, Ieee.divFinite_roundsTo _ _ _ _ h₂ hlt _⟩

end Sys2Proof.Machine
end

section
/-! PROOFS. The stack and subroutine commands (44_stack_and_calls.md R180 to R185): what a push and a pop leave, the five
commands, and that a pop undoes a push and `ret 0` a call. -/

namespace Sys2Proof.Machine

/-! ### Frames through further updates -/

section
variable {regs : List Reg} {cells : List Nat} {s t : State}

theorem KeepsBut.setPc (h : KeepsBut regs cells s t) (a : Word) : KeepsBut regs cells s (t.setPc a) :=
  ⟨h.reg, h.cell, h.status, h.hostIn, h.outTrace, h.nanDraws⟩

/-- A register written later joins the registers that may have changed. -/
theorem KeepsBut.setReg (h : KeepsBut regs cells s t) (d : Reg) (v : Word) :
    KeepsBut (regs ++ [d]) cells s (t.setReg d v) := by
  refine ⟨fun r hr => ?_, h.cell, h.status, h.hostIn, h.outTrace, h.nanDraws⟩
  simp only [List.mem_append, List.mem_singleton, not_or] at hr
  obtain ⟨hregs, hd⟩ := hr
  rw [State.reg_setReg_ne t v hd, h.reg r hregs]

end

/-! ### The state a push leaves (R180, R182, R183) -/

/-- `s` with the word `v` pushed: stored at the address in r14, and r14 decremented. -/
def State.pushed (s : State) (v : Word) : State := (s.setCell (s.reg sp).toNat v).setReg sp (s.reg sp - 1)

theorem not_inRange_of_le {a : Word} (h : Config.memWords ≤ a.toNat) : ¬inRange a 1 := by
  rw [inRange_iff]
  exact Nat.not_lt.2 h

section
variable {s : State} {v : Word}

theorem withPush_of_lt (h : (s.reg sp).toNat < Config.memWords) (k : State → Result) :
    s.withPush v k = k (s.pushed v) := withPush_inRange ((inRange_iff _ 1).2 h) v k

theorem withPush_of_le (h : Config.memWords ≤ (s.reg sp).toNat) (k : State → Result) :
    s.withPush v k = s.raise .addressOutOfRange := withPush_outside (not_inRange_of_le h) v k

@[simp] theorem State.cell_pushed : (s.pushed v).cell (s.reg sp).toNat = v := State.cell_setCell_self ..

@[simp] theorem State.sp_pushed : (s.pushed v).reg sp = W (U (s.reg sp) - 1) := by
  rw [W_sub, W_U]
  exact State.reg_setReg_self ..

theorem keepsBut_pushed : KeepsBut [sp] [(s.reg sp).toNat] s (s.pushed v) :=
  ⟨fun _ h => State.reg_setReg_ne _ _ (List.ne_of_not_mem_cons h),
    fun _ h => State.cell_setCell_ne s v (List.ne_of_not_mem_cons h), rfl, rfl, rfl, rfl⟩

end

/-! ### The commands on the registers they take (R180 to R184) -/

section
variable (d r : Reg) (addr : Addr) (s : State)

theorem exec_push (imm : Imm20) :
    exec (.push (regNo d) imm) s = s.withPush (W (U (s.reg d) + (imm.toNat : Int))) fun t => .next t.advance := by
  rw [W_add, W_U, ← immWord20_eq]
  exact withReg_regNo ..

theorem exec_call (imm : Imm16) :
    exec (.call (regNo d) (regNo r) imm) s =
      s.withPush (W (U s.pc + 1)) fun t => .next ((t.setReg d (W (U s.pc + 1))).setPc (modified s r imm)) := by
  rw [← State.nextPc_eq, ← State.srcval_eq]
  exact withReg_withReg_regNo ..

theorem exec_calli :
    exec (.calli addr) s = s.withPush (W (U s.pc + 1)) fun t => .next (t.setPc (W (addr.toNat : Int))) := by
  rw [← State.nextPc_eq, ← addrWord_eq]
  rfl

theorem exec_pop (imm : Imm20) :
    exec (.pop (regNo d) imm) s = s.withRead1 (W (U (s.reg sp) + 1)) fun v =>
      (s.setReg sp (W (U (s.reg sp) + 1))).finishReg d (W (U v + (imm.toNat : Int))) := by
  have ha : s.reg sp + 0 + 1 = W (U (s.reg sp) + 1) := by
    rw [W_add, W_U, add_zero]
    rfl
  simp only [W_add _ (imm.toNat : Int), W_U, ← immWord20_eq, ← ha]
  exact withReg_regNo ..

theorem exec_ret :
    exec (.ret addr) s = s.withRead1 (W (U (s.reg sp) + (addr.toNat : Int) + 1)) fun v =>
      .next ((s.setReg sp (W (U (s.reg sp) + (addr.toNat : Int) + 1))).setPc v) := by
  have ha : s.reg sp + addrWord addr + 1 = W (U (s.reg sp) + (addr.toNat : Int) + 1) := by
    rw [W_add, W_add, W_U, ← addrWord_eq]
    rfl
  rw [← ha]
  rfl

end

/-- The address that a pop reads after a push is the one that the push wrote. -/
theorem W_sub_one_add_one (w : Word) : W (U (W (U w - 1)) + 1) = w := by
  rw [W_add, W_U, ← W_add, sub_add_cancel, W_U]

/-! ### The statements -/

/-- Settles O39: the meaning checks its field, pushes and goes on. -/
theorem pushResult : Obligations.PushResult := by
  refine ⟨encodedRI_of_encode fun _ _ => rfl, fun _ _ => rfl, fun d imm s h => ?completes, fun d imm s h => ?raises⟩
  case completes =>
    exact ⟨_, (exec_push ..).trans (withPush_of_lt h _), State.cell_pushed, State.sp_pushed, State.nextPc_eq s, rfl,
      keepsBut_pushed.setPc _⟩
  case raises => exact (exec_push ..).trans (withPush_of_le h _)

/-- Settles O40: the receiver is written after r14, so it holds the popped word even if it is r14. -/
theorem popResult : Obligations.PopResult := by
  refine ⟨encodedRI_of_encode fun _ _ => rfl, fun _ _ => rfl, fun d imm s h => ?completes, fun d imm s h => ?raises⟩
  case completes =>
    refine ⟨_, (exec_pop ..).trans (withRead1_inRange ((inRange_iff _ 1).2 h) _), State.reg_setReg_self .., fun hd => ?_,
      State.nextPc_eq s, rfl, ((keepsBut_setReg s sp _).setReg d _).setPc _⟩
    exact (State.reg_setReg_ne _ _ hd.symm).trans (State.reg_setReg_self ..)
  case raises => exact (exec_pop ..).trans (withRead1_outside (not_inRange_of_le h) _)

/-- Settles O41: the receiver is written after the push, so it holds the return address even if it is r14. -/
theorem callResult : Obligations.CallResult := by
  refine ⟨encodedRR_of_encode fun _ _ _ => rfl, refusesRR_of_exec fun _ _ _ _ => rfl, fun d r imm s h => ?completes,
    fun d r imm s h => ?raises⟩
  case completes =>
    refine ⟨_, (exec_call ..).trans (withPush_of_lt h _), State.cell_pushed, State.reg_setReg_self .., fun hd => ?_, rfl,
      rfl, (keepsBut_pushed.setReg d _).setPc _⟩
    exact (State.reg_setReg_ne _ _ hd.symm).trans State.sp_pushed
  case raises => exact (exec_call ..).trans (withPush_of_le h _)

/-- Settles O42: the meaning pushes and transfers control. -/
theorem calliResult : Obligations.CalliResult := by
  refine ⟨encodedJ_of_encode (by decide) fun _ => rfl, fun addr s h => ?completes, fun addr s h => ?raises⟩
  case completes =>
    exact ⟨_, (exec_calli ..).trans (withPush_of_lt h _), State.cell_pushed, State.sp_pushed, rfl, rfl,
      keepsBut_pushed.setPc _⟩
  case raises => exact (exec_calli ..).trans (withPush_of_le h _)

/-- Settles O43: the popped word becomes `pc` whole, so only the address it is read from is checked. -/
theorem retResult : Obligations.RetResult := by
  refine ⟨encodedJ_of_encode (by decide) fun _ => rfl, fun n s h => ?completes, fun n s h => ?raises⟩
  case completes =>
    exact ⟨_, (exec_ret ..).trans (withRead1_inRange ((inRange_iff _ 1).2 h) _), State.reg_setReg_self .., rfl, rfl,
      (keepsBut_setReg s sp _).setPc _⟩
  case raises => exact (exec_ret ..).trans (withRead1_outside (not_inRange_of_le h) _)

/-- Settles O44: the pop reads the cell that the push wrote, since r14 comes back to its old value. -/
theorem pushThenPopCopiesAndRestores : Obligations.PushThenPopCopiesAndRestores := by
  intro d e s h he
  obtain ⟨_, _, hpush, _⟩ := pushResult
  obtain ⟨_, _, hpop, _⟩ := popResult
  obtain ⟨t, ht, hcell, hsp, _⟩ := hpush d 0 s h
  have ha : W (U (t.reg sp) + 1) = s.reg sp := hsp ▸ W_sub_one_add_one _
  obtain ⟨u, hu, hreg, hsp', _⟩ := hpop e 0 t (ha.symm ▸ h)
  rw [ha] at hreg hsp'
  refine ⟨t, u, ht, hu, ?_, hsp' he⟩
  rw [hreg, hcell]
  simp

/-- After a command that has pushed `v`, `ret 0` goes on at `v` and restores r14 (R184). -/
theorem ret_zero_after_push {s t : State} {v : Word} (h : (s.reg sp).toNat < Config.memWords)
    (hcell : t.cell (s.reg sp).toNat = v) (hsp : t.reg sp = W (U (s.reg sp) - 1)) :
    ∃ u, exec (.ret 0) t = .next u ∧ u.pc = v ∧ u.reg sp = s.reg sp := by
  obtain ⟨_, hret, _⟩ := retResult
  have ha : W (U (t.reg sp) + ((0 : Addr).toNat : Int) + 1) = s.reg sp := by
    have h0 : U (t.reg sp) + ((0 : Addr).toNat : Int) = U (t.reg sp) := add_zero _
    rw [h0, hsp, W_sub_one_add_one]
  obtain ⟨u, hu, hsp', hpc, _⟩ := hret 0 t (ha.symm ▸ h)
  rw [ha] at hpc hsp'
  exact ⟨u, hu, hpc.trans hcell, hsp'⟩

/-- Settles O45: both calls push the address of the following command. -/
theorem callThenRetZeroReturns : Obligations.CallThenRetZeroReturns := by
  refine ⟨fun addr s h => ?calli, fun d r imm s h hd => ?call⟩
  case calli =>
    obtain ⟨_, hcalli, _⟩ := calliResult
    obtain ⟨t, ht, hcell, hsp, _⟩ := hcalli addr s h
    obtain ⟨u, hu⟩ := ret_zero_after_push h hcell hsp
    exact ⟨t, u, ht, hu⟩
  case call =>
    obtain ⟨_, _, hcall, _⟩ := callResult
    obtain ⟨t, ht, hcell, _, hsp, _⟩ := hcall d r imm s h
    obtain ⟨u, hu⟩ := ret_zero_after_push h hcell (hsp hd)
    exact ⟨t, u, ht, hu⟩

end Sys2Proof.Machine
end

section
/-! PROOFS. The comparisons of integers and the jumps (45_compare_and_jumps.md R200 to R210): the flags by the order of the
compared numbers, and the bit of `flags` that each conditional jump tests. -/

namespace Sys2Proof.Machine

/-! ### Comparisons (R200 to R202) -/

section
variable (d r : Reg) (s : State)

theorem exec_cmp (imm : Imm16) :
    exec (.cmp (regNo d) (regNo r) imm) s = s.finishCompare (compareInt (U (s.reg d)) (U (modified s r imm))) := by
  rw [← State.srcval_eq, ← compareWord_unsigned]
  exact withReg_withReg_regNo ..

theorem exec_cmpi (imm : Imm20) :
    exec (.cmpi (regNo d) imm) s = s.finishCompare (compareInt (U (s.reg d)) (imm.toNat : Int)) := by
  rw [← U_immWord20, ← compareWord_unsigned]
  exact withReg_regNo ..

end

section
variable {i : Instr} {s : State} {a b : Int}

theorem givesFlags_of_eq (hi : exec i s = s.finishCompare (compareInt a b)) (h : a = b) :
    GivesFlags i s 0b110001#6 := by
  rw [compareInt_equal.2 h] at hi
  exact givesFlags_of_finishCompare hi

theorem givesFlags_of_gt (hi : exec i s = s.finishCompare (compareInt a b)) (h : b < a) :
    GivesFlags i s 0b010110#6 := by
  rw [compareInt_of_gt h] at hi
  exact givesFlags_of_finishCompare hi

theorem givesFlags_of_lt (hi : exec i s = s.finishCompare (compareInt a b)) (h : a < b) :
    GivesFlags i s 0b101010#6 := by
  rw [compareInt_of_lt h] at hi
  exact givesFlags_of_finishCompare hi

end

/-! ### Jumps (R204 to R210) -/

/-- A command that only sets `pc` goes there. -/
theorem goesTo_of_setPc {i : Instr} {s : State} {a : Word} (h : exec i s = .next (s.setPc a)) : GoesTo i s a :=
  ⟨_, h, rfl, rfl, keepsBut_setPc s a⟩

/-- The commands made by `mk` jump to their address exactly if `flags` contains the condition. -/
def JumpsIf (mk : Addr → Instr) (c : Cond) : Prop := ∀ addr s, exec (mk addr) s = s.jumpIf c addr

theorem JumpsIf.goesTo {mk : Addr → Instr} {c : Cond} (h : JumpsIf mk c) (addr : Addr) (s : State) :
    GoesTo (mk addr) s (if s.flags.getLsbD c.bit then W (addr.toNat : Int) else W (U s.pc + 1)) := by
  rw [← addrWord_eq, ← State.nextPc_eq]
  exact goesTo_of_setPc (h addr s)

theorem jumpsIf_jne : JumpsIf .jne .notEqual := fun _ _ => rfl
theorem jumpsIf_jeq : JumpsIf .jeq .equal := fun _ _ => rfl
theorem jumpsIf_jle : JumpsIf .jle .lessEqual := fun _ _ => rfl
theorem jumpsIf_jl : JumpsIf .jl .less := fun _ _ => rfl
theorem jumpsIf_jge : JumpsIf .jge .greaterEqual := fun _ _ => rfl
theorem jumpsIf_jg : JumpsIf .jg .greater := fun _ _ => rfl

theorem exec_jmp (addr : Addr) (s : State) : exec (.jmp addr) s = .next (s.setPc (W (addr.toNat : Int))) := by
  rw [← addrWord_eq]
  rfl

/-! ### The statements -/

/-- Settles O46: both meanings end in `finishCompare`, of the receiver and the second operand as unsigned numbers. -/
theorem cmpAndCmpi : Obligations.CmpAndCmpi :=
  ⟨encodedRR_of_encode fun _ _ _ => rfl, encodedRI_of_encode fun _ _ => rfl, refusesRR_of_exec fun _ _ _ _ => rfl,
    fun _ _ => rfl,
    fun d r imm s => givesFlags_of_eq (exec_cmp d r s imm), fun d r imm s => givesFlags_of_gt (exec_cmp d r s imm),
    fun d r imm s => givesFlags_of_lt (exec_cmp d r s imm), fun d imm s => givesFlags_of_eq (exec_cmpi d s imm),
    fun d imm s => givesFlags_of_gt (exec_cmpi d s imm), fun d imm s => givesFlags_of_lt (exec_cmpi d s imm)⟩

/-- Settles O49: each conditional jump tests the bit of its own condition. -/
theorem jumpsGoWhereTheirFlagSays : Obligations.JumpsGoWhereTheirFlagSays := by
  refine ⟨?_, fun addr s => goesTo_of_setPc (exec_jmp addr s), ?_, jumpsIf_jne.goesTo, ?_, jumpsIf_jeq.goesTo,
    ?_, jumpsIf_jle.goesTo, ?_, jumpsIf_jl.goesTo, ?_, jumpsIf_jge.goesTo, ?_, jumpsIf_jg.goesTo⟩
  all_goals exact encodedJ_of_encode (by decide) fun _ => rfl

end Sys2Proof.Machine
end

section
/-! PROOFS. The loads and stores (46_load_store.md R220 to R228): what a load or a store of one or two cells does at an
address inside memory and outside, and the address at which each of the eight commands does it. -/

namespace Sys2Proof.Machine

theorem encodedRM_of_encode {mk : RegNo → Addr → Instr} {c : BitVec 8}
    (he : ∀ rd addr, encode (mk rd addr) = c ++ rd ++ addr) : EncodedRM mk c :=
  fun rd addr => ⟨he rd addr, he rd addr ▸ decode_encode _⟩

theorem addrWord_toNat_lt (addr : Addr) : (addrWord addr).toNat < Config.memWords :=
  (inRange_iff _ 1).1 (inRange_addrWord addr)

theorem inRange_one_of_lt {a : Word} (h : a.toNat < Config.memWords) : inRange a 1 := (inRange_iff a 1).2 h

theorem inRange_two_of_lt {a : Word} (h : a.toNat + 1 < Config.memWords) : inRange a 2 := (inRange_iff a 2).2 h

theorem not_inRange_two_of_le {a : Word} (h : Config.memWords ≤ a.toNat + 1) : ¬inRange a 2 := by
  rw [inRange_iff]
  exact Nat.not_le.2 (Nat.lt_succ_of_le h)

/-! ### One or two cells at an address, inside memory and outside (R9, R23, R221 to R228) -/

section
variable {i : Instr} {s : State} {d : Reg} {p : PairReg} {a : Word}

theorem givesReg_of_loadWord (hi : exec i s = s.loadWord d a) (h : a.toNat < Config.memWords) :
    GivesReg i s d (s.cell a.toNat) :=
  givesReg_of_finishReg (hi.trans (withRead1_inRange (inRange_one_of_lt h) _))

theorem raises_of_loadWord (hi : exec i s = s.loadWord d a) (h : Config.memWords ≤ a.toNat) :
    Raises i s .addressOutOfRange :=
  hi.trans (withRead1_outside (not_inRange_of_le h) _)

theorem givesPair_of_loadPair (hi : exec i s = s.loadPair p a) (h : a.toNat + 1 < Config.memWords) :
    GivesPair i s p (s.cell (a.toNat + 1) ++ s.cell a.toNat) :=
  givesPair_of_finishPair (hi.trans (withRead2_inRange (inRange_two_of_lt h) _))

theorem raises_of_loadPair (hi : exec i s = s.loadPair p a) (h : Config.memWords ≤ a.toNat + 1) :
    Raises i s .addressOutOfRange :=
  hi.trans (withRead2_outside (not_inRange_two_of_le h) _)

theorem storesCell_of_storeWord (hi : exec i s = s.storeWord d a) (h : a.toNat < Config.memWords) :
    StoresCell i s a.toNat (s.reg d) :=
  ⟨_, hi.trans (withWrite1_inRange (inRange_one_of_lt h) ..), State.cell_setCell_self .., State.nextPc_eq s, rfl,
    keepsBut_setCell s a.toNat _⟩

theorem raises_of_storeWord (hi : exec i s = s.storeWord d a) (h : Config.memWords ≤ a.toNat) :
    Raises i s .addressOutOfRange :=
  hi.trans (withWrite1_outside (not_inRange_of_le h) ..)

/-- The second write, to the next cell, does not touch the first. -/
theorem storesCells_of_storePair (hi : exec i s = s.storePair p a) (h : a.toNat + 1 < Config.memWords) :
    StoresCells i s a.toNat (s.reg (pairLo p)) (s.reg (pairHi p)) := by
  rw [← lowWord_pair, ← highWord_pair]
  refine ⟨_, hi.trans (withWrite2_inRange (inRange_two_of_lt h) ..), ?_, State.cell_setCell_self .., State.nextPc_eq s,
    rfl, keepsBut_setCell2 s a.toNat (a.toNat + 1) _ _⟩
  exact (State.cell_setCell_ne _ _ (Nat.lt_succ_self _).ne).trans (State.cell_setCell_self ..)

theorem raises_of_storePair (hi : exec i s = s.storePair p a) (h : Config.memWords ≤ a.toNat + 1) :
    Raises i s .addressOutOfRange :=
  hi.trans (withWrite2_outside (not_inRange_two_of_le h) ..)

end

/-! ### The address each command uses -/

section
variable (d r : Reg) (p : PairReg) (addr : Addr) (imm : Imm16) (s : State)

theorem exec_load : exec (.load (regNo d) addr) s = s.loadWord d (addrWord addr) := withReg_regNo ..

theorem exec_load2 : exec (.load2 (pairNo p) addr) s = s.loadPair p (addrWord addr) := withPair_pairNo ..

theorem exec_store : exec (.store (regNo d) addr) s = s.storeWord d (addrWord addr) := withReg_regNo ..

theorem exec_store2 : exec (.store2 (pairNo p) addr) s = s.storePair p (addrWord addr) := withPair_pairNo ..

theorem exec_loadr : exec (.loadr (regNo d) (regNo r) imm) s = s.loadWord d (modified s r imm) := by
  rw [← State.srcval_eq]
  exact withReg_withReg_regNo ..

theorem exec_loadr2 : exec (.loadr2 (pairNo p) (regNo r) imm) s = s.loadPair p (modified s r imm) := by
  rw [← State.srcval_eq]
  exact withPair_withReg_regNo ..

theorem exec_storer : exec (.storer (regNo d) (regNo r) imm) s = s.storeWord d (modified s r imm) := by
  rw [← State.srcval_eq]
  exact withReg_withReg_regNo ..

theorem exec_storer2 : exec (.storer2 (pairNo p) (regNo r) imm) s = s.storePair p (modified s r imm) := by
  rw [← State.srcval_eq]
  exact withPair_withReg_regNo ..

end

/-! ### The statements -/

/-- Settles O50: an absolute address is always inside memory; the cell after it need not be. -/
theorem absoluteLoads : Obligations.AbsoluteLoads := by
  refine ⟨encodedRM_of_encode fun _ _ => rfl, encodedRM_of_encode fun _ _ => rfl, fun _ _ => rfl,
    refusesPairRI_of_exec fun _ _ _ => rfl, fun d addr s => ?load, fun p addr s h => ?load2, fun p addr s h => ?raises⟩
  case load =>
    rw [← addrWord_toNat]
    exact givesReg_of_loadWord (exec_load ..) (addrWord_toNat_lt addr)
  case load2 =>
    rw [← addrWord_toNat] at h ⊢
    exact givesPair_of_loadPair (exec_load2 ..) h
  case raises =>
    rw [← addrWord_toNat] at h
    exact raises_of_loadPair (exec_load2 ..) h

/-- Settles O51: an absolute address is always inside memory; the cell after it need not be. -/
theorem absoluteStores : Obligations.AbsoluteStores := by
  refine ⟨encodedRM_of_encode fun _ _ => rfl, encodedRM_of_encode fun _ _ => rfl, fun _ _ => rfl,
    refusesPairRI_of_exec fun _ _ _ => rfl, fun d addr s => ?store, fun p addr s h => ?store2, fun p addr s h => ?raises⟩
  case store =>
    rw [← addrWord_toNat]
    exact storesCell_of_storeWord (exec_store ..) (addrWord_toNat_lt addr)
  case store2 =>
    rw [← addrWord_toNat] at h ⊢
    exact storesCells_of_storePair (exec_store2 ..) h
  case raises =>
    rw [← addrWord_toNat] at h
    exact raises_of_storePair (exec_store2 ..) h

/-- Settles O52: both meanings check their fields and load at the modified source. -/
theorem registerLoads : Obligations.RegisterLoads :=
  ⟨encodedRR_of_encode fun _ _ _ => rfl, encodedRR_of_encode fun _ _ _ => rfl, refusesRR_of_exec fun _ _ _ _ => rfl,
    refusesPairRR_of_exec fun _ _ _ _ => rfl,
    fun d r imm s => givesReg_of_loadWord (exec_loadr d r imm s),
    fun d r imm s => raises_of_loadWord (exec_loadr d r imm s),
    fun p r imm s => givesPair_of_loadPair (exec_loadr2 r p imm s),
    fun p r imm s => raises_of_loadPair (exec_loadr2 r p imm s)⟩

/-- Settles O53: both meanings check their fields and store at the modified source. -/
theorem registerStores : Obligations.RegisterStores :=
  ⟨encodedRR_of_encode fun _ _ _ => rfl, encodedRR_of_encode fun _ _ _ => rfl, refusesRR_of_exec fun _ _ _ _ => rfl,
    refusesPairRR_of_exec fun _ _ _ _ => rfl,
    fun d r imm s => storesCell_of_storeWord (exec_storer d r imm s),
    fun d r imm s => raises_of_storeWord (exec_storer d r imm s),
    fun p r imm s => storesCells_of_storePair (exec_storer2 r p imm s),
    fun p r imm s => raises_of_storePair (exec_storer2 r p imm s)⟩

end Sys2Proof.Machine
end

section
/-! PROOFS. The runtime errors (60_exceptions.md R240 to R251): which words and which operands raise one, which commands
can raise each kind, and that an error leaves everything as it was but the status and ends the run. -/

namespace Sys2Proof.Machine

/-! ### The codes that the opcode map does not assign (R68, R247) -/

/-- The ranges of codes that Table 1 does not assign (R247). -/
def Unassigned (c : Nat) : Prop := c = 10 ∨ c = 11 ∨ (25 ≤ c ∧ c ≤ 31) ∨ (53 ≤ c ∧ c ≤ 63) ∨ 72 ≤ c

/-- A word is a command exactly when its code is outside those ranges (R68, R69), by the arm of the decoder that its code
selects. -/
theorem exists_decode_iff (w : Word) : (∃ i, decode w = .ok i) ↔ ¬Unassigned (codeField w).toNat := by
  unfold decode Unassigned
  split
  pick_goal -1
  · -- the last arm, for the codes that are none of those written out
    simp only [imp_false] at *
    simp only [reduceCtorEq, exists_false, false_iff, not_not]
    omega
  all_goals simp [*]

theorem decode_error_of_unassigned {w : Word} (h : Unassigned (codeField w).toNat) : ∃ e, decode w = .error e := by
  cases hd : decode w with
  | ok i => exact absurd h ((exists_decode_iff w).1 ⟨i, hd⟩)
  | error e => exact ⟨e, rfl⟩

/-! ### A step that ends in an error (R250, R251) -/

section
variable {i : Instr} {s t : State} {kind : ErrorKind}

theorem running_of_step_eq_next (h : step s = .next t) : s.Running := by
  by_contra hs
  cases (step_of_not_running hs).symm.trans h

/-- A command of a running machine that ends in an error has only stopped: it can raise the error, and has changed the
status alone. -/
theorem exec_error (hs : s.Running) (h : exec i s = .next t) (ht : t.status = .error kind) :
    kind.raisedBy i = true ∧ t = s.setStatus (.error kind) := by
  rcases goesOn_or_stops h with hg | ⟨st, hst, rfl⟩
  · cases (hg.status.trans hs).symm.trans ht
  · rw [State.status_setStatus] at ht
    subst ht
    cases hst with
    | error hk => exact ⟨hk, rfl⟩

/-- A step that ends in an error, of the fetch or of the command, has changed the status alone. -/
theorem step_error (h : step s = .next t) (ht : t.status = .error kind) : t = s.setStatus (.error kind) := by
  rcases step_eq_next h with ⟨_, _, he⟩ | ⟨_, _, rfl⟩
  · exact (exec_error (running_of_step_eq_next h) he ht).2
  · rw [← ht, State.status_setStatus]

theorem not_running_of_error (h : s.status = .error kind) : ¬s.Running := by
  rw [State.Running, h]
  nofun

end

/-! ### The errors of division (R241, R246) -/

section
variable {s : State} {p : PairReg} {b : Word}

theorem finishDivide_of_zero (h : U b = 0) : s.finishDivide p b = s.raise .divisionByZero := by
  rw [finishDivide_eq, if_pos h]

/-- The quotient of a double word by no more than its high word does not fit a register. -/
theorem finishDivide_of_le (h0 : 0 < U b) (h : U b ≤ U (s.reg (pairHi p))) :
    s.finishDivide p b = s.raise .quotientOverflow := by
  have hlo := U_nonneg (s.reg (pairLo p))
  have hq : 4294967296 ≤ ((s.pair p).toNat : Int) / U b := by
    rw [pair_toNat]
    exact (Int.le_ediv_iff_mul_le h0).2 (by omega)
  rw [finishDivide_eq, if_neg h0.ne', if_neg hq.not_gt]

theorem raise_eq_error_iff {kind kind' : ErrorKind} :
    s.raise kind = .next (s.setStatus (.error kind')) ↔ kind = kind' := by
  refine ⟨fun h => ?_, fun h => h ▸ rfl⟩
  cases congrArg State.status ((raise_eq_next ..).1 h)
  rfl

/-- A command that has completed is at the next command, and one that has raised an error is not. -/
theorem finishPair_ne_error (v : DWord) (st : Status) : s.finishPair p v ≠ .next (s.setStatus st) := by
  intro h
  have hpc : s.pc + 1 = s.pc := congrArg (fun r => (settle s r).pc) h
  exact absurd (add_eq_left.1 hpc) (by decide)

variable {i : Instr}

/-- A division raises an error exactly where its operands are in the error's range; the two ranges and that of the
divisions that complete are disjoint. -/
theorem raises_iff_of_finishDivide (hi : exec i s = s.finishDivide p b) :
    (Raises i s .divisionByZero ↔ U b = 0) ∧
      (Raises i s .quotientOverflow ↔ 0 < U b ∧ U b ≤ U (s.reg (pairHi p))) := by
  have hb := U_nonneg b
  simp only [Raises, hi]
  rcases hb.eq_or_lt with h0 | h0
  · rw [finishDivide_of_zero h0.symm, raise_eq_error_iff, raise_eq_error_iff]
    simp [← h0]
  rcases le_or_gt (U b) (U (s.reg (pairHi p))) with h | h
  · rw [finishDivide_of_le h0 h, raise_eq_error_iff, raise_eq_error_iff]
    simp [h0, h0.ne', h]
  · simp [finishDivide_of_lt p s h, -finishPair_eq, finishPair_ne_error, h0.ne', h.not_ge]

end

/-! ### The statements -/

/-- Settles O12: the error is that of the fetch or of the command, and a machine in error does not run. -/
theorem errorsArePreciseAndTerminal : Obligations.ErrorsArePreciseAndTerminal := fun _ _ _ h ht =>
  ⟨step_error h ht, step_of_not_running (not_running_of_error ht)⟩

/-- Settles O13: a command that goes on keeps the machine running, so one that ends in an error has raised it. -/
theorem errorsAreRaisedOnlyByTheirCommands : Obligations.ErrorsAreRaisedOnlyByTheirCommands := fun _ _ _ _ hs h ht =>
  (exec_error hs h ht).1

/-- Settles O9: of the answers of a well-formed command, only the one of an input call without input is no next state. -/
theorem wellFormedCommandsAnswerANextState : Obligations.WellFormedCommandsAnswerANextState := by
  intro i s hwf
  have a := exec_answers i s
  rw [hwf] at a
  generalize exec i s = r at a ⊢
  cases a with
  | goesOn | stops => exact .inl ⟨_, rfl⟩
  | lacksInput hi => exact .inr ⟨hi, rfl⟩

/-- Settles O3: the decoder rejects exactly the codes of the ranges, and the step raises its error. -/
theorem unassignedCodesRaiseIllegalInstruction : Obligations.UnassignedCodesRaiseIllegalInstruction := by
  refine fun s hs hpc => ⟨fun h => ?_, (exists_decode_iff _).2⟩
  obtain ⟨e, he⟩ := decode_error_of_unassigned h
  exact step_of_fetch_error hs (by rw [fetch_inside hpc, he]; rfl)

/-- Settles O26: both meanings end in `finishDivide`, of the modified source or the immediate. -/
theorem divisionErrors : Obligations.DivisionErrors := by
  have hdiv := fun p r imm s => raises_iff_of_finishDivide (exec_div r p s imm)
  have hdivi := fun p imm s => raises_iff_of_finishDivide (exec_divi p s imm)
  simp only [U_immWord20, Nat.cast_eq_zero] at hdivi
  exact ⟨fun p r imm s => (hdiv p r imm s).1, fun p r imm s => (hdiv p r imm s).2,
    fun p imm s => (hdivi p imm s).1, fun p imm s => (hdivi p imm s).2⟩

end Sys2Proof.Machine
end

section
/-! PROOFS. The launch state of the empty image, and a program that writes its own next command (70_reset_and_hazards.md
R272, R275, R281; 20_memory.md R53). -/

namespace Sys2Proof.Machine

/-! ### Launching nothing (R272) -/

/-- Launching the empty image at `ENTRY` writes no cell. -/
theorem launch_nil : launch [] Config.entry = State.reset := rfl

/-! ### A word stored where the next fetch reads it (R53, R281) -/

/-- The command after one inside memory has the next address: the sum does not wrap. -/
theorem toNat_W_U_add_one {w : Word} (h : w.toNat + 1 < Config.memWords) : (W (U w + 1)).toNat = w.toNat + 1 := by
  have hU := U_W (U w + 1)
  simp only [U, Config.memWords] at hU h ⊢
  omega

/-- When a command stores a word in the cell after its own, the next step executes the command of that word: the step
leaves a running machine whose `pc` is at the cell that was written. -/
theorem step_of_storesCell_next {s : State} {i j : Instr} {v : Word} (hs : s.Running)
    (hpc : s.pc.toNat + 1 < Config.memWords) (hi : decode (s.cell s.pc.toNat) = .ok i)
    (h : StoresCell i s (s.pc.toNat + 1) v) (hj : decode v = .ok j) : ∃ t, step s = .next t ∧ step t = exec j t := by
  obtain ⟨t, hexec, hcell, htpc, -, hkeeps⟩ := h
  have hnext : t.pc.toNat = s.pc.toNat + 1 := htpc ▸ toNat_W_U_add_one hpc
  have hstep : step s = .next t := (step_of_decode hs (Nat.lt_of_succ_lt hpc) hi).trans hexec
  exact ⟨t, hstep, step_of_decode (hkeeps.status.trans hs) (hnext ▸ hpc) (by rw [hnext, hcell, hj])⟩

/-! ### The statements -/

/-- Settles O58: an absolute store always completes, at its address, which is that of the next command. -/
theorem storeIntoTheNextCellIsExecuted : Obligations.StoreIntoTheNextCellIsExecuted := by
  intro s d addr j hs hpc hi haddr hj
  obtain ⟨-, -, -, -, hstore, -, -⟩ := absoluteStores
  exact step_of_storesCell_next hs hpc hi (haddr ▸ hstore d addr s) hj

/-- Settles O21: reset is the launch of the empty image, which is well formed. -/
theorem resetIsALaunchState : Obligations.ResetIsALaunchState :=
  ⟨launch_nil ▸ launch_of_wf Memory.wf_reset Config.entry, rfl⟩

end Sys2Proof.Machine
end
